-- ==== Sys2Proof/Word.lean ====
section
/-! DEFINITION. The word types of the radio-comms-sim FSK core (R10, 00_scope.md). -/

namespace Sys2Proof

/-- `u32`, and the bit pattern of an `f32` (R10): the width of every register and of every bus data word (R72). -/
abbrev Word := BitVec 32

/-- `byte` (R10): a frame byte, a payload byte, a station id. -/
abbrev Byte := BitVec 8

end Sys2Proof
end

