-- ==== Sys2Proof/Config.lean ====
section
/-! DEFINITION. What is fixed when the block is built (R6, 00_scope.md), and the free values.

`Config` is plain data and stands in the state, unchanged by every step, so that each statement about all states is a
statement about all configurations. An `opaque` constant below has no body: nothing in Lean can prove a value of it.
-/

namespace Sys2Proof

/-- The `TEXT_VALID` parameter of R6: the default of R196, or another predicate a block was built with. -/
inductive TextRule where
  /-- UTF-8 well-formedness, the default (R196). -/
  | utf8
  /-- Another predicate on payload bytes, named by a number; nothing is known of it. -/
  | other (id : Nat)
  deriving DecidableEq, Repr

/-- The configuration record of R6. `NSYM = 2` is fixed and is no field. -/
structure Config where
  /-- `R`, sample rate in Hz. -/
  sampleRate : Nat
  /-- `NBUF`, frames per audio buffer. -/
  nbuf : Nat
  /-- `T`, tone table length. -/
  tableLen : Nat
  /-- `F_A`, frequency of symbol 0 in Hz. -/
  freqA : Nat
  /-- `F_B`, frequency of symbol 1 in Hz. -/
  freqB : Nat
  /-- `L`, preamble length in bits. -/
  preambleLen : Nat
  /-- `PREAMBLE`, in the order sent. -/
  preamble : List Bool
  /-- `WIN_BUFS`, spectral window length in buffers. -/
  winBufs : Nat
  /-- `CAPQ_DEPTH`, capture FIFO depth in buffers. -/
  capqDepth : Nat
  /-- `TXQ_DEPTH`, pending-transmit queue depth in frames. -/
  txqDepth : Nat
  /-- `RXQ_DEPTH`, delivery queue depth in payloads. -/
  rxqDepth : Nat
  /-- `MAX_BYTES_PER_CHAR`, used by the host procedure `packetize` alone (R198). -/
  maxBytesPerChar : Nat
  /-- `TEXT_VALID`. -/
  textRule : TextRule
  /-- Which `THRESH_DECIDE` the block is built with: an index of the free function `Config.threshDecide`. -/
  threshRule : Nat
  /-- `ENERGY_TOL` is `tolNum / tolDen` (log entry 2: a rational tolerance). -/
  tolNum : Nat
  /-- See `tolNum`. -/
  tolDen : Nat
  deriving DecidableEq, Repr

/-- The frequency of a symbol: `F_0 = F_A`, `F_1 = F_B` (R130). -/
def Config.freq (c : Config) (sym : Bool) : Nat := if sym then c.freqB else c.freqA

/-- `W = WIN_BUFS * NBUF` (R223). -/
def Config.winLen (c : Config) : Nat := c.winBufs * c.nbuf

/-! The OPEN parameters of R6, free (log entry 1). -/

/-- Free value behind `T`. -/
opaque Config.openTableLen : Nat
/-- Free value behind `F_A`. -/
opaque Config.openFreqA : Nat
/-- Free value behind `F_B`. -/
opaque Config.openFreqB : Nat
/-- Free bits of `PREAMBLE`. -/
opaque Config.openPreamble : Nat → Bool
/-- Free value behind `WIN_BUFS`. -/
opaque Config.openWinBufs : Nat
/-- Free numerator of `ENERGY_TOL`. -/
opaque Config.openTolNum : Nat
/-- Free denominator (less one) of `ENERGY_TOL`. -/
opaque Config.openTolDen : Nat

/-- `THRESH_DECIDE` (R226): a function of the buffer's words alone, of which nothing else is known (log entry 7). -/
opaque Config.threshDecide : Nat → List Word → Bool
/-- A `TEXT_VALID` other than the default (R196). -/
opaque Config.otherTextValid : Nat → List Byte → Bool

/-! Free draws, each applied to the state's counter of draws (R8, R14, R225, R251). -/

/-- `AUDIO_OK` at a START for which the state fixes no value (R251). -/
opaque Config.audioOkDraw : Nat → Bool
/-- The bit of a spectral window whose decision R225 leaves open. -/
opaque Config.bitDraw : Nat → Bool
/-- Which agent steps next, when the schedule fixes no event (R8). -/
opaque Config.agentDraw : Nat → Nat
/-- Whether a drawn host transaction is a write. -/
opaque Config.writeDraw : Nat → Bool
/-- Its word address, before it is cut to 6 bits. -/
opaque Config.addrDraw : Nat → Nat
/-- Its data word. -/
opaque Config.dataDraw : Nat → Word
/-- Word `i` of a drawn input buffer (R14: any bit pattern). -/
opaque Config.sampleDraw : Nat → Nat → Word

/-- The configuration at `State.reset`: the default of R6 where it gives one; a free value within R7 where R6 says OPEN.
Every well-formed choice of the OPEN parameters is a value of the free constants (log entry 1). -/
def Config.built : Config where
  sampleRate := 10000
  nbuf := 64
  tableLen := 1 + Config.openTableLen % 65536
  freqA := 1 + Config.openFreqA % 4999
  freqB := 1 + (1 + Config.openFreqA % 4999 + Config.openFreqB % 4998) % 4999
  preambleLen := 256
  preamble := (List.range 256).map Config.openPreamble
  winBufs := 1 + Config.openWinBufs
  capqDepth := 4
  txqDepth := 4
  rxqDepth := 4
  maxBytesPerChar := 4
  textRule := .utf8
  threshRule := 0
  tolNum := Config.openTolNum
  tolDen := 1 + Config.openTolDen

end Sys2Proof
end

