-- ==== Sys2Proof/Syntax.lean ====
section
/-! DEFINITION. The instructions of the block: one constructor per row of spec/opcode_table.json. -/

namespace Sys2Proof

/-- A row of the opcode table with its operands (R100). The first seven are command words (R103-R107), the other eight
are bus transactions (R101, R102). -/
inductive Instr where
  /-- NOP (R256). -/
  | nop
  /-- START (R250). -/
  | start
  /-- TX_SEND DEST (R200). -/
  | txSend (dest : Byte)
  /-- TX_CLEAR (R257). -/
  | txClear
  /-- RX_POP (R255). -/
  | rxPop
  /-- CLR_STATS (R258). -/
  | clrStats
  /-- TONE_READ SYM, INDEX (R134). -/
  | toneRead (sym : Bool) (index : BitVec 16)
  /-- RD_REG: a read, without side effect, of a mapped register other than RXDATA (R264). -/
  | rdReg (addr : BitVec 6)
  /-- RD_RXDATA (R254). -/
  | rdRxdata
  /-- WR_CTRL (R252). -/
  | wrCtrl (v : Word)
  /-- WR_CMD: the data word is the command word, legal or not (R103, R108). -/
  | wrCmd (v : Word)
  /-- WR_LOCAL_ID (R260). -/
  | wrLocalId (v : Word)
  /-- WR_TXDATA (R253). -/
  | wrTxdata (v : Word)
  /-- WR_IGNORED: a write to a RO or reserved address (R261). -/
  | wrIgnored (addr : BitVec 6) (v : Word)
  /-- RD_RESERVED: a read of a reserved address (R48). -/
  | rdReserved (addr : BitVec 6)
  deriving DecidableEq, Repr

end Sys2Proof
end

