-- ==== Sys2Proof/WellFormed.lean ====
section
/-! DEFINITION. Which instruction terms are rows of the opcode table: the address sets of the three bus rows that have
an address field (R102, and the "addresses" of spec/opcode_table.json). -/

namespace Sys2Proof

/-- `RD_REG`: 0x00-0x0C and 0x0E-0x1A. -/
def isReadableReg (addr : BitVec 6) : Bool := addr.toNat ≤ 0x1A && addr != 0x0D#6

/-- `RD_RESERVED`: 0x1B-0x3F (R48). -/
def isReservedAddr (addr : BitVec 6) : Bool := 0x1B ≤ addr.toNat

/-- A RW or WO address: CTRL, CMD, LOCAL_ID, TXDATA (R20). Every other address ignores a write (R261). -/
def isWritableReg (addr : BitVec 6) : Bool :=
  addr == 0x02#6 || addr == 0x03#6 || addr == 0x05#6 || addr == 0x07#6

/-- An instruction with operands its row admits. -/
def Instr.wellFormed : Instr → Bool
  | .nop | .start | .txSend _ | .txClear | .rxPop | .clrStats | .toneRead _ _ => true
  | .rdReg a => isReadableReg a
  | .rdRxdata => true
  | .wrCtrl _ | .wrCmd _ | .wrLocalId _ | .wrTxdata _ => true
  | .wrIgnored a _ => !isWritableReg a
  | .rdReserved a => isReservedAddr a

end Sys2Proof
end

