-- ==== Sys2Proof/Decode.lean ====
section
/-! DEFINITION. The decoder and, after it, the encoder (30_encoding.md).

A decoder reads the BUS format first and, when the row is "write CMD", the data word as a CMD word (R100). Every bit
pattern of both formats decodes to one row or to the ILLEGAL verdict of R108.
-/

namespace Sys2Proof

/-! ## CMD words (R103-R108) -/

/-- What a legal command word says. -/
inductive Command where
  | nop
  | start
  | txSend (dest : Byte)
  | txClear
  | rxPop
  | clrStats
  | toneRead (sym : Bool) (index : BitVec 16)
  deriving DecidableEq, Repr

/-- The row of the opcode table a command is. -/
def Command.toInstr : Command → Instr
  | .nop => .nop
  | .start => .start
  | .txSend d => .txSend d
  | .txClear => .txClear
  | .rxPop => .rxPop
  | .clrStats => .clrStats
  | .toneRead s i => .toneRead s i

/-- The bits a word must agree on to be of a row, and their values: the row's mask and match (R107). -/
structure CmdRow where
  mnemonic : String
  mask : Word
  value : Word
  deriving DecidableEq, Repr

/-- The opcode map of R107. -/
def cmdRows : List CmdRow := [
  ⟨"NOP", 0xFFFFFFFF#32, 0x00000000#32⟩,
  ⟨"START", 0xFFFFFFFF#32, 0x01000000#32⟩,
  ⟨"TX_SEND", 0xFF00FFFF#32, 0x02000000#32⟩,
  ⟨"TX_CLEAR", 0xFFFFFFFF#32, 0x03000000#32⟩,
  ⟨"RX_POP", 0xFFFFFFFF#32, 0x04000000#32⟩,
  ⟨"CLR_STATS", 0xFFFFFFFF#32, 0x05000000#32⟩,
  ⟨"TONE_READ", 0xFFFE0000#32, 0x06000000#32⟩]

/-- A word `w` selects a row when `(w & mask) = match` (R107). -/
def CmdRow.selects (r : CmdRow) (w : Word) : Bool := w &&& r.mask == r.value

/-- `DEST = w[23:16]` (R105). -/
def destField (w : Word) : Byte := w.extractLsb' 16 8

/-- `SYM = w[16]` (R105). -/
def symField (w : Word) : Bool := w.getLsbD 16

/-- `INDEX = w[15:0]` (R105). -/
def indexField (w : Word) : BitVec 16 := w.extractLsb' 0 16

/-- The CMD decoder: `none` is the ILLEGAL verdict (R108), which covers an unlisted opcode and a set reserved bit
(R106). -/
def decodeCommand (w : Word) : Option Command :=
  if w &&& 0xFFFFFFFF#32 = 0x00000000#32 then some .nop
  else if w &&& 0xFFFFFFFF#32 = 0x01000000#32 then some .start
  else if w &&& 0xFF00FFFF#32 = 0x02000000#32 then some (.txSend (destField w))
  else if w &&& 0xFFFFFFFF#32 = 0x03000000#32 then some .txClear
  else if w &&& 0xFFFFFFFF#32 = 0x04000000#32 then some .rxPop
  else if w &&& 0xFFFFFFFF#32 = 0x05000000#32 then some .clrStats
  else if w &&& 0xFFFE0000#32 = 0x06000000#32 then some (.toneRead (symField w) (indexField w))
  else none

/-! ## BUS transactions (R101, R102) -/

/-- One host bus transaction as the host puts it: `MemRead(addr, 4)` or `MemWrite(addr, 4, data)` (R71). The address is
a number, so that a host which produces one wider than 6 bits can be refused. -/
structure HostTxn where
  write : Bool
  addr : Nat
  /-- On a write the host drives it; on a read it is not looked at. -/
  data : Word
  deriving DecidableEq, Repr

/-- Why a host transaction, or a command word, is no row of the table. -/
inductive DecodeError where
  /-- The address does not fit the 6-bit bus (R71). -/
  | addressTooWide (addr : Nat)
  /-- The command word is ILLEGAL (R108). -/
  | illegalCommand (w : Word)
  deriving DecidableEq, Repr

/-- The 7-bit selector `{rw, addr}` (R101) decoded with its data word (R102). Total: no selector is left without a
row. -/
def decodeBus (sel : BitVec 7) (data : Word) : Instr :=
  let addr := sel.extractLsb' 0 6
  if sel.getLsbD 6 then
    if addr = 0x02#6 then .wrCtrl data
    else if addr = 0x03#6 then .wrCmd data
    else if addr = 0x05#6 then .wrLocalId data
    else if addr = 0x07#6 then .wrTxdata data
    else .wrIgnored addr data
  else if addr = 0x0D#6 then .rdRxdata
  else if addr.toNat ≤ 0x1A then .rdReg addr
  else .rdReserved addr

/-- The selector of a transaction whose address fits the bus. -/
def HostTxn.selector (t : HostTxn) : BitVec 7 := BitVec.ofBool t.write ++ BitVec.ofNat 6 t.addr

/-- The BUS decoder on a host transaction. -/
def decodeTxn (t : HostTxn) : Except DecodeError Instr :=
  if t.addr < 64 then .ok (decodeBus t.selector t.data) else .error (.addressTooWide t.addr)

/-- The CMD decoder, rejecting by name. -/
def decodeCmd (w : Word) : Except DecodeError Instr :=
  match decodeCommand w with
  | some c => .ok c.toInstr
  | none => .error (.illegalCommand w)

/-! ## Words as spec/opcode_table.json numbers their bits

A CMD row is a 32-bit word. A BUS row is a selector of 7 bits, a byte with its top bit 0; the transaction's data word, to
which the table gives no bits, counts on above it in bits 39..8 (log entry 9). -/

/-- The host transaction that an instruction's bits stand for: a CMD word is written to CMD, address 0x03 (R103). Bit 7
of a selector byte is no bit of the bus, and makes an address that does not fit. -/
def txnOfTableWord (nbits w : Nat) : HostTxn :=
  if nbits = 32 then ⟨true, 0x03, BitVec.ofNat 32 w⟩
  else ⟨(w / 64) % 2 = 1, w % 64 + 64 * (w / 128 % 2), BitVec.ofNat 32 (w / 256)⟩

/-- The instruction the decoder reads from those bits. -/
def decodeTableWord (nbits w : Nat) : Option Instr :=
  if nbits = 32 then (decodeCmd (BitVec.ofNat 32 w)).toOption
  else if nbits = 7 ∨ nbits = 8 ∨ nbits = 40 then (decodeTxn (txnOfTableWord nbits w)).toOption
  else none

/-! ## The encoder -/

/-- `OPC` in bits [31:24] and a 24-bit operand (R103). -/
def cmdWord (opc : BitVec 8) (operand : BitVec 24) : Word := opc ++ operand

/-- The command word of a command, by the sub-formats of R104. -/
def Command.encode : Command → Word
  | .nop => cmdWord 0x00#8 0#24
  | .start => cmdWord 0x01#8 0#24
  | .txSend d => cmdWord 0x02#8 (d ++ 0#16)
  | .txClear => cmdWord 0x03#8 0#24
  | .rxPop => cmdWord 0x04#8 0#24
  | .clrStats => cmdWord 0x05#8 0#24
  | .toneRead s i => cmdWord 0x06#8 (0#7 ++ BitVec.ofBool s ++ i)

/-- The host transaction that performs an instruction: for a command, a write of CMD (R103). -/
def Instr.toTxn : Instr → HostTxn
  | .nop => ⟨true, 0x03, Command.nop.encode⟩
  | .start => ⟨true, 0x03, Command.start.encode⟩
  | .txSend d => ⟨true, 0x03, (Command.txSend d).encode⟩
  | .txClear => ⟨true, 0x03, Command.txClear.encode⟩
  | .rxPop => ⟨true, 0x03, Command.rxPop.encode⟩
  | .clrStats => ⟨true, 0x03, Command.clrStats.encode⟩
  | .toneRead s i => ⟨true, 0x03, (Command.toneRead s i).encode⟩
  | .rdReg a => ⟨false, a.toNat, 0#32⟩
  | .rdRxdata => ⟨false, 0x0D, 0#32⟩
  | .wrCtrl v => ⟨true, 0x02, v⟩
  | .wrCmd v => ⟨true, 0x03, v⟩
  | .wrLocalId v => ⟨true, 0x05, v⟩
  | .wrTxdata v => ⟨true, 0x07, v⟩
  | .wrIgnored a v => ⟨true, a.toNat, v⟩
  | .rdReserved a => ⟨false, a.toNat, 0#32⟩

/-- The selector byte and the data word above it, as one number of 40 bits. -/
def HostTxn.bits (t : HostTxn) : Nat := t.selector.toNat + 256 * t.data.toNat

/-- The words of an instruction: how many bits, and the bits, numbered as the opcode table numbers them. A command is
its 32-bit word, a bus transaction its 40 bits. -/
def encode (i : Instr) : Nat × Nat :=
  match i with
  | .nop | .start | .txSend _ | .txClear | .rxPop | .clrStats | .toneRead _ _ => (32, i.toTxn.data.toNat)
  | .rdReg _ | .rdRxdata | .wrCtrl _ | .wrCmd _ | .wrLocalId _ | .wrTxdata _ | .wrIgnored _ _ | .rdReserved _ =>
    (40, i.toTxn.bits)

end Sys2Proof
end

