-- ==== Sys2Proof/Machine/State.lean ====
section
/-! DEFINITION. The state of the block (R50, 10_state.md), its reset (R64), and how a step can stop. -/

namespace Sys2Proof.Machine

/-- The ERR codes that an access can write (R290). No access writes a reserved code, so ERR is one of these nine. -/
inductive ErrCode where
  | ok
  | alreadyInitialized
  | hardwareInit
  | queueFull
  | stageFull
  | rxEmpty
  | illegalCommand
  | badArgument
  | configLocked
  deriving DecidableEq, Repr

/-- The outcomes RX_LAST_EVT records (R47, R293). CAPTURE_DROP, 0x12, is never written to it. -/
inductive RxEvent where
  | delivered
  | checksumMismatch
  | deserializeError
  | rxqDrop
  deriving DecidableEq, Repr

/-- TxState, the framer's state (R55, R170). -/
inductive TxState where
  | idle
  | sendingPreamble
  | sendingPacket
  deriving DecidableEq, Repr

/-- RxState, the synchronizer's state (R58, R227). -/
inductive RxState where
  | searchingPreamble
  | receivingPacket
  deriving DecidableEq, Repr

/-- One step of one agent, with what the environment supplies to it (R8, R115, R338). -/
inductive Event where
  /-- One host bus transaction. -/
  | host (t : HostTxn)
  /-- `@PERIOD`: one AUDIO step (R151). `input` lists the words of its input buffer IN, `2*NBUF` of them, from word 0 on; a
  word it does not list is a draw (R14, log entry 8). -/
  | audio (input : List Word)
  /-- `@RX`: one RX step (R221). -/
  | rx
  /-- One bit of `@BITS`: fed straight to the synchronizer (R115, R227). -/
  | syncBit (b : Bool)
  /-- `@RESET`: the external reset (R320, R321). -/
  | reset
  deriving DecidableEq, Repr

/-- What a step shows outside the block (R338): the word a read returned, or the OUT buffer an AUDIO step emitted. -/
inductive Output where
  | silent
  | read (v : Word)
  | audio (buf : List Word)
  deriving DecidableEq, Repr

/-- The state record of R50, field by field, the configuration it runs under (R6), and the model's own view of the
environment (the last four fields). -/
structure State where
  /-- The configuration the block is built from; no step changes it (R6, R320). -/
  cfg : Config
  /-- START succeeded. -/
  started : Bool
  /-- START failed; sticky until reset. -/
  initFailed : Bool
  /-- CTRL.CAPTURE_EN. -/
  captureEn : Bool
  /-- CTRL.DEMOD_SEL: false the threshold demodulator, true the spectral one (R222). -/
  demodSel : Bool
  /-- ERR. -/
  err : ErrCode
  /-- LOCAL_ID. -/
  localId : Byte
  /-- FRAME_ID: the id of the next successful TX_SEND. -/
  frameId : Byte
  /-- The staging buffer (R57). -/
  stage : List Byte
  /-- The pending-transmit queue, head first (R56). -/
  txq : List (List Byte)
  /-- The framer's state (R55). -/
  txState : TxState
  /-- The framer's internal counter. -/
  txCounter : Nat
  /-- The frame being sent; empty in Idle. -/
  txFrame : List Byte
  /-- The last symbol published. -/
  lastSym : Bool
  /-- The symbol mailbox (R52). -/
  mbox : Option Bool
  /-- The symbol the driver last adopted (R53). -/
  curSym : Bool
  /-- The driver's phase index (R53). -/
  phase : Nat
  /-- The capture FIFO, head first (R54). -/
  capq : List (List Word)
  /-- The spectral window, oldest sample first (R59). -/
  win : List Word
  /-- The synchronizer's state (R58). -/
  rxState : RxState
  /-- The preamble match index. -/
  k : Nat
  /-- The completed bytes of the frame being received. -/
  rxBuf : List Byte
  /-- The byte being assembled. -/
  rxCur : Byte
  /-- How many bits `rxCur` holds. -/
  rxBitcnt : Nat
  /-- The delivery queue, head first (R63). -/
  rxq : List (List Byte)
  /-- The RX read buffer (R63). -/
  rdBuf : List Byte
  /-- How many of its bytes RXDATA has returned. -/
  rdPos : Nat
  /-- TONE_DATA. -/
  toneData : Word
  /-- BUF_COUNT. -/
  bufCount : Word
  /-- CKS_ERR_COUNT. -/
  cksErr : Word
  /-- DESER_ERR_COUNT. -/
  deserErr : Word
  /-- CAP_DROP_COUNT. -/
  capDrop : Word
  /-- RXQ_DROP_COUNT. -/
  rxqDrop : Word
  /-- TX_DONE_COUNT. -/
  txDone : Word
  /-- RX_OK_COUNT. -/
  rxOk : Word
  /-- RX_LAST_EVT. -/
  rxLastEvt : RxEvent
  /-- The model's own: the events that step next, first at the head (log entry 3). -/
  schedule : List Event
  /-- The model's own: AUDIO_OK where the environment has fixed it; else START draws it (R14, R251, log entry 4). -/
  audioOk : Option Bool
  /-- The model's own: how many free values have been drawn (log entry 5). -/
  draws : Nat
  /-- The model's own: what the last step showed outside (log entry 6). -/
  out : Output
  deriving DecidableEq, Repr

/-- The block has no fault state: "No access or step has an undefined outcome for a well-formed configuration" (R303).
So no step of the model faults, and the type says so. -/
inductive Fault where
  deriving DecidableEq, Repr

/-- Why the model has no meaning for something. None of these is an instruction of the opcode table. -/
inductive Refusal where
  /-- Raised by `exec` for an instruction that has no meaning yet; none is left. Safe. -/
  | notModelled (mnemonic : String)
  /-- Raised by `step` for a host transaction whose address cannot be expressed on the 6-bit bus: "A model whose host
  produces a wider address refuses the transaction" (R71). Safe. -/
  | busAddressTooWide (addr : Nat)
  /-- Raised by `launch` for a configuration that breaks R7: "it has no machine for it". Safe. -/
  | illFormedConfig
  deriving DecidableEq, Repr

/-- The outcome of a step of this machine. -/
abbrev Result := Host.Outcome State Fault Refusal

/-- The state after reset of a block built from `c`: the table of R64, field by field. The four fields of the
environment are the model's own (log entries 3 to 6). -/
def State.resetOf (c : Config) : State where
  cfg := c
  started := false
  initFailed := false
  captureEn := true
  demodSel := true
  err := .ok
  localId := 0x00#8
  frameId := 0x00#8
  stage := []
  txq := []
  txState := .idle
  txCounter := 0
  txFrame := []
  lastSym := false
  mbox := none
  curSym := false
  phase := 0
  capq := []
  win := []
  rxState := .searchingPreamble
  k := 0
  rxBuf := []
  rxCur := 0x00#8
  rxBitcnt := 0
  rxq := []
  rdBuf := []
  rdPos := 0
  toneData := 0#32
  bufCount := 0#32
  cksErr := 0#32
  deserErr := 0#32
  capDrop := 0#32
  rxqDrop := 0#32
  txDone := 0#32
  rxOk := 0#32
  rxLastEvt := .delivered
  schedule := []
  audioOk := none
  draws := 0
  out := .silent

/-- The machine right after reset (R320, R64), under the configuration `Config.built` (log entry 1). -/
def State.reset : State := State.resetOf Config.built

end Sys2Proof.Machine
end

