-- ==== Sys2Proof/Machine/Ops.lean ====
section
/-! DEFINITION. The shared operations over the state: reporting an error, answering a read, the FIFOs, the counters, and
the draws of free values. -/

namespace Sys2Proof.Machine

/-! ## Reporting (R11, R291, R292)

The block has no trap: an error is reported in place and the access completes (R302). `raise` is the whole of taking
one, and there is nothing to return from. -/

/-- `raise E`: write ERR and change nothing else (R291). What the access wrote before it stays written. -/
def State.raise (s : State) (e : ErrCode) : State := { s with err := e }

/-- The end of an access that writes ERR and succeeds: `st.err <- OK` (R292). -/
def State.succeed (s : State) : State := { s with err := .ok }

/-- A bus read returns `v` in its data word (R101). -/
def State.respond (s : State) (v : Word) : State := { s with out := .read v }

/-- `emit(OUT)`: the observable output of an AUDIO step (R11). -/
def State.emit (s : State) (buf : List Word) : State := { s with out := .audio buf }

/-! ## FIFOs (R11, R82) -/

/-- `push(Q, x)`: append at the tail. -/
def push {α : Type} (q : List α) (x : α) : List α := q ++ [x]

/-- `full(Q)`: `len(Q) = depth(Q)`. -/
def full {α : Type} (q : List α) (depth : Nat) : Bool := q.length == depth

/-! ## Free values

A draw applies a free constant to the counter and advances it, so that each draw is a value of its own (log entry 5). -/

/-- The next draw's number is used up. -/
def State.countDraw (s : State) : State := { s with draws := s.draws + 1 }

/-- AUDIO_OK as START samples it: what the environment fixed, or a draw (R14, R251). -/
def State.sampleAudioOk (s : State) : Bool × State :=
  match s.audioOk with
  | some b => (b, s)
  | none => (Config.audioOkDraw s.draws, s.countDraw)

/-- A bit the spec leaves to a draw (R225). -/
def State.drawBit (s : State) : Bool × State := (Config.bitDraw s.draws, s.countDraw)

/-- The input buffer of an AUDIO step: the words the event lists, and drawn ones from there to `2*NBUF` (R14, D44). -/
def State.completeInput (s : State) (input : List Word) : List Word × State :=
  if 2 * s.cfg.nbuf ≤ input.length then (input, s)
  else (input ++ (List.range' input.length (2 * s.cfg.nbuf - input.length)).map (Config.sampleDraw s.draws), s.countDraw)

/-! ## Reset (R320) -/

/-- RESET: every field of R50 takes its value of R64 and the configuration does not change. What the environment holds is
not the block's and stays (log entry 10). -/
def State.resetBlock (s : State) : State :=
  { State.resetOf s.cfg with schedule := s.schedule, audioOk := s.audioOk, draws := s.draws, out := s.out }

end Sys2Proof.Machine
end

