-- ==== Sys2Proof/Machine/Framer.lean ====
section
/-! DEFINITION. The transmit framer and bit serializer (42_tx_framer.md). -/

namespace Sys2Proof.Machine

/-- The bits of a byte in the order sent, bit 7 first (R75, R180). -/
def byteBits (b : Byte) : List Bool :=
  [b.getLsbD 7, b.getLsbD 6, b.getLsbD 5, b.getLsbD 4, b.getLsbD 3, b.getLsbD 2, b.getLsbD 1, b.getLsbD 0]

/-- `BITBUF(frame)` (R180): byte 0 first, each byte most significant bit first. -/
def bitbuf (frame : List Byte) : List Bool := frame.flatMap byteBits

/-- The symbol the tick selects, from the bit source of the framer's state (R170). -/
def framerSymbol (s : State) : Bool :=
  match s.txState with
  | .idle => s.lastSym
  | .sendingPreamble => s.cfg.preamble.getD s.txCounter false
  | .sendingPacket => (bitbuf s.txFrame).getD s.txCounter false

/-- The framer's transition (R171-R174), the publication apart. -/
def framerAdvance (s : State) : State :=
  match s.txState with
  | .idle =>
    match s.txq with
    | [] => s
    | frame :: rest => { s with txq := rest, txFrame := frame, txCounter := 0, txState := .sendingPreamble }
  | .sendingPreamble =>
    if s.txCounter + 1 = s.cfg.preambleLen then { s with txCounter := 0, txState := .sendingPacket }
    else { s with txCounter := s.txCounter + 1 }
  | .sendingPacket =>
    if s.txCounter + 1 = 8 * s.txFrame.length then
      { s with txCounter := 0, txFrame := [], txState := .idle, txDone := s.txDone + 1 }
    else { s with txCounter := s.txCounter + 1 }

/-- FRAMER_TICK (R171): the symbol selected before the transition is published, overwriting the mailbox (R175). -/
def framerTick (s : State) : State :=
  { framerAdvance s with lastSym := framerSymbol s, mbox := some (framerSymbol s) }

end Sys2Proof.Machine
end

