-- ==== Sys2Proof/Machine/Float.lean ====
section
/-! DEFINITION. IEEE 754 binary32 bit patterns (R10, R76): bit 31 the sign, bits [30:23] the biased exponent, bits [22:0]
the fraction. Values are exact integers, in units of `2^-149`, the smallest binary32 step. -/

namespace Sys2Proof.Machine

/-- The unit in which `f32Scaled` counts: a finite value is `f32Scaled w / f32Unit`. -/
def f32Unit : Nat := 2 ^ 149

/-- The exponent field. -/
def f32Exp (n : Nat) : Nat := n / 2 ^ 23 % 256

/-- The magnitude, in units of `2^-149`, of the pattern `n` taken without its sign bit. -/
def f32Mag (n : Nat) : Nat :=
  if f32Exp n = 0 then n % 2 ^ 23 else (2 ^ 23 + n % 2 ^ 23) * 2 ^ (f32Exp n - 1)

/-- A word that is neither infinite nor NaN. -/
def f32Finite (w : Word) : Bool := f32Exp w.toNat != 255

/-- The value of a finite word in units of `2^-149`. -/
def f32Scaled (w : Word) : Int :=
  if w.getLsbD 31 then -(f32Mag w.toNat : Int) else (f32Mag w.toNat : Int)

end Sys2Proof.Machine
end

