-- ==== Sys2Proof/Machine/Trig.lean ====
section
/-! DEFINITION. Exact comparison of rational numbers with cosines of rational angles, in integers.

The tone ROM (R131) and the spectral decision (R225 with tolerance 0) are exact statements about real sines and cosines.
They are computed here without any approximation: for `-1 < c < 1` let `c = cos φ` with `0 < φ < π`. The sequence
`u n = sin (n φ) / sin φ` satisfies `u (n+1) = 2 c u n - u (n-1)`, and the number of multiples of `π` up to `n φ` goes up
by one exactly when `u` leaves its sign. So `⌊N φ / π⌋` is counted in integers, and `c ≤ cos (2 π a / N)` holds exactly
when that count is at least `2 a`.
-/

namespace Sys2Proof.Machine

/-- Counts half turns: `prev` and `cur` are the last two terms of the sequence, scaled by powers of the denominator, and
`j` is the count so far. -/
def halfTurnsLoop (twoNum denSq : Int) : Nat → Int → Int → Nat → Nat
  | 0, _, _, j => j
  | n + 1, prev, cur, j =>
    let next := twoNum * cur - denSq * prev
    let signed := if j % 2 = 0 then next else -next
    if signed ≤ 0 then halfTurnsLoop twoNum denSq n cur next (j + 1)
    else halfTurnsLoop twoNum denSq n cur next j

/-- `⌊N φ / π⌋` for `cos φ = num / den`, where `-den < num < den` and `1 ≤ N`. -/
def halfTurns (num den : Int) (N : Nat) : Nat := halfTurnsLoop (2 * num) (den * den) (N - 1) 0 1 0

/-- `num / den ≤ cos (2 π a / N)`, for `0 < den`, `0 < N` and `2 a ≤ N`. Fractions are reduced first, which changes no
answer and keeps the integers small. -/
def leCos (num : Int) (den N a : Nat) : Bool :=
  if num ≤ -(den : Int) then true
  else if (den : Int) ≤ num then num == (den : Int) && a == 0
  else
    let g := Nat.gcd num.natAbs den
    let h := Nat.gcd a N
    2 * (a / h) ≤ halfTurns (num / (g : Int)) ((den / g : Nat) : Int) (N / h)

/-- Bits `bits - 1` down to `0` of the largest `m` in `[base, base + 2^bits)` with `m / den ≤ cos (2 π a / N)`, given that
`base` has it. -/
def floorCosFrom (den N a : Nat) : Nat → Int → Int
  | 0, base => base
  | bits + 1, base =>
    if leCos (base + 2 ^ bits) den N a then floorCosFrom den N a bits (base + 2 ^ bits)
    else floorCosFrom den N a bits base

/-- The largest `m < 2^p` with `m / 2^p ≤ cos (2 π a / N)`; the cosine is then at most `(m + 1) / 2^p`. -/
def floorCos (p N a : Nat) : Int := floorCosFrom (2 ^ p) N a (p + 1) (-(2 ^ p))

end Sys2Proof.Machine
end

