-- ==== Sys2Proof/Machine/Tone.lean ====
section
/-! DEFINITION. The tone ROM (40_tone_table.md): `ROM[s][t] = rne32(sin(2 pi F_s t / R))` (R131), computed exactly.

The argument is the fraction `(F_s t mod R) / R` of a cycle. The ROM is a function of the configuration: no operation
writes it and reset does not change it (R51, R135).
-/

namespace Sys2Proof.Machine

/-- Bits `bits - 1` down to `0` of the largest pattern in `[base, base + 2^bits)` whose value is at most
`cos (2 π a / N)`. Positive binary32 patterns are ordered as their values are. -/
def floorF32From (N a : Nat) : Nat → Nat → Nat
  | 0, base => base
  | bits + 1, base =>
    if leCos (f32Mag (base + 2 ^ bits) : Int) f32Unit N a then floorF32From N a bits (base + 2 ^ bits)
    else floorF32From N a bits base

/-- The binary32 pattern nearest to `cos (2 π a / N)`, for `0 ≤ cos (2 π a / N)`. A tie cannot arise: a rational cosine of
a rational angle in `[0, 1]` is 0, 1/2 or 1, each a binary32 value (log entry 11). -/
def nearestF32 (N a : Nat) : Nat :=
  let below := floorF32From N a 30 0
  if leCos ((f32Mag below + f32Mag (below + 1) : Nat) : Int) (2 * f32Unit) N a then below + 1 else below

/-- The bits `sin (2 π k / R)` rounds to, for `k < R`: the sine of the second half cycle is that of the first, negated,
and `sin (2 π k / R) = cos (2 π |R - 4 k| / (4 R))`. -/
def nearestSine (k R : Nat) : Word :=
  let folded := if R < 2 * k then R - k else k
  let magnitude := nearestF32 (4 * R) ((R : Int) - 4 * (folded : Int)).natAbs
  if R < 2 * k then 0x80000000#32 ||| BitVec.ofNat 32 magnitude else BitVec.ofNat 32 magnitude

/-- `ROM[sym][t]` (R131). -/
def romWord (c : Config) (sym : Bool) (t : Nat) : Word :=
  nearestSine (c.freq sym * t % c.sampleRate) c.sampleRate

end Sys2Proof.Machine
end

