-- ==== Sys2Proof/Machine/Audio.lean ====
section
/-! DEFINITION. The duplex audio driver and symbol-to-sample mapper (41_audio_driver.md). -/

namespace Sys2Proof.Machine

/-- Channel 0 of an input buffer: the words at even indices (R76, R152). -/
def channel0 (nbuf : Nat) (input : List Word) : List Word :=
  (List.range nbuf).map fun i => input.getD (2 * i) 0#32

/-- CAPTURE(IN) (R152): copy channel 0 into the capture FIFO, or drop and count it when the FIFO is full. -/
def capture (input : List Word) (s : State) : State :=
  if s.captureEn then
    if s.capq.length < s.cfg.capqDepth then { s with capq := push s.capq (channel0 s.cfg.nbuf input) }
    else { s with capDrop := s.capDrop + 1 }
  else s

/-- ADOPT() (R154): take the mailbox's symbol if it holds one, and empty it. -/
def adopt (s : State) : State :=
  match s.mbox with
  | some sym => { s with curSym := sym, mbox := none }
  | none => s

/-- `n` samples of a symbol's table from a phase index, each on both channels, and the phase index after them (R153). -/
def synthFrom (c : Config) (sym : Bool) : Nat → Nat → List Word × Nat
  | 0, phase => ([], phase)
  | n + 1, phase =>
    let v := romWord c sym phase
    let rest := synthFrom c sym n ((phase + 1) % c.tableLen)
    (v :: v :: rest.1, rest.2)

/-- SYNTH() and `emit(OUT)` (R151, R153). -/
def synth (s : State) : State :=
  let played := synthFrom s.cfg s.curSym s.cfg.nbuf s.phase
  { s with phase := played.2 }.emit played.1

/-- AUDIO_STEP(IN) (R151), for a started block. -/
def audioStep (input : List Word) (s : State) : State :=
  let played := synth (adopt (capture input s))
  framerTick { played with bufCount := played.bufCount + 1 }

end Sys2Proof.Machine
end

