-- ==== Sys2Proof/Machine/Codec.lean ====
section
/-! DEFINITION. The packet codec (43_packet_codec.md): the XOR fold, encode, decode and the text check. -/

namespace Sys2Proof.Machine

/-- `xorfold(s)` (R191). -/
def xorfold (s : List Byte) : Byte := s.foldl (· ^^^ ·) 0x00#8

/-- `encode(to, from, id, payload)` (R193): header, payload, and the checksum that makes the fold 0 (R192). -/
def encodeFrame (dest src id : Byte) (payload : List Byte) : List Byte :=
  let body := [dest, src, id, BitVec.ofNat 8 payload.length] ++ payload
  body ++ [xorfold body]

/-- The continuation ranges that must follow a byte that starts a character (R196); `none` for a byte that starts none. -/
def utf8Follow (b : Byte) : Option (List (Nat × Nat)) :=
  let n := b.toNat
  if n ≤ 0x7F then some []
  else if n < 0xC2 then none
  else if n ≤ 0xDF then some [(0x80, 0xBF)]
  else if n = 0xE0 then some [(0xA0, 0xBF), (0x80, 0xBF)]
  else if n = 0xED then some [(0x80, 0x9F), (0x80, 0xBF)]
  else if n ≤ 0xEF then some [(0x80, 0xBF), (0x80, 0xBF)]
  else if n = 0xF0 then some [(0x90, 0xBF), (0x80, 0xBF), (0x80, 0xBF)]
  else if n ≤ 0xF3 then some [(0x80, 0xBF), (0x80, 0xBF), (0x80, 0xBF)]
  else if n = 0xF4 then some [(0x80, 0x8F), (0x80, 0xBF), (0x80, 0xBF)]
  else none

/-- Whether the bytes complete the character whose remaining ranges are `pending`, and then split into whole characters. -/
def utf8From : List (Nat × Nat) → List Byte → Bool
  | pending, [] => pending.isEmpty
  | [], b :: rest =>
    match utf8Follow b with
    | some ranges => utf8From ranges rest
    | none => false
  | (lo, hi) :: pending, b :: rest => (lo ≤ b.toNat && b.toNat ≤ hi) && utf8From pending rest

/-- UTF-8 well-formedness, the default `TEXT_VALID` (R196). -/
def utf8Valid (payload : List Byte) : Bool := utf8From [] payload

/-- `TEXT_VALID` of the configuration (R6, R196). -/
def textValid (c : Config) (payload : List Byte) : Bool :=
  match c.textRule with
  | .utf8 => utf8Valid payload
  | .other id => Config.otherTextValid id payload

/-- A Packet (R190). -/
structure Packet where
  dest : Byte
  src : Byte
  id : Byte
  payloadLen : Byte
  payload : List Byte
  checksum : Byte
  deriving DecidableEq, Repr

/-- The three results of decode (R194). -/
inductive DecodeResult where
  | checksumMismatch
  | deserializeError
  | packet (p : Packet)
  deriving DecidableEq, Repr

/-- `decode(b)` (R194): the fold, then the length, then the text (R195, R298). -/
def decodeFrame (c : Config) (b : List Byte) : DecodeResult :=
  if xorfold b ≠ 0x00#8 then .checksumMismatch
  else
    match b with
    | dest :: src :: id :: len :: rest =>
      if rest.length ≠ 1 + len.toNat then .deserializeError
      else if !textValid c (rest.take len.toNat) then .deserializeError
      else .packet ⟨dest, src, id, len, rest.take len.toNat, rest.getD len.toNat 0#8⟩
    | _ => .deserializeError

end Sys2Proof.Machine
end

