-- ==== Sys2Proof/Machine/Commands.lean ====
section
/-! DEFINITION. The commands: what each CMD word does (45_host_commands.md section 1, R200, R134). -/

namespace Sys2Proof.Machine

/-- NOP (R256). -/
def execNop (s : State) : Result := .next s.succeed

/-- START (R250): a second START, also after a failed one, reports ALREADY_INITIALIZED and samples nothing (C6). -/
def execStart (s : State) : Result :=
  .next <|
    if s.started || s.initFailed then s.raise .alreadyInitialized
    else if s.sampleAudioOk.1 then { s.sampleAudioOk.2 with started := true }.succeed
    else { s.sampleAudioOk.2 with initFailed := true }.raise .hardwareInit

/-- TX_SEND DEST (R200). -/
def execTxSend (dest : Byte) (s : State) : Result :=
  .next <|
    if full s.txq s.cfg.txqDepth then s.raise .queueFull
    else
      { s with
        txq := push s.txq (encodeFrame dest s.localId s.frameId s.stage)
        frameId := s.frameId + 1
        stage := [] }.succeed

/-- TX_CLEAR (R257). -/
def execTxClear (s : State) : Result := .next { s with stage := [] }.succeed

/-- RX_POP (R255). -/
def execRxPop (s : State) : Result :=
  .next <|
    match s.rxq with
    | [] => { s with rdBuf := [], rdPos := 0 }.raise .rxEmpty
    | payload :: rest => { s with rxq := rest, rdBuf := payload, rdPos := 0 }.succeed

/-- CLR_STATS (R258). BUF_COUNT is not cleared. -/
def execClrStats (s : State) : Result :=
  .next
    { s with
      cksErr := 0
      deserErr := 0
      capDrop := 0
      rxqDrop := 0
      txDone := 0
      rxOk := 0
      rxLastEvt := .delivered }.succeed

/-- TONE_READ SYM, INDEX (R134). -/
def execToneRead (sym : Bool) (index : BitVec 16) (s : State) : Result :=
  .next <|
    if s.cfg.tableLen ≤ index.toNat then s.raise .badArgument
    else { s with toneData := romWord s.cfg sym index.toNat }.succeed

end Sys2Proof.Machine
end

