-- ==== Sys2Proof/Machine/Flags.lean ====
section
/-! DEFINITION. The status bits and the codes (R22, R25, R47, R62, R290, R293): the block has no other flags. -/

namespace Sys2Proof.Machine

/-- The code of an ERR name (R290). -/
def ErrCode.code : ErrCode → Byte
  | .ok => 0x00#8
  | .alreadyInitialized => 0x01#8
  | .hardwareInit => 0x02#8
  | .queueFull => 0x03#8
  | .stageFull => 0x04#8
  | .rxEmpty => 0x05#8
  | .illegalCommand => 0x06#8
  | .badArgument => 0x07#8
  | .configLocked => 0x09#8

/-- The code of a receive event (R47, R293). -/
def RxEvent.code : RxEvent → Byte
  | .delivered => 0x00#8
  | .checksumMismatch => 0x10#8
  | .deserializeError => 0x11#8
  | .rxqDrop => 0x13#8

/-- STATUS.TX_STATE (R22); 3 never occurs. -/
def TxState.code : TxState → BitVec 2
  | .idle => 0#2
  | .sendingPreamble => 1#2
  | .sendingPacket => 2#2

/-- STATUS.RX_STATE (R22). -/
def RxState.code : RxState → BitVec 1
  | .searchingPreamble => 0#1
  | .receivingPacket => 1#1

/-- STATUS (R22), from bit 31 down to bit 0. -/
def statusWord (s : State) : Word :=
  0#21
    ++ BitVec.ofBool (s.stage.length == 255)
    ++ BitVec.ofBool (s.txq.length == s.cfg.txqDepth)
    ++ BitVec.ofBool (!s.rxq.isEmpty)
    ++ BitVec.ofBool s.lastSym
    ++ BitVec.ofBool s.curSym
    ++ BitVec.ofBool s.mbox.isSome
    ++ s.rxState.code
    ++ s.txState.code
    ++ BitVec.ofBool s.initFailed
    ++ BitVec.ofBool s.started

/-- CTRL (R23), from bit 31 down to bit 0. -/
def ctrlWord (s : State) : Word := 0#30 ++ BitVec.ofBool s.demodSel ++ BitVec.ofBool s.captureEn

end Sys2Proof.Machine
end

