-- ==== Sys2Proof/Machine/Operands.lean ====
section
/-! DEFINITION. The operands of bus transactions: the fields of a written data word (R105) and the value each address
reads as (R20-R49). There is one addressing mode, an absolute word address (R71). -/

namespace Sys2Proof.Machine

/-- The byte of a TXDATA or LOCAL_ID write: `v[7:0]`; the other bits are ignored (R105, R49). -/
def byteField (v : Word) : Byte := v.extractLsb' 0 8

/-- `CAPTURE_EN = v[0]` of a CTRL write (R105). -/
def captureEnField (v : Word) : Bool := v.getLsbD 0

/-- `DEMOD_SEL = v[1]` of a CTRL write (R105). -/
def demodSelField (v : Word) : Bool := v.getLsbD 1

/-- Whether RXDATA has been read to the end (R254). -/
def rxdataAtEnd (s : State) : Bool := s.rdPos == s.rdBuf.length

/-- What a read of RXDATA returns (R34, R254): the next byte of the read buffer zero-extended, or 0 past the end. -/
def rxdataView (s : State) : Word :=
  if rxdataAtEnd s then 0#32 else (s.rdBuf.getD s.rdPos 0#8).setWidth 32

/-- A length shown in the low `n` bits of a register (R29-R33, R39). -/
def lengthField (n len : Nat) : Word := (BitVec.ofNat n len).setWidth 32

/-- RX_BYTES (R39). -/
def rxBytesWord (s : State) : Word := 0#12 ++ BitVec.ofNat 4 s.rxBitcnt ++ BitVec.ofNat 16 s.rxBuf.length

/-- The value of the register at a word address, by the map of R20; a WO register and a reserved address read 0. -/
def regRead (s : State) (addr : BitVec 6) : Word :=
  match addr.toNat with
  | 0x00 => 0x46534B31#32
  | 0x01 => statusWord s
  | 0x02 => ctrlWord s
  | 0x03 => 0#32
  | 0x04 => s.err.code.setWidth 32
  | 0x05 => s.localId.setWidth 32
  | 0x06 => s.frameId.setWidth 32
  | 0x07 => 0#32
  | 0x08 => lengthField 9 s.stage.length
  | 0x09 => lengthField 16 s.txq.length
  | 0x0A => lengthField 16 s.rxq.length
  | 0x0B => lengthField 9 s.rdBuf.length
  | 0x0C => lengthField 9 (s.rdBuf.length - s.rdPos)
  | 0x0D => rxdataView s
  | 0x0E => s.toneData
  | 0x0F => BitVec.ofNat 32 s.txCounter
  | 0x10 => BitVec.ofNat 32 s.phase
  | 0x11 => BitVec.ofNat 32 s.k
  | 0x12 => rxBytesWord s
  | 0x13 => s.bufCount
  | 0x14 => s.cksErr
  | 0x15 => s.deserErr
  | 0x16 => s.capDrop
  | 0x17 => s.rxqDrop
  | 0x18 => s.txDone
  | 0x19 => s.rxOk
  | 0x1A => s.rxLastEvt.code.setWidth 32
  | _ => 0#32

end Sys2Proof.Machine
end

