-- ==== Sys2Proof/Machine/Bus.lean ====
section
/-! DEFINITION. The bus transactions: register writes and reads (45_host_commands.md sections 2 and 3). -/

namespace Sys2Proof.Machine

/-- RD_REG (R264): returns the register's value; no side effect, ERR not written. -/
def execRdReg (addr : BitVec 6) (s : State) : Result := .next (s.respond (regRead s addr))

/-- RD_RXDATA (R254): returns the next byte and advances, or returns 0 and reports RX_EMPTY. -/
def execRdRxdata (s : State) : Result :=
  .next <|
    if rxdataAtEnd s then (s.raise .rxEmpty).respond 0#32
    else ({ s with rdPos := s.rdPos + 1 }.succeed).respond (rxdataView s)

/-- WR_CTRL (R252): CAPTURE_EN is applied before the check of DEMOD_SEL. -/
def execWrCtrl (v : Word) (s : State) : Result :=
  .next <|
    if s.started && demodSelField v != s.demodSel then { s with captureEn := captureEnField v }.raise .configLocked
    else { s with captureEn := captureEnField v, demodSel := demodSelField v }.succeed

/-- WR_CMD (R103): the data word runs as a command, or is ILLEGAL, which is decided before any operand is looked at
(R108, R297). -/
def execWrCmd (v : Word) (s : State) : Result :=
  match decodeCommand v with
  | some .nop => execNop s
  | some .start => execStart s
  | some (.txSend dest) => execTxSend dest s
  | some .txClear => execTxClear s
  | some .rxPop => execRxPop s
  | some .clrStats => execClrStats s
  | some (.toneRead sym index) => execToneRead sym index s
  | none => .next (s.raise .illegalCommand)

/-- WR_LOCAL_ID (R260). ERR is not written. -/
def execWrLocalId (v : Word) (s : State) : Result := .next { s with localId := byteField v }

/-- WR_TXDATA (R253). -/
def execWrTxdata (v : Word) (s : State) : Result :=
  .next <|
    if s.stage.length = 255 then s.raise .stageFull
    else { s with stage := push s.stage (byteField v) }.succeed

/-- WR_IGNORED (R261): no state changes, ERR included. -/
def execWrIgnored (_addr : BitVec 6) (_v : Word) (s : State) : Result := .next s

/-- RD_RESERVED (R48): returns 0. -/
def execRdReserved (_addr : BitVec 6) (s : State) : Result := .next (s.respond 0#32)

end Sys2Proof.Machine
end

