-- ==== Sys2Proof/Machine/Dispatch.lean ====
section
/-! DEFINITION. The one dispatch from an instruction to its meaning. -/

namespace Sys2Proof.Machine

/-- Runs an instruction. -/
def exec (i : Instr) (s : State) : Host.Outcome State Fault Refusal :=
  match i with
  | .nop => Sys2Proof.Machine.execNop s
  | .start => Sys2Proof.Machine.execStart s
  | .txSend dest => Sys2Proof.Machine.execTxSend dest s
  | .txClear => Sys2Proof.Machine.execTxClear s
  | .rxPop => Sys2Proof.Machine.execRxPop s
  | .clrStats => Sys2Proof.Machine.execClrStats s
  | .toneRead sym index => Sys2Proof.Machine.execToneRead sym index s
  | .rdReg addr => Sys2Proof.Machine.execRdReg addr s
  | .rdRxdata => Sys2Proof.Machine.execRdRxdata s
  | .wrCtrl v => Sys2Proof.Machine.execWrCtrl v s
  | .wrCmd v => Sys2Proof.Machine.execWrCmd v s
  | .wrLocalId v => Sys2Proof.Machine.execWrLocalId v s
  | .wrTxdata v => Sys2Proof.Machine.execWrTxdata v s
  | .wrIgnored addr v => Sys2Proof.Machine.execWrIgnored addr v s
  | .rdReserved addr => Sys2Proof.Machine.execRdReserved addr s

end Sys2Proof.Machine
end

