-- ==== Sys2Proof/Machine/Spectral.lean ====
section
/-! DEFINITION. The spectral demodulator (44_rx_sync_demod.md, section 2): the window, and DECIDE computed exactly.

With `x` in units of `2^-149`, the energy of R224 is `E_s = sum_d r_d cos (2 π F_s d / R)`, where `r_0 = sum x_n^2` and
`r_d = 2 sum x_n x_{n+d}`. So each comparison of R225 asks for the sign of an integer combination of cosines
`cos (2 π k / N)`. Zero is recognised exactly, by polynomials modulo `X^N - 1`; a sign is read off bounds of the cosines,
refined until they are apart.
-/

namespace Sys2Proof.Machine

/-- The sign of a real number, as far as the bounds tell. -/
inductive Sign where
  | positive
  | zero
  | negative
  | unresolved
  deriving DecidableEq, Repr

/-! ## Integer combinations of `cos (2 π k / N)`: the list's entry `k` is the coefficient of index `k` -/

/-- Times `X^-m` modulo `X^N - 1`. -/
def rotateBy (m : Nat) (p : List Int) : List Int := p.drop m ++ p.take m

/-- Times `X^-m - 1` modulo `X^N - 1`. -/
def timesRootFactor (m : Nat) (p : List Int) : List Int := List.zipWith (· - ·) (rotateBy m p) p

/-- The indices `N / q` for the divisors `q > 1` of `N`. The product of the `X^(N/q) - 1` vanishes at every `N`-th root of
unity that is not primitive, and at no primitive one. -/
def properIndices (N : Nat) : List Nat := ((List.range (N + 1)).filter fun q => 2 ≤ q && N % q == 0).map (N / ·)

/-- Whether a polynomial modulo `X^N - 1` vanishes at `exp (2 π i / N)`: exactly when its product with those factors is
0 (log entry 12). -/
def vanishesAtRoot (N : Nat) (p : List Int) : Bool :=
  ((properIndices N).foldl (fun q m => timesRootFactor m q) p).all (· == 0)

/-- Twice the combination of cosines is the value at `exp (2 π i / N)` of this polynomial: the coefficients of `k` and
`N - k` added. -/
def symmetrized (p : List Int) : List Int :=
  List.zipWith (· + ·) p (p.take 1 ++ (p.drop 1).reverse)

/-- Bounds of a combination of cosines, times `2^prec`: from `m ≤ 2^prec cos ≤ m + 1` for each index. -/
def boundsAt (prec N : Nat) (p : List Int) : Int × Int :=
  (p.zipIdx).foldl (fun acc ck =>
    if ck.1 = 0 then acc
    else
      let m := floorCos prec N (min ck.2 (N - ck.2))
      if 0 < ck.1 then (acc.1 + ck.1 * m, acc.2 + ck.1 * (m + 1))
      else (acc.1 + ck.1 * (m + 1), acc.2 + ck.1 * m)) (0, 0)

/-- The sign of a combination, from bounds at `prec` bits, doubled until they are apart from 0 or `fuel` is used up. -/
def signFrom (N : Nat) (p : List Int) : Nat → Nat → Sign
  | 0, _ => .unresolved
  | fuel + 1, prec =>
    let b := boundsAt prec N p
    if 0 < b.1 then .positive
    else if b.2 < 0 then .negative
    else signFrom N p fuel (2 * prec)

/-- Doublings of the precision that are enough: a combination that is not 0 is at least `B^-N`, where `B` is twice the sum
of its coefficients' sizes (log entry 12). -/
def doublingsEnough (N : Nat) (p : List Int) : Nat :=
  Nat.log2 ((N + 2) * (Nat.log2 (p.foldl (fun a c => a + c.natAbs) 0) + 3)) + 1

/-- The sign of a combination of cosines. -/
def cosineSign (N : Nat) (p : List Int) : Sign :=
  if vanishesAtRoot N (symmetrized p) then .zero else signFrom N p (doublingsEnough N p) 32

/-! ## Energies (R224) -/

/-- `sum x_n x_{n+d}`. -/
def lagProduct (x : List Int) (d : Nat) : Int := (List.zipWith (· * ·) x (x.drop d)).foldl (· + ·) 0

/-- The `r_d` of the window. -/
def lags (x : List Int) : List Int :=
  (List.range x.length).map fun d => if d = 0 then lagProduct x 0 else 2 * lagProduct x d

/-- The coefficients, by index modulo `N`, of `sum_d r_d cos (2 π f d / N)`. -/
def energyCoeffs (N f : Nat) (r : List Int) : List Int :=
  (List.range N).map fun k => r.zipIdx.foldl (fun acc rd => if f * rd.2 % N = k then acc + rd.1 else acc) 0

/-- The coefficients of `(den - num) E_a - (den + num) E_b`: positive exactly when `E_a - E_b > delta (E_a + E_b)`. -/
def marginCoeffs (num den : Nat) (ea eb : List Int) : List Int :=
  List.zipWith (fun a b => ((den : Int) - num) * a - ((den : Int) + num) * b) ea eb

/-! ## DECIDE (R225) -/

/-- What R225 requires of the decision: one bit, or nothing (a draw). -/
inductive Decision where
  | symbol (b : Bool)
  | draw
  deriving DecidableEq, Repr

/-- DECIDE(x) (R225), up to the draw. Angles are fractions of `R / g`, `g` the greatest common divisor of the two
frequencies and `R`. -/
def decideWindow (c : Config) (x : List Word) : Decision :=
  if x.all f32Finite then
    let g := Nat.gcd (Nat.gcd c.freqA c.freqB) c.sampleRate
    let N := c.sampleRate / g
    let r := lags (x.map f32Scaled)
    let e0 := energyCoeffs N (c.freqA / g) r
    let e1 := energyCoeffs N (c.freqB / g) r
    match cosineSign N (marginCoeffs c.tolNum c.tolDen e1 e0) with
    | .positive => .symbol true
    | .unresolved => .draw
    | m1 =>
      match cosineSign N (marginCoeffs c.tolNum c.tolDen e0 e1) with
      | .positive => .symbol false
      | .unresolved => .draw
      | _ => if c.tolNum = 0 ∧ m1 = .zero then .symbol false else .draw
  else .draw

/-- The window after a capture (R223): append the newest, discard the oldest buffer when longer than `W`. -/
def slideWindow (c : Config) (win cap : List Word) : List Word :=
  if c.winLen < (win ++ cap).length then (win ++ cap).drop c.nbuf else win ++ cap

/-- SPECTRAL(cap) (R223): a bit once the window is full, with a draw where R225 leaves it open. -/
def spectral (cap : List Word) (s : State) : Option Bool × State :=
  let s1 := { s with win := slideWindow s.cfg s.win cap }
  if s1.win.length = s1.cfg.winLen then
    match decideWindow s1.cfg s1.win with
    | .symbol b => (some b, s1)
    | .draw => (some s1.drawBit.1, s1.drawBit.2)
  else (none, s1)

end Sys2Proof.Machine
end

