-- ==== Sys2Proof/Machine/Sync.lean ====
section
/-! DEFINITION. The bit and byte synchronizer with its preamble detector (44_rx_sync_demod.md, sections 4 and 5). -/

namespace Sys2Proof.Machine

/-! ## The preamble detector (R231) -/

/-- Whether the first `j` bits of the pattern are the last `j` of its first `n` bits. -/
def isBorder (pattern : List Bool) (n j : Nat) : Bool := pattern.take j == (pattern.take n).drop (n - j)

/-- The largest border shorter than `j`, searched downwards. -/
def largestBorder (pattern : List Bool) (n : Nat) : Nat → Nat
  | 0 => 0
  | j + 1 => if isBorder pattern n j then j else largestBorder pattern n j

/-- `FAIL[i]` (R231): the largest `j < i+1` with `PREAMBLE[0..j) = PREAMBLE[i+1-j .. i+1)`. -/
def failure (pattern : List Bool) (i : Nat) : Nat := largestBorder pattern (i + 1) (i + 1)

/-- The loop of MATCH_STEP: fall back along the failure function until the next bit of the pattern is `b` or `k` is 0.
Each turn makes `k` smaller, so `fuel = k` turns are enough. -/
def fallBack (pattern : List Bool) (b : Bool) : Nat → Nat → Nat
  | 0, k => k
  | fuel + 1, k =>
    if 0 < k ∧ pattern.getD k false ≠ b then fallBack pattern b fuel (failure pattern (k - 1)) else k

/-- `MATCH_STEP(k, b)` (R231), the failure-function matcher (C4). -/
def matchStep (pattern : List Bool) (k : Nat) (b : Bool) : Nat :=
  let k' := fallBack pattern b k k
  if pattern.getD k' false = b then k' + 1 else k'

/-! ## The frame's end (R230) -/

/-- FRAME_DONE's verdict on the received bytes: the counters, RX_LAST_EVT and the delivery queue (R230, R298). -/
def judgeFrame (s : State) : State :=
  match decodeFrame s.cfg s.rxBuf with
  | .checksumMismatch => { s with cksErr := s.cksErr + 1, rxLastEvt := .checksumMismatch }
  | .deserializeError => { s with deserErr := s.deserErr + 1, rxLastEvt := .deserializeError }
  | .packet p =>
    if full s.rxq s.cfg.rxqDepth then { s with rxqDrop := s.rxqDrop + 1, rxLastEvt := .rxqDrop }
    else { s with rxq := push s.rxq p.payload, rxOk := s.rxOk + 1, rxLastEvt := .delivered }

/-- FRAME_DONE() (R230): the verdict, then back to SearchingPreamble with everything cleared (D25). -/
def frameDone (s : State) : State :=
  { judgeFrame s with rxState := .searchingPreamble, k := 0, rxBuf := [], rxCur := 0x00#8, rxBitcnt := 0 }

/-! ## Byte assembly (R228) -/

/-- Whether the receive buffer holds a whole frame: the header, and the length it declares (R228, R229). -/
def frameComplete (buf : List Byte) : Bool := 4 ≤ buf.length && buf.length == 5 + (buf.getD 3 0#8).toNat

/-- `((rx_cur << 1) | b) & 0xFF` (R228). -/
def shiftIn (cur : Byte) (b : Bool) : Byte := cur.extractLsb' 0 7 ++ BitVec.ofBool b

/-- ASSEMBLE(b) (R228): bits into bytes, most significant first, and the frame's end. -/
def assemble (b : Bool) (s : State) : State :=
  let cur := shiftIn s.rxCur b
  if s.rxBitcnt + 1 = 8 then
    let s1 := { s with rxBuf := s.rxBuf ++ [cur], rxCur := 0x00#8, rxBitcnt := 0 }
    if frameComplete s1.rxBuf then frameDone s1 else s1
  else { s with rxCur := cur, rxBitcnt := s.rxBitcnt + 1 }

/-! ## The state machine (R227) -/

/-- SYNC_BIT(b) (R227). -/
def syncBit (b : Bool) (s : State) : State :=
  match s.rxState with
  | .searchingPreamble =>
    let k := matchStep s.cfg.preamble s.k b
    if k = s.cfg.preambleLen then
      { s with rxState := .receivingPacket, k := 0, rxBuf := [], rxCur := 0x00#8, rxBitcnt := 0 }
    else { s with k := k }
  | .receivingPacket => assemble b s

end Sys2Proof.Machine
end

