-- ==== Sys2Proof/Machine/Rx.lean ====
section
/-! DEFINITION. The RX step (44_rx_sync_demod.md, section 1). -/

namespace Sys2Proof.Machine

/-- THRESH(cap) (R226): an uninterpreted function of the buffer's words. -/
def thresh (c : Config) (cap : List Word) : Bool := Config.threshDecide c.threshRule cap

/-- The demodulator that DEMOD_SEL selects, on one capture buffer: a bit or none (R221, R222). -/
def demodulate (cap : List Word) (s : State) : Option Bool × State :=
  if s.demodSel then spectral cap s else (some (thresh s.cfg cap), s)

/-- RX_STEP() (R221): pop one capture buffer, demodulate it, and feed the bit it yields to the synchronizer. With an empty
FIFO the agent has no step (R220). -/
def rxStep (s : State) : State :=
  match s.capq with
  | [] => s
  | cap :: rest =>
    match demodulate cap { s with capq := rest } with
    | (some b, s1) => syncBit b s1
    | (none, s1) => s1

end Sys2Proof.Machine
end

