-- ==== Sys2Proof/Machine/Agents.lean ====
section
/-! DEFINITION. The agents' steps (R8) and the schedule (R81, R338): which event is next, and what it does. -/

namespace Sys2Proof.Machine

/-- HOST: one bus transaction (R8, R71). A transaction that the bus cannot carry is refused. -/
def hostStep (t : HostTxn) (s : State) : Result :=
  match decodeTxn t with
  | .ok i => exec i s
  | .error _ => .refused (.busAddressTooWide t.addr)

/-- AUDIO: one audio period, enabled only when started (R8, R150). When it is not, its turn passes and no step is taken (log
entry 13). -/
def audioTurn (input : List Word) (s : State) : State :=
  if s.started then audioStep (s.completeInput input).1 (s.completeInput input).2 else s

/-- What one event does. -/
def runEvent (e : Event) (s : State) : Result :=
  match e with
  | .host t => hostStep t s
  | .audio input => .next (audioTurn input s)
  | .rx => .next (rxStep s)
  | .syncBit b => .next (syncBit b s)
  | .reset => .next s.resetBlock

/-- An event drawn freely: any agent, any transaction the bus carries, any input buffer, its words being drawn in their turn (R8, R14). -/
def drawnEvent (n : Nat) : Event :=
  match Config.agentDraw n % 4 with
  | 0 => .host ⟨Config.writeDraw n, Config.addrDraw n % 64, Config.dataDraw n⟩
  | 1 => .audio []
  | 2 => .rx
  | _ => .reset

/-- The event that is next: the schedule's head, or a drawn one where the schedule fixes none (log entry 3). -/
def nextEvent (s : State) : Event :=
  match s.schedule with
  | e :: _ => e
  | [] => drawnEvent s.draws

/-- The state in which that event runs: it is off the schedule, or its draw is counted, and no output is shown yet. -/
def takeEvent (s : State) : State :=
  match s.schedule with
  | _ :: rest => { s with schedule := rest, out := .silent }
  | [] => { s with draws := s.draws + 1, out := .silent }

end Sys2Proof.Machine
end

