-- ==== Sys2Proof/Machine/Step.lean ====
section
/-! DEFINITION. One step of the machine: one atomic step of one agent (R77, R81).

The block has no program counter and runs no stored program (R60). What stands for fetching is taking the next event of
the schedule; a host program is a list of host transactions placed there from outside (log entry 3).
-/

namespace Sys2Proof.Machine

/-- One step. -/
def step (s : State) : Host.Outcome State Fault Refusal := runEvent (nextEvent s) (takeEvent s)

/-- The state with an instruction placed so that the very next step runs it: the host transaction its bits stand for,
at the head of the schedule. -/
def State.withFetchWord (s : State) (nbits w : Nat) : State :=
  { s with schedule := .host (txnOfTableWord nbits w) :: s.schedule }

end Sys2Proof.Machine
end

