-- ==== Sys2Proof/Machine/HostProgram.lean ====
section
/-! DEFINITION. The host's side of the interface: the notations of R113-R115 as transactions and events, and the host
procedures `packetize`, `transmit` and `receive` (R198, R262, R263). None of this is in the block. -/

namespace Sys2Proof.Machine

/-- `RD <reg>` (R113). -/
def readReg (addr : Nat) : HostTxn := ⟨false, addr, 0#32⟩

/-- `WR <reg>, <value>` (R113). -/
def writeReg (addr : Nat) (v : Word) : HostTxn := ⟨true, addr, v⟩

/-- A command: `WR CMD, <word>` (R113). -/
def command (c : Command) : HostTxn := writeReg 0x03 c.encode

/-- `STAGE b0, ..., bn-1`: one TXDATA write a byte (R114). -/
def stageTxns (bytes : List Byte) : List HostTxn := bytes.map fun b => writeReg 0x07 (b.setWidth 32)

/-- `SEND <dest>, <bytes>`: TX_CLEAR, STAGE, TX_SEND (R114). -/
def sendTxns (dest : Byte) (bytes : List Byte) : List HostTxn :=
  command .txClear :: stageTxns bytes ++ [command (.txSend dest)]

/-- `RECV`, for the RXLEN it reads: RX_POP, RD RXLEN, then RD RXDATA that many times (R114, R263). -/
def recvTxns (rxlen : Nat) : List HostTxn :=
  command .rxPop :: readReg 0x0B :: List.replicate rxlen (readReg 0x0D)

/-- `max_chunk_size` (R198). -/
def maxChunkSize (c : Config) : Nat := 255 / c.maxBytesPerChar

/-- Consecutive runs of `size` characters, the last holding the remaining ones; `fuel` is the number of characters. -/
def chunksFrom (size : Nat) : Nat → List (List Byte) → List (List (List Byte))
  | 0, _ => []
  | _ + 1, [] => []
  | fuel + 1, text => text.take size :: chunksFrom size fuel (text.drop size)

/-- The chunks of a text, a list of characters given as their bytes (R198). With a chunk size of 0, which R198 does not
speak of, there is no chunk (log entry 14). -/
def chunks (size : Nat) (text : List (List Byte)) : List (List (List Byte)) :=
  if size = 0 then [] else chunksFrom size text.length text

/-- `packetize(text, destination)` (R198): one SEND a chunk, in order, with no look at ERR (`Transmit` looks at it). -/
def packetize (c : Config) (text : List (List Byte)) (dest : Byte) : List HostTxn :=
  (chunks (maxChunkSize c) text).flatMap fun chunk => sendTxns dest chunk.flatten

/-! ## Procedures that react to what they read

A procedure is what it does next and how it goes on from what that access showed. `Machine/Run.lean` runs one beside the
other agents. -/

/-- A host procedure with states `σ`. -/
structure Procedure (σ : Type) where
  /-- The next access; none when the procedure is finished. -/
  txn : σ → Option HostTxn
  /-- The state after that access, which showed this. -/
  took : Output → σ → σ

/-! ### `transmit` (R262) -/

/-- What `transmit` tells its caller: every chunk is enqueued, or the "queueing failure" of one (R262). -/
inductive TransmitResult where
  | sent
  | queueFull
  deriving DecidableEq, Repr

/-- Where `transmit` is with its current chunk. -/
inductive TransmitPhase where
  /-- TX_CLEAR is next. -/
  | clear
  /-- These bytes are still to stage; with none left, TX_SEND is next. -/
  | stage (left : List Byte)
  /-- TX_SEND is done; RD ERR is next (log entry 21). -/
  | check
  /-- The queue was full; RD STATUS is next, and again while TXQ_FULL = 1. -/
  | wait
  | finished (result : TransmitResult)
  deriving DecidableEq, Repr

/-- `transmit` on its way. -/
structure Transmit where
  dest : Byte
  /-- Whether the host waits on QUEUE_FULL; else it reports it to its caller. R262 leaves it to the host. -/
  waits : Bool
  /-- The chunk being sent, as bytes. -/
  chunk : List Byte
  /-- The chunks after it. -/
  later : List (List Byte)
  phase : TransmitPhase
  deriving DecidableEq, Repr

/-- `transmit` at its next chunk, or finished when there is none. -/
def Transmit.atChunk (dest : Byte) (waits : Bool) : List (List Byte) → Transmit
  | [] => ⟨dest, waits, [], [], .finished .sent⟩
  | chunk :: later => ⟨dest, waits, chunk, later, .clear⟩

/-- `transmit(text, destination)` (R262): the chunks of R198, one SEND each. -/
def Transmit.start (c : Config) (waits : Bool) (text : List (List Byte)) (dest : Byte) : Transmit :=
  Transmit.atChunk dest waits ((chunks (maxChunkSize c) text).map List.flatten)

/-- The access `transmit` does next. -/
def Transmit.txn (p : Transmit) : Option HostTxn :=
  match p.phase with
  | .clear => some (command .txClear)
  | .stage (b :: _) => some (writeReg 0x07 (b.setWidth 32))
  | .stage [] => some (command (.txSend p.dest))
  | .check => some (readReg 0x04)
  | .wait => some (readReg 0x01)
  | .finished _ => none

/-- How `transmit` goes on (R262, R328): at ERR = OK to the next chunk, else the chunk is still staged, and TX_SEND alone is
issued again, with the same DEST, once TXQ_FULL = 0; or QUEUE_FULL is reported. -/
def Transmit.took (o : Output) (p : Transmit) : Transmit :=
  match p.phase with
  | .clear => { p with phase := .stage p.chunk }
  | .stage (_ :: left) => { p with phase := .stage left }
  | .stage [] => { p with phase := .check }
  | .check =>
    if o = .read 0#32 then Transmit.atChunk p.dest p.waits p.later
    else if p.waits then { p with phase := .wait }
    else { p with phase := .finished .queueFull }
  | .wait =>
    match o with
    | .read status => if status.getLsbD 9 then p else { p with phase := .stage [] }
    | _ => p
  | .finished _ => p

/-- `transmit` as a procedure. -/
def transmit : Procedure Transmit := ⟨Transmit.txn, Transmit.took⟩

/-! ### `receive` (R263) -/

/-- `receive() -> Option<text>` on its way: RECV of R114, with ERR read after RX_POP (R327, R337, log entry 21). -/
inductive Receive where
  /-- RX_POP is next. -/
  | pop
  /-- RD ERR is next. -/
  | check
  /-- RD RXLEN is next. -/
  | length
  /-- So many bytes are still to read through RXDATA; these are read. -/
  | bytes (left : Nat) (got : List Byte)
  /-- None, or the payload's bytes. -/
  | finished (result : Option (List Byte))
  deriving DecidableEq, Repr

/-- So many bytes to read, or finished when it is none. -/
def Receive.reading : Nat → List Byte → Receive
  | 0, got => .finished (some got)
  | left + 1, got => .bytes (left + 1) got

/-- The access `receive` does next. -/
def Receive.txn : Receive → Option HostTxn
  | .pop => some (command .rxPop)
  | .check => some (readReg 0x04)
  | .length => some (readReg 0x0B)
  | .bytes _ _ => some (readReg 0x0D)
  | .finished _ => none

/-- How `receive` goes on (R263): None when RX_POP set ERR = RX_EMPTY, which is told apart from an empty payload by ERR
alone; else the RXLEN bytes read through RXDATA. -/
def Receive.took (o : Output) (p : Receive) : Receive :=
  match p with
  | .pop => .check
  | .check => if o = .read (ErrCode.rxEmpty.code.setWidth 32) then .finished none else .length
  | .length =>
    match o with
    | .read n => .reading n.toNat []
    | _ => p
  | .bytes left got =>
    match o with
    | .read v => .reading (left - 1) (got ++ [byteField v])
    | _ => p
  | .finished _ => p

/-- `receive` as a procedure, from `Receive.pop`. -/
def receive : Procedure Receive := ⟨Receive.txn, Receive.took⟩

/-- Several payloads back into one text: concatenated in order (R263, R236). -/
def joinPayloads (payloads : List (List Byte)) : List Byte := payloads.flatten

/-! ## Events -/

/-- `@PERIOD` with `IN=0` (R115). -/
def silentPeriod (c : Config) : Event := .audio (List.replicate (2 * c.nbuf) 0#32)

/-- `@BITS b0 b1 ...` (R115). -/
def bitEvents (bits : List Bool) : List Event := bits.map .syncBit

/-- A program of host transactions as events. -/
def hostEvents (txns : List HostTxn) : List Event := txns.map .host

end Sys2Proof.Machine
end

