-- ==== Sys2Proof/Machine/Launch.lean ====
section
/-! DEFINITION. Building a block from a configuration (R6, R7): an ill-formed one is refused. -/

namespace Sys2Proof.Machine

/-- R7, condition by condition; the last is that `ENERGY_TOL` is a number (R6). -/
def configWf (c : Config) : Bool :=
  1 ≤ c.sampleRate && 1 ≤ c.nbuf && 1 ≤ c.tableLen && 1 ≤ c.preambleLen && 1 ≤ c.winBufs
    && 1 ≤ c.capqDepth && 1 ≤ c.txqDepth && 1 ≤ c.rxqDepth
    && c.preamble.length == c.preambleLen
    && c.freqA != c.freqB
    && 0 < c.freqA && 2 * c.freqA < c.sampleRate
    && 0 < c.freqB && 2 * c.freqB < c.sampleRate
    && c.tableLen ≤ 65536 && c.preambleLen ≤ 2 ^ 32
    && 1 ≤ c.maxBytesPerChar
    && 1 ≤ c.tolDen

/-- The launch of a block: its reset state, or no machine (R7, R303, R338). -/
def launch (c : Config) : Result := if configWf c then .next (State.resetOf c) else .refused .illFormedConfig

end Sys2Proof.Machine
end

