-- ==== Sys2Proof/Machine/Run.lean ====
section
/-! DEFINITION. Runs, what is observed of them, and the end of a test program (R338); a host procedure beside the other
agents (R262, R263); and the bit streams of the two ends of a link (R236). -/

namespace Sys2Proof.Machine

/-- Goes on from a next value; a fault or a refusal ends it. -/
def andThen {α β : Type} (r : Host.Outcome α Fault Refusal) (f : α → Host.Outcome β Fault Refusal) :
    Host.Outcome β Fault Refusal :=
  match r with
  | .next a => f a
  | .fault e => .fault e
  | .refused e => .refused e

/-! ## Runs and observations (R338) -/

/-- One host access, with the value the read returned. -/
structure Access where
  txn : HostTxn
  returned : Option Word
  deriving DecidableEq, Repr

/-- The observation of a run. -/
structure Observation where
  /-- (a) The host accesses, in order. -/
  accesses : List Access
  /-- (b) The OUT buffers the AUDIO steps emitted, in order. -/
  buffers : List (List Word)
  /-- (c) The final state. -/
  final : State
  deriving DecidableEq, Repr

/-- The word an access showed, if it was a read. -/
def Output.word : Output → Option Word
  | .read v => some v
  | .silent | .audio _ => none

/-- The buffers a step emitted: one or none. -/
def Output.buffers : Output → List (List Word)
  | .audio buf => [buf]
  | .silent | .read _ => []

/-- The accesses an event is: one or none. -/
def Event.accesses (e : Event) (o : Output) : List Access :=
  match e with
  | .host t => [⟨t, o.word⟩]
  | .audio _ | .rx | .syncBit _ | .reset => []

/-- The observation of a run whose first step ran the event `e` and showed `o`, and whose rest was observed as `rest`. -/
def Observation.after (e : Event) (o : Output) (rest : Observation) : Observation :=
  ⟨e.accesses o ++ rest.accesses, o.buffers ++ rest.buffers, rest.final⟩

/-- A run of `n` steps from a launch state, as it is observed. A refused step ends it with the refusal. -/
def observeRun : Nat → State → Host.Outcome Observation Fault Refusal
  | 0, s => .next ⟨[], [], s⟩
  | n + 1, s => andThen (step s) fun t => andThen (observeRun n t) fun rest => .next (rest.after (nextEvent s) t.out)

/-- A test program from a given launch state: it takes exactly the events it lists, in order, and its end is the state after
the last one. -/
def testRun (events : List Event) (s : State) : Host.Outcome Observation Fault Refusal :=
  observeRun events.length { s with schedule := events }

/-- A test program from the launch state of R338, the reset state; an ill-formed configuration is refused. -/
def testFromReset (c : Config) (events : List Event) : Host.Outcome Observation Fault Refusal :=
  andThen (launch c) (testRun events)

/-- A state in which a run is quiescent (R338). -/
def Quiescent (s : State) : Prop :=
  s.txq = [] ∧ s.txState = .idle ∧ s.capq = [] ∧ s.rxState = .searchingPreamble

/-- A quiescent run: its final state is (R338). -/
def Observation.Quiescent (o : Observation) : Prop := Machine.Quiescent o.final

/-! ## A host procedure beside the other agents

How many AUDIO and RX steps fall between two accesses is the schedule's (R338): here, a list of turns. -/

/-- Whose turn it is. The block has one host (R304), so an agent's event is no host transaction. -/
inductive Turn where
  | host
  | audio (input : List Word)
  | rx
  deriving DecidableEq, Repr

/-- The event of a turn, where the procedure's next access is `txn`; none for a finished procedure. -/
def Turn.event (txn : Option HostTxn) : Turn → Option Event
  | .host => txn.map .host
  | .audio input => some (.audio input)
  | .rx => some .rx

/-- One turn: the agent's step; and on the host's, what its access showed goes to the procedure. A finished procedure's turn
passes. -/
def Procedure.turn {σ : Type} (P : Procedure σ) (turn : Turn) (p : σ) (s : State) :
    Host.Outcome (σ × State) Fault Refusal :=
  match turn.event (P.txn p) with
  | none => .next (p, s)
  | some e =>
    andThen (step { s with schedule := e :: s.schedule }) fun t =>
      .next (match turn with
        | .host => P.took t.out p
        | .audio _ | .rx => p, t)

/-- A procedure run over a list of turns. -/
def Procedure.run {σ : Type} (P : Procedure σ) : List Turn → σ → State → Host.Outcome (σ × State) Fault Refusal
  | [], p, s => .next (p, s)
  | turn :: turns, p, s => andThen (P.turn turn p s) fun q => P.run turns q.1 q.2

/-! ## The bit streams of a run (R115, R175, R236) -/

/-- The bit the next step's framer tick publishes, if it is an audio period of a started block. -/
def publishedBit (s : State) : Option Bool :=
  match nextEvent s with
  | .audio _ => if s.started then some (framerSymbol s) else none
  | .host _ | .rx | .syncBit _ | .reset => none

/-- The bit the next step feeds to the synchronizer, if it feeds one. -/
def fedBit (s : State) : Option Bool :=
  match nextEvent s with
  | .syncBit b => some b
  | .rx =>
    match s.capq with
    | [] => none
    | cap :: rest => (demodulate cap { takeEvent s with capq := rest }).1
  | .host _ | .audio _ | .reset => none

/-- The bits that `bitOf` gives for the states before each step of a run of `n` steps. -/
def streamOf (bitOf : State → Option Bool) : Nat → State → List Bool
  | 0, _ => []
  | n + 1, s =>
    (bitOf s).toList ++
      match step s with
      | .next t => streamOf bitOf n t
      | .fault _ | .refused _ => []

/-- The published bit stream of a run of `n` steps. -/
def publishedStream (n : Nat) (s : State) : List Bool := streamOf publishedBit n s

/-- The bits that reached SYNC_BIT in a run of `n` steps. -/
def fedStream (n : Nat) (s : State) : List Bool := streamOf fedBit n s

end Sys2Proof.Machine
end

