-- ==== Sys2Proof/Safety.lean ====
section
/-! DEFINITION. What counts as a good state: the bounds that R50 gives with the fields, and the facts that R181, R195, R229,
R232 and R296 state about the states a block can be in; and the named premises of R338 and R339. -/

namespace Sys2Proof.Machine

/-- A frame as TX_SEND encodes one (R111, R181, R193): the length its header declares, and a fold of 0. -/
structure ValidFrame (f : List Byte) : Prop where
  length : f.length = 5 + (f.getD 3 0#8).toNat
  fold : xorfold f = 0x00#8

/-- The framer's counter and frame in each of its states (R55, R171, R181). -/
def FramerOk (s : State) : Prop :=
  match s.txState with
  | .idle => s.txCounter = 0 ∧ s.txFrame = []
  | .sendingPreamble => s.txCounter < s.cfg.preambleLen ∧ ValidFrame s.txFrame
  | .sendingPacket => s.txCounter < 8 * s.txFrame.length ∧ ValidFrame s.txFrame

/-- The synchronizer's fields in each of its states (R58, R227-R230, R232). -/
def SyncOk (s : State) : Prop :=
  match s.rxState with
  | .searchingPreamble => s.k < s.cfg.preambleLen ∧ s.rxBuf = [] ∧ s.rxCur = 0x00#8 ∧ s.rxBitcnt = 0
  | .receivingPacket =>
    s.k = 0 ∧ s.rxBitcnt < 8 ∧ s.rxCur.toNat < 2 ^ s.rxBitcnt
      ∧ (s.rxBuf.length < 4 ∨ s.rxBuf.length < 5 + (s.rxBuf.getD 3 0#8).toNat)

/-- Before a successful START no AUDIO or RX step has been taken since reset (R150, R296, R322). -/
structure Unstarted (s : State) : Prop where
  framer : s.txState = .idle ∧ s.lastSym = false ∧ s.mbox = none ∧ s.txDone = 0
  driver : s.curSym = false ∧ s.phase = 0 ∧ s.bufCount = 0
  capture : s.capq = [] ∧ s.capDrop = 0 ∧ s.win = []

/-- The invariant of the block. -/
structure Inv (s : State) : Prop where
  config : configWf s.cfg = true
  startOnce : ¬(s.started = true ∧ s.initFailed = true)
  unstarted : s.started = false → Unstarted s
  stageLength : s.stage.length ≤ 255
  txqLength : s.txq.length ≤ s.cfg.txqDepth
  txqFrames : ∀ f ∈ s.txq, ValidFrame f
  framer : FramerOk s
  phase : s.phase < s.cfg.tableLen
  capqLength : s.capq.length ≤ s.cfg.capqDepth
  capqBuffers : ∀ b ∈ s.capq, b.length = s.cfg.nbuf
  window : ∃ m ≤ s.cfg.winBufs, s.win.length = m * s.cfg.nbuf
  sync : SyncOk s
  rxqLength : s.rxq.length ≤ s.cfg.rxqDepth
  rxqPayloads : ∀ p ∈ s.rxq, p.length ≤ 255 ∧ textValid s.cfg p = true
  rdBuf : s.rdBuf.length ≤ 255 ∧ (s.rdBuf = [] ∨ textValid s.cfg s.rdBuf = true)
  rdPos : s.rdPos ≤ s.rdBuf.length

/-! ## The launch premises of R339, by name -/

/-- `clean_reset`: every field of R50 has its value of R64. The environment's own fields, the schedule among them, may hold
anything. -/
def CleanReset (s : State) : Prop := s = s.resetBlock

/-- `started_ok`. -/
def StartedOk (s : State) : Prop := s.started = true ∧ s.initFailed = false

/-- `same_config`: both ends have equal configurations (R324). -/
def SameConfig (a b : State) : Prop := a.cfg = b.cfg

/-- The next step drops a capture or a valid payload (R332): the agent's step that counts the drop does it. -/
def Drops (s : State) : Prop :=
  ∃ t, step s = .next t ∧
    match nextEvent s with
    | .audio _ => t.capDrop ≠ s.capDrop
    | .rx | .syncBit _ => t.rxqDrop ≠ s.rxqDrop
    | .host _ | .reset => False

/-- `no_drop` over the interval of the next `n` steps. -/
def NoDrop : Nat → State → Prop
  | 0, _ => True
  | n + 1, s => ¬Drops s ∧ ∀ t, step s = .next t → NoDrop n t

/-- `lossless_channel`: over `m` steps of the receiver and `n` of the transmitter, the receiver's bit stream is the
transmitter's published stream, with no bit lost, added or flipped (R236). -/
def LosslessChannel (n : Nat) (tx : State) (m : Nat) (rx : State) : Prop := fedStream m rx = publishedStream n tx

/-- R235 (b): PREAMBLE occurs exactly once in `noise ++ PREAMBLE`, at its end. -/
def UniquePreamble (preamble noise : List Bool) : Prop :=
  ∀ q, q <+: noise ++ preamble → preamble <:+ q → q = noise ++ preamble

/-- `unique_preamble`: R235 (b) for each frame, given the bits that come before each frame's preamble once the synchronizer
searches again. -/
def UniquePreambles (preamble : List Bool) (noises : List (List Bool)) : Prop :=
  ∀ noise ∈ noises, UniquePreamble preamble noise

end Sys2Proof.Machine
end

