-- ==== Sys2Proof/Certificates/Slice0/Obligations.lean ====
section
/-! DEFINITION. The statements for the provers. Each names the rule of spec/ it formalises. First the few words the
statements are written with, each independent of how the model computes the thing it speaks of. -/

namespace Sys2Proof.Claims

open Sys2Proof.Machine

/-- Bits fed to the synchronizer, first at the head (R115). -/
def feed (bits : List Bool) (s : State) : State := bits.foldl (fun t b => syncBit b t) s

/-- The state after AUDIO steps with these input buffers. -/
def periods (inputs : List (List Word)) (s : State) : State := inputs.foldl (fun t input => audioTurn input t) s

/-- The symbols those steps' framer ticks publish, in order (R175). -/
def published : List (List Word) → State → List Bool
  | [], _ => []
  | input :: rest, s => (audioTurn input s).lastSym :: published rest (audioTurn input s)

/-- No proper prefix of `stream` ends with `pattern`: `pattern` has not occurred before the stream's end. -/
def NotBeforeEnd (pattern stream : List Bool) : Prop :=
  ∀ q, q <+: stream → q ≠ stream → ¬ pattern <:+ q

/-- The number of 1 bits of a byte. -/
def weight (b : Byte) : Nat := (List.range 8).countP fun i => b.getLsbD i

/-- Flips in `frame` the bits that are 1 in `flips`. -/
def flipBits (frame flips : List Byte) : List Byte := List.zipWith (· ^^^ ·) frame flips

/-- A row of the table of R196: one whole character. -/
def IsUtf8Form (f : List Byte) : Prop :=
  let cont (b : Byte) : Prop := 0x80 ≤ b.toNat ∧ b.toNat ≤ 0xBF
  (∃ a, f = [a] ∧ a.toNat ≤ 0x7F)
    ∨ (∃ a b, f = [a, b] ∧ 0xC2 ≤ a.toNat ∧ a.toNat ≤ 0xDF ∧ cont b)
    ∨ (∃ a b c, f = [a, b, c] ∧ a.toNat = 0xE0 ∧ 0xA0 ≤ b.toNat ∧ b.toNat ≤ 0xBF ∧ cont c)
    ∨ (∃ a b c, f = [a, b, c] ∧ 0xE1 ≤ a.toNat ∧ a.toNat ≤ 0xEC ∧ cont b ∧ cont c)
    ∨ (∃ a b c, f = [a, b, c] ∧ a.toNat = 0xED ∧ 0x80 ≤ b.toNat ∧ b.toNat ≤ 0x9F ∧ cont c)
    ∨ (∃ a b c, f = [a, b, c] ∧ 0xEE ≤ a.toNat ∧ a.toNat ≤ 0xEF ∧ cont b ∧ cont c)
    ∨ (∃ a b c d, f = [a, b, c, d] ∧ a.toNat = 0xF0 ∧ 0x90 ≤ b.toNat ∧ b.toNat ≤ 0xBF ∧ cont c ∧ cont d)
    ∨ (∃ a b c d, f = [a, b, c, d] ∧ 0xF1 ≤ a.toNat ∧ a.toNat ≤ 0xF3 ∧ cont b ∧ cont c ∧ cont d)
    ∨ (∃ a b c d, f = [a, b, c, d] ∧ a.toNat = 0xF4 ∧ 0x80 ≤ b.toNat ∧ b.toNat ≤ 0x8F ∧ cont c ∧ cont d)

/-- An exponent field other than all ones: neither infinite nor NaN (R76). -/
def IsFiniteF32 (w : Word) : Prop := w.extractLsb' 23 8 ≠ 0xFF#8

/-- The real number a finite binary32 pattern stands for: sign bit 31, exponent bits [30:23], fraction bits [22:0] (R76). -/
noncomputable def f32Real (w : Word) : ℝ :=
  let e := (w.extractLsb' 23 8).toNat
  let f := (w.extractLsb' 0 23).toNat
  (if w.getLsbD 31 then -1 else 1) *
    (if e = 0 then (f : ℝ) / 2 ^ 149 else ((2 : ℝ) ^ 23 + f) * 2 ^ e / 2 ^ 150)

/-- The sine that `ROM[sym][t]` stands for (R131). -/
noncomputable def toneSine (c : Config) (sym : Bool) (t : Nat) : ℝ :=
  Real.sin (2 * Real.pi * c.freq sym * t / c.sampleRate)

/-- `C_s` of R224. -/
noncomputable def toneCos (c : Config) (sym : Bool) (x : List Word) : ℝ :=
  ∑ n : Fin x.length, f32Real x[n] * Real.cos (2 * Real.pi * c.freq sym * n / c.sampleRate)

/-- `S_s` of R224. -/
noncomputable def toneSin (c : Config) (sym : Bool) (x : List Word) : ℝ :=
  ∑ n : Fin x.length, f32Real x[n] * Real.sin (2 * Real.pi * c.freq sym * n / c.sampleRate)

/-- `E_s = C_s^2 + S_s^2` (R224). -/
noncomputable def energy (c : Config) (sym : Bool) (x : List Word) : ℝ :=
  toneCos c sym x ^ 2 + toneSin c sym x ^ 2

/-- `delta`, the tolerance of R225. -/
noncomputable def tolerance (c : Config) : ℝ := (c.tolNum : ℝ) / c.tolDen

end Sys2Proof.Claims

open Sys2Proof Sys2Proof.Machine Sys2Proof.Claims

/-! ## Encoding (30_encoding.md) -/

/-- R100-R107: every well-formed instruction, with every operand its row admits, is read back from its own words. That a BUS
row is one number of 40 bits is the model's choice (log entry 9). -/
def Obligations.DecodeInvertsEncode : Prop :=
  ∀ i : Instr, i.wellFormed = true → decodeTableWord (encode i).1 (encode i).2 = some i

/-- R107 and the vectors of 95_test_vectors.md: a few CMD words and BUS selectors written out from the spec's encodings. The
three clauses on BUS rows, of 8 and 40 bits, place the selector in the low byte and the data word, 0 in 8 bits, above it: that
layout is the model's choice (log entry 9). -/
def Obligations.SampleWordsDecode : Prop :=
  decodeTableWord 32 0x00000000 = some .nop
    ∧ decodeTableWord 32 0x01000000 = some .start
    ∧ decodeTableWord 32 0x02020000 = some (.txSend 0x02#8)
    ∧ decodeTableWord 32 0x0601FFFF = some (.toneRead true 0xFFFF#16)
    ∧ decodeTableWord 32 0x06020000 = none
    ∧ decodeTableWord 8 0b0001101 = some .rdRxdata
    ∧ decodeTableWord 8 0b1000010 = some (.wrCtrl 0#32)
    ∧ decodeTableWord 40 (0b1000111 + 256 * 0x168) = some (.wrTxdata 0x168#32)

/-- R104, R106, R108: the ILLEGAL words are those with an unlisted opcode, or a listed one and a bit set that its
sub-format marks 0; such a word written to CMD sets ERR = ILLEGAL_COMMAND and changes nothing else. -/
def Obligations.IllegalWordsOnlySetErr : Prop :=
  ∀ w : Word,
    let opc := (w.extractLsb' 24 8).toNat
    (decodeCommand w = none ↔
        7 ≤ opc
          ∨ (opc = 2 ∧ w.extractLsb' 0 16 ≠ 0#16)
          ∨ (opc = 6 ∧ w.extractLsb' 17 7 ≠ 0#7)
          ∨ (opc < 7 ∧ opc ≠ 2 ∧ opc ≠ 6 ∧ w.extractLsb' 0 24 ≠ 0#24))
      ∧ (decodeCommand w = none → ∀ s, exec (.wrCmd w) s = .next { s with err := .illegalCommand })

/-- R100, R103: a write of CMD, selector 1 000011, runs the command that its data word decodes to, whole and at once. -/
def Obligations.CmdWriteRunsItsCommand : Prop :=
  ∀ (w : Word) (s : State),
    decodeBus 0b1000011#7 w = .wrCmd w
      ∧ ∀ c : Command, decodeCommand w = some c → ∃ t, exec (.wrCmd w) s = .next t ∧ exec c.toInstr s = .next t

/-! ## The step -/

/-- R71, R77, R100: when the next event is a host transaction that decodes to an instruction, the step is that
instruction's, in the state with the event taken off the schedule and nothing shown yet. -/
def Obligations.StepRunsDecodedInstruction : Prop :=
  ∀ (s : State) (t : HostTxn) (rest : List Event) (i : Instr),
    s.schedule = .host t :: rest → decodeTxn t = .ok i →
      step s = exec i { s with schedule := rest, out := .silent }

/-- R265: "Every access is legal at every time, and no access is refused by state": every instruction completes, in every
state. -/
def Obligations.EveryAccessCompletes : Prop :=
  ∀ (i : Instr) (s : State), ∃ t, exec i s = .next t

/-- R71, R303: a step that does not complete is a host transaction whose address does not fit the 6-bit bus, which is
refused; every other step completes. -/
def Obligations.OnlyWideAddressesAreRefused : Prop :=
  ∀ s : State,
    (∃ t, step s = .next t)
      ∨ ∃ txn rest, s.schedule = .host txn :: rest ∧ 64 ≤ txn.addr ∧ step s = .refused (.busAddressTooWide txn.addr)

/-- R7: a configuration that breaks one of its conditions is refused; a well-formed one starts in its reset state. The
condition on `tolDen` is the model's: `ENERGY_TOL` is a fraction (log entry 2). -/
def Obligations.IllFormedConfigsAreRefused : Prop :=
  ∀ c : Config,
    let ok := 1 ≤ c.sampleRate ∧ 1 ≤ c.nbuf ∧ 1 ≤ c.tableLen ∧ 1 ≤ c.preambleLen ∧ 1 ≤ c.winBufs
      ∧ 1 ≤ c.capqDepth ∧ 1 ≤ c.txqDepth ∧ 1 ≤ c.rxqDepth ∧ c.preamble.length = c.preambleLen
      ∧ c.freqA ≠ c.freqB ∧ 0 < c.freqA ∧ 2 * c.freqA < c.sampleRate ∧ 0 < c.freqB ∧ 2 * c.freqB < c.sampleRate
      ∧ c.tableLen ≤ 65536 ∧ c.preambleLen ≤ 2 ^ 32 ∧ 1 ≤ c.maxBytesPerChar ∧ c.tolDen ≠ 0
    (ok → launch c = .next (State.resetOf c)) ∧ (¬ok → launch c = .refused .illFormedConfig)

/-! ## Commands (45_host_commands.md)

Each statement says which words are the command's, and what the command does in every state. -/

/-- R256: NOP, the word 0x00000000, writes ERR = OK and nothing else; 0x00000001 is no NOP but ILLEGAL. -/
def Obligations.NopClearsErr : Prop :=
  (∀ w : Word, decodeCommand w = some .nop ↔ w = 0x00000000#32)
    ∧ ∀ s : State, exec .nop s = .next { s with err := .ok }
      ∧ exec (.wrCmd 0x00000001#32) s = .next { s with err := .illegalCommand }

/-- R250: START, the word 0x01000000. The first one samples AUDIO_OK, some bit `b`, which is what the environment fixed if it
fixed one; it sets STARTED and ERR = OK, or INIT_FAILED and ERR = HARDWARE_INIT, and changes nothing else of the block. Every
later one sets ERR = ALREADY_INITIALIZED and changes nothing else. The counter of draws is the model's own (log entries 4,
5). -/
def Obligations.StartOutcomes : Prop :=
  (∀ w : Word, decodeCommand w = some .start ↔ w = 0x01000000#32)
    ∧ ∀ s : State,
      (s.started = true ∨ s.initFailed = true → exec .start s = .next { s with err := .alreadyInitialized })
        ∧ (s.started = false → s.initFailed = false →
          ∃ b d, (∀ b', s.audioOk = some b' → b = b' ∧ d = s.draws) ∧
            exec .start s =
              .next (if b then { s with started := true, err := .ok, draws := d }
                else { s with initFailed := true, err := .hardwareInit, draws := d }))

/-- R200, R193: TX_SEND, the words 0x02dd0000; with a bit of [15:0] set the word is ILLEGAL. With room in the queue it queues
the frame to, from, id, payload_len, payload, checksum, where the checksum is the byte that makes the fold of the frame 0; it
advances FRAME_ID modulo 256, empties the stage and sets ERR = OK. On a full queue it sets ERR = QUEUE_FULL and keeps the
stage, FRAME_ID and the queue. -/
def Obligations.TxSendOutcomes : Prop :=
  (∀ (w : Word) (dest : Byte), decodeCommand w = some (.txSend dest) ↔ w = 0x02#8 ++ dest ++ 0x0000#16)
    ∧ (∀ (dest : Byte) (low : BitVec 16) (s : State), low ≠ 0#16 →
      exec (.wrCmd (0x02#8 ++ dest ++ low)) s = .next { s with err := .illegalCommand })
    ∧ ∀ (s : State) (dest : Byte),
      (s.txq.length = s.cfg.txqDepth → exec (.txSend dest) s = .next { s with err := .queueFull })
        ∧ (s.txq.length ≠ s.cfg.txqDepth →
          ∃ checksum : Byte,
            let frame := [dest, s.localId, s.frameId, BitVec.ofNat 8 s.stage.length] ++ s.stage ++ [checksum]
            xorfold frame = 0x00#8 ∧
              exec (.txSend dest) s =
                .next { s with txq := s.txq ++ [frame], frameId := s.frameId + 1, stage := [], err := .ok })

/-- R257: TX_CLEAR, the word 0x03000000, empties the stage and sets ERR = OK. -/
def Obligations.TxClearEmptiesTheStage : Prop :=
  (∀ w : Word, decodeCommand w = some .txClear ↔ w = 0x03000000#32)
    ∧ ∀ s : State, exec .txClear s = .next { s with stage := [], err := .ok }

/-- R255: RX_POP, the word 0x04000000, moves the oldest payload into the read buffer; on an empty queue it clears the read
buffer and sets ERR = RX_EMPTY. -/
def Obligations.RxPopOutcomes : Prop :=
  (∀ w : Word, decodeCommand w = some .rxPop ↔ w = 0x04000000#32)
    ∧ ∀ s : State,
      (∀ payload rest, s.rxq = payload :: rest →
          exec .rxPop s = .next { s with rxq := rest, rdBuf := payload, rdPos := 0, err := .ok })
        ∧ (s.rxq = [] → exec .rxPop s = .next { s with rdBuf := [], rdPos := 0, err := .rxEmpty })

/-- R258: after CLR_STATS, the word 0x05000000, the six event counters and RX_LAST_EVT read 0 and ERR is OK; every other
address reads as before, BUF_COUNT among them, and the queues, the buffers and the agents' state are as before. -/
def Obligations.ClrStatsZeroesTheCounters : Prop :=
  (∀ w : Word, decodeCommand w = some .clrStats ↔ w = 0x05000000#32)
    ∧ ∀ s : State, ∃ t,
      exec .clrStats s = .next t
        ∧ (∀ a : BitVec 6, a.toNat = 0x04 ∨ (0x14 ≤ a.toNat ∧ a.toNat ≤ 0x1A) → regRead t a = 0#32)
        ∧ (∀ a : BitVec 6, ¬(a.toNat = 0x04 ∨ (0x14 ≤ a.toNat ∧ a.toNat ≤ 0x1A)) → regRead t a = regRead s a)
        ∧ t = { s with
            err := t.err, cksErr := t.cksErr, deserErr := t.deserErr, capDrop := t.capDrop, rxqDrop := t.rxqDrop,
            txDone := t.txDone, rxOk := t.rxOk, rxLastEvt := t.rxLastEvt }

/-- R134: TONE_READ, the words 0x06000000 with SYM in bit 16 and INDEX in bits [15:0]; with a bit of [23:17] set the word is
ILLEGAL. It copies the ROM word to TONE_DATA and sets ERR = OK when INDEX < T; otherwise it sets ERR = BAD_ARGUMENT and nothing
else. The ROM word is that of `romWord`, of which `RomIsTheRoundedSine` speaks. -/
def Obligations.ToneReadOutcomes : Prop :=
  (∀ (w : Word) (sym : Bool) (index : BitVec 16),
      decodeCommand w = some (.toneRead sym index) ↔ w = 0x06#8 ++ 0#7 ++ BitVec.ofBool sym ++ index)
    ∧ (∀ (high : BitVec 7) (low : BitVec 17) (s : State), high ≠ 0#7 →
      exec (.wrCmd (0x06#8 ++ high ++ low)) s = .next { s with err := .illegalCommand })
    ∧ ∀ (s : State) (sym : Bool) (index : BitVec 16),
      (index.toNat < s.cfg.tableLen →
          exec (.toneRead sym index) s = .next { s with toneData := romWord s.cfg sym index.toNat, err := .ok })
        ∧ (s.cfg.tableLen ≤ index.toNat → exec (.toneRead sym index) s = .next { s with err := .badArgument })

/-! ## Register accesses -/

/-- R252: WR CTRL, selector 1 000010, applies CAPTURE_EN always, and DEMOD_SEL unless it would change while STARTED = 1, which
sets ERR = CONFIG_LOCKED. -/
def Obligations.WrCtrlOutcomes : Prop :=
  ∀ (s : State) (v : Word),
    decodeBus 0b1000010#7 v = .wrCtrl v
      ∧ (s.started = true → v.getLsbD 1 ≠ s.demodSel →
        exec (.wrCtrl v) s = .next { s with captureEn := v.getLsbD 0, err := .configLocked })
      ∧ (s.started = false ∨ v.getLsbD 1 = s.demodSel →
        exec (.wrCtrl v) s = .next { s with captureEn := v.getLsbD 0, demodSel := v.getLsbD 1, err := .ok })

/-- R253, R199: WR TXDATA, selector 1 000111, appends the low byte of its word and sets ERR = OK; with 255 bytes staged the byte
is dropped and ERR = STAGE_FULL. -/
def Obligations.WrTxdataOutcomes : Prop :=
  ∀ (s : State) (v : Word),
    decodeBus 0b1000111#7 v = .wrTxdata v
      ∧ (s.stage.length ≠ 255 →
        exec (.wrTxdata v) s = .next { s with stage := s.stage ++ [BitVec.ofNat 8 (v.toNat % 256)], err := .ok })
      ∧ (s.stage.length = 255 → exec (.wrTxdata v) s = .next { s with err := .stageFull })

/-- R260: WR LOCAL_ID, selector 1 000101, sets LOCAL_ID to the low byte of its word and does not write ERR. -/
def Obligations.WrLocalIdTakesTheLowByte : Prop :=
  ∀ (s : State) (v : Word),
    decodeBus 0b1000101#7 v = .wrLocalId v
      ∧ exec (.wrLocalId v) s = .next { s with localId := BitVec.ofNat 8 (v.toNat % 256) }

/-- R261, R48: a write to any address but CTRL, CMD, LOCAL_ID and TXDATA changes nothing, ERR included; a read of an address
0x1B-0x3F returns 0 and changes nothing. `out` is the model's view of the word returned (log entry 6). -/
def Obligations.IgnoredAccessesChangeNothing : Prop :=
  ∀ (s : State) (a : BitVec 6) (v : Word),
    (a ≠ 0x02#6 → a ≠ 0x03#6 → a ≠ 0x05#6 → a ≠ 0x07#6 → decodeBus (1#1 ++ a) v = .wrIgnored a v)
      ∧ exec (.wrIgnored a v) s = .next s
      ∧ (0x1B ≤ a.toNat → decodeBus (0#1 ++ a) v = .rdReserved a)
      ∧ exec (.rdReserved a) s = .next { s with out := .read 0#32 }

/-- R254: RD RXDATA, selector 0 001101, returns the next byte of the read buffer, advances, and sets ERR = OK; past the end it
returns 0, stays, and sets ERR = RX_EMPTY. `out` is the model's view of the word returned (log entry 6). -/
def Obligations.RdRxdataOutcomes : Prop :=
  ∀ s : State,
    (∀ v, decodeBus 0b0001101#7 v = .rdRxdata)
      ∧ (∀ (done left : List Byte) (b : Byte), s.rdBuf = done ++ b :: left → s.rdPos = done.length →
        exec .rdRxdata s =
          .next { s with rdPos := done.length + 1, err := .ok, out := .read (BitVec.ofNat 32 b.toNat) })
      ∧ (s.rdPos = s.rdBuf.length → exec .rdRxdata s = .next { s with err := .rxEmpty, out := .read 0#32 })

/-- R264: a read of a mapped address other than RXDATA, 0x00-0x0C and 0x0E-0x1A, returns the register's value and has no side
effect, and a second read returns the same. `out` is the model's view of the word returned (log entry 6); the values are those
of `RegistersReadTheirFields`, `StatusBits` and `ViewsShowWholeNumbers`. -/
def Obligations.ReadsHaveNoSideEffect : Prop :=
  ∀ (s : State) (a : BitVec 6), a ≠ 0x0D#6 → a.toNat ≤ 0x1A →
    (∀ v, decodeBus (0#1 ++ a) v = .rdReg a)
      ∧ exec (.rdReg a) s = .next { s with out := .read (regRead s a) }
      ∧ ∀ o, exec (.rdReg a) { s with out := o } = .next { s with out := .read (regRead s a) }

/-- R21, R23-R28, R30, R31, R35, R40-R47, R290: what these addresses read as. That TXQ_COUNT and RXQ_COUNT read the length
modulo 2^16 for a queue of 65536 entries or more is the model's (log entry 20, DEDUCED). -/
def Obligations.RegistersReadTheirFields : Prop :=
  ∀ s : State,
    regRead s 0x00#6 = 0x46534B31#32
      ∧ (regRead s 0x02#6).toNat = s.captureEn.toNat + 2 * s.demodSel.toNat
      ∧ regRead s 0x03#6 = 0#32
      ∧ regRead s 0x04#6 =
          (match s.err with
            | .ok => 0x00#32
            | .alreadyInitialized => 0x01#32
            | .hardwareInit => 0x02#32
            | .queueFull => 0x03#32
            | .stageFull => 0x04#32
            | .rxEmpty => 0x05#32
            | .illegalCommand => 0x06#32
            | .badArgument => 0x07#32
            | .configLocked => 0x09#32)
      ∧ (regRead s 0x05#6).toNat = s.localId.toNat
      ∧ (regRead s 0x06#6).toNat = s.frameId.toNat
      ∧ regRead s 0x07#6 = 0#32
      ∧ (regRead s 0x09#6).toNat = s.txq.length % 2 ^ 16
      ∧ (regRead s 0x0A#6).toNat = s.rxq.length % 2 ^ 16
      ∧ regRead s 0x0E#6 = s.toneData
      ∧ regRead s 0x13#6 = s.bufCount
      ∧ regRead s 0x14#6 = s.cksErr
      ∧ regRead s 0x15#6 = s.deserErr
      ∧ regRead s 0x16#6 = s.capDrop
      ∧ regRead s 0x17#6 = s.rxqDrop
      ∧ regRead s 0x18#6 = s.txDone
      ∧ regRead s 0x19#6 = s.rxOk
      ∧ regRead s 0x1A#6 =
          (match s.rxLastEvt with
            | .delivered => 0x00#32
            | .checksumMismatch => 0x10#32
            | .deserializeError => 0x11#32
            | .rxqDrop => 0x13#32)

/-- R22: each bit of STATUS. -/
def Obligations.StatusBits : Prop :=
  ∀ s : State, ∃ v, exec (.rdReg 0x01#6) s = .next { s with out := .read v }
    ∧ v.getLsbD 0 = s.started
    ∧ v.getLsbD 1 = s.initFailed
    ∧ (v.extractLsb' 2 2).toNat =
        (match s.txState with | .idle => 0 | .sendingPreamble => 1 | .sendingPacket => 2)
    ∧ (v.getLsbD 4 = true ↔ s.rxState = .receivingPacket)
    ∧ (v.getLsbD 5 = true ↔ s.mbox ≠ none)
    ∧ v.getLsbD 6 = s.curSym
    ∧ v.getLsbD 7 = s.lastSym
    ∧ (v.getLsbD 8 = true ↔ s.rxq ≠ [])
    ∧ (v.getLsbD 9 = true ↔ s.txq.length = s.cfg.txqDepth)
    ∧ (v.getLsbD 10 = true ↔ s.stage.length = 255)
    ∧ ∀ i, 11 ≤ i → v.getLsbD i = false

/-- R29, R32, R33, R36-R39: in a state the block can be in, the length registers and the debug views show the numbers
they are views of, none of them cut by its field. -/
def Obligations.ViewsShowWholeNumbers : Prop :=
  ∀ s : State, Inv s →
    (regRead s 0x08#6).toNat = s.stage.length
      ∧ (regRead s 0x0B#6).toNat = s.rdBuf.length
      ∧ (regRead s 0x0C#6).toNat = s.rdBuf.length - s.rdPos
      ∧ (regRead s 0x0F#6).toNat = s.txCounter
      ∧ (regRead s 0x10#6).toNat = s.phase
      ∧ (regRead s 0x11#6).toNat = s.k
      ∧ (regRead s 0x12#6).toNat = s.rxBuf.length + 2 ^ 16 * s.rxBitcnt

/-! ## Rules of the whole machine -/

/-- R6, R135, R320: no step of any agent changes the configuration, and with it the ROM and the preamble. -/
def Obligations.ConfigurationNeverChanges : Prop :=
  ∀ s t : State, step s = .next t → t.cfg = s.cfg

/-- R292: the AUDIO and RX agents never write ERR, nor does a host access outside the list of R265: after a step that is no
reset, ERR is as before unless the event was a write of CTRL, CMD or TXDATA or a read of RXDATA. -/
def Obligations.OnlyListedAccessesWriteErr : Prop :=
  ∀ s t : State, step s = .next t → nextEvent s ≠ .reset → t.err ≠ s.err →
    ∃ txn, nextEvent s = .host txn ∧
      ((txn.write = true ∧ (txn.addr = 0x02 ∨ txn.addr = 0x03 ∨ txn.addr = 0x07)) ∨ (txn.write = false ∧ txn.addr = 0x0D))

/-- R201: only a successful TX_SEND changes FRAME_ID, by +1 modulo 256, and it queues one frame; reset sets FRAME_ID to
0. -/
def Obligations.OnlyTxSendMovesFrameId : Prop :=
  ∀ s t : State, step s = .next t →
    (nextEvent s = .reset → t.frameId = 0x00#8)
      ∧ (nextEvent s ≠ .reset → t.frameId ≠ s.frameId →
        ∃ txn dest, nextEvent s = .host txn ∧ txn.write = true ∧ txn.addr = 0x03
          ∧ decodeCommand txn.data = some (.txSend dest)
          ∧ t.frameId = s.frameId + 1 ∧ t.txq.length = s.txq.length + 1 ∧ t.err = .ok)

/-- R40, R305: BUF_COUNT goes up by one, modulo 2^32, at each AUDIO step, is set to 0 by reset, and is changed by nothing
else, CLR_STATS included. -/
def Obligations.BufCountCountsPeriods : Prop :=
  ∀ s t : State, step s = .next t →
    (nextEvent s = .reset → t.bufCount = 0)
      ∧ ((∃ input, nextEvent s = .audio input) → s.started = true → t.bufCount = s.bufCount + 1)
      ∧ (nextEvent s ≠ .reset → (∀ input, nextEvent s ≠ .audio input) ∨ s.started = false →
          t.bufCount = s.bufCount)

/-- R222, R296, R309: without a reset a started block stays started with its DEMOD_SEL, and a block whose START failed stays
so. -/
def Obligations.OnlyResetStopsTheBlock : Prop :=
  ∀ s t : State, step s = .next t → nextEvent s ≠ .reset →
    (s.started = true → t.started = true ∧ t.demodSel = s.demodSel)
      ∧ (s.initFailed = true → s.started = false → t.initFailed = true ∧ t.started = false)

/-- R326: TXQ grows only by a TX_SEND, and RXQ shrinks only by an RX_POP or a reset. -/
def Obligations.QueuesMoveOnlyForTheirOwners : Prop :=
  ∀ s t : State, step s = .next t →
    (s.txq.length < t.txq.length →
        ∃ txn dest, nextEvent s = .host txn ∧ decodeTxn txn = .ok (.wrCmd txn.data)
          ∧ decodeCommand txn.data = some (.txSend dest))
      ∧ (t.rxq.length < s.rxq.length →
        nextEvent s = .reset ∨
          ∃ txn, nextEvent s = .host txn ∧ decodeTxn txn = .ok (.wrCmd txn.data)
            ∧ decodeCommand txn.data = some .rxPop)

/-- R90: the stage belongs to the host: no AUDIO or RX step, nor a bit fed to the synchronizer, writes it, and none of them
depends on what it holds. -/
def Obligations.AgentsDoNotSeeTheStage : Prop :=
  ∀ (e : Event) (s : State) (x : List Byte), (∀ txn, e ≠ .host txn) → e ≠ .reset →
    ∃ t, runEvent e s = .next t ∧ t.stage = s.stage ∧ runEvent e { s with stage := x } = .next { t with stage := x }

/-- R150, R220, R303: an agent that is not enabled takes no step: the block's state is as before. -/
def Obligations.DisabledAgentsTakeNoStep : Prop :=
  ∀ s : State,
    (∀ input, s.started = false → runEvent (.audio input) s = .next s)
      ∧ (s.capq = [] → runEvent .rx s = .next s)

/-- R320, R64: a reset sets every register to its reset value, empties every queue and buffer, and keeps the configuration.
The environment's own fields stay (log entry 10). -/
def Obligations.ResetSetsEveryRegister : Prop :=
  ∀ s : State, configWf s.cfg = true →
    ∃ t, runEvent .reset s = .next t
      ∧ (∀ a : BitVec 6, regRead t a =
          if a = 0x00#6 then 0x46534B31#32 else if a = 0x02#6 then 0x00000003#32 else 0#32)
      ∧ t.cfg = s.cfg ∧ t.stage = [] ∧ t.txq = [] ∧ t.capq = [] ∧ t.rxq = [] ∧ t.win = []
      ∧ t.txFrame = [] ∧ t.txCounter = 0 ∧ t.rdBuf = [] ∧ t.rdPos = 0
      ∧ t.k = 0 ∧ t.rxBuf = [] ∧ t.rxCur = 0x00#8 ∧ t.rxBitcnt = 0 ∧ Unstarted t

/-- The invariant holds at `State.reset`, under the configuration the model takes there (log entry 1). -/
def Obligations.ResetMeetsTheInvariant : Prop := Inv State.reset

/-- Every step of every agent keeps the invariant: the bounds of R50, valid frames in the transmit path (R181), valid text
in the delivery path (R230), and the framer's and synchronizer's counters in range (R171, R229, R232). -/
def Obligations.StepsKeepTheInvariant : Prop :=
  ∀ s t : State, Inv s → step s = .next t → Inv t

/-! ## Tone ROM (40_tone_table.md) -/

/-- R131: a ROM word is the binary32 value nearest to the exact sine, ties to the even significand. -/
def Obligations.RomIsTheRoundedSine : Prop :=
  ∀ (c : Config) (sym : Bool) (t : Nat), 0 < c.sampleRate →
    IsFiniteF32 (romWord c sym t)
      ∧ ∀ v : Word, IsFiniteF32 v →
          |f32Real (romWord c sym t) - toneSine c sym t| ≤ |f32Real v - toneSine c sym t|
            ∧ (|f32Real (romWord c sym t) - toneSine c sym t| = |f32Real v - toneSine c sym t| →
                f32Real v ≠ f32Real (romWord c sym t) → (romWord c sym t).getLsbD 0 = false)

/-- R132: (a) the words lie in [-1, 1]; (b) they are within 2^-25 of the sine; (c) +0.0 where `2 F t / R` is an integer;
(d) +1.0 and -1.0 where it is `2m + 1/2` and `2m + 3/2`. -/
def Obligations.RomRangeAndExactWords : Prop :=
  ∀ (c : Config) (sym : Bool) (t : Nat), 0 < c.sampleRate →
    |f32Real (romWord c sym t)| ≤ 1
      ∧ |f32Real (romWord c sym t) - toneSine c sym t| ≤ 1 / 2 ^ 25
      ∧ (∀ m, 2 * c.freq sym * t = m * c.sampleRate → romWord c sym t = 0x00000000#32)
      ∧ (∀ m, 4 * c.freq sym * t = (4 * m + 1) * c.sampleRate → romWord c sym t = 0x3F800000#32)
      ∧ (∀ m, 4 * c.freq sym * t = (4 * m + 3) * c.sampleRate → romWord c sym t = 0xBF800000#32)

/-! ## Audio driver (41_audio_driver.md) -/

/-- R153, R159: from phase `p`, `n` samples of a symbol are `ROM[s][(p + j) mod T]`, each on both channels, and the phase
ends at `(p + n) mod T`. -/
def Obligations.SynthPlaysTheTable : Prop :=
  ∀ (c : Config) (sym : Bool) (n p : Nat), p < c.tableLen →
    synthFrom c sym n p =
      ((List.range n).flatMap fun j => [romWord c sym ((p + j) % c.tableLen), romWord c sym ((p + j) % c.tableLen)],
        (p + n) % c.tableLen)

/-- R152: CAPTURE with capture enabled and room in the FIFO pushes channel 0 of the input, word for word; with the FIFO full
it drops the buffer and counts it; disabled, it does nothing. -/
def Obligations.CaptureCopiesChannelZero : Prop :=
  ∀ (s : State) (input : List Word), 2 * s.cfg.nbuf ≤ input.length →
    (s.captureEn = true → s.capq.length < s.cfg.capqDepth →
        ∃ cap : List Word, capture input s = { s with capq := s.capq ++ [cap] } ∧ cap.length = s.cfg.nbuf
          ∧ ∀ i, i < s.cfg.nbuf → cap[i]? = input[2 * i]?)
      ∧ (s.captureEn = true → s.cfg.capqDepth ≤ s.capq.length →
        capture input s = { s with capDrop := s.capDrop + 1 })
      ∧ (s.captureEn = false → capture input s = s)

/-- R151, R153-R155, R175: one audio period of a started block, with its input given. It plays NBUF samples of the adopted
symbol, which is the mailbox's if it held one; the framer then publishes a symbol into the mailbox; ERR, the host's
registers and the receiver are as before. -/
def Obligations.AudioStepPlaysThenTicks : Prop :=
  ∀ (s : State) (input : List Word), s.started = true → 2 * s.cfg.nbuf ≤ input.length →
    ∃ t, runEvent (.audio input) s = .next t
      ∧ t.curSym = s.mbox.getD s.curSym
      ∧ t.out = .audio (synthFrom s.cfg (s.mbox.getD s.curSym) s.cfg.nbuf s.phase).1
      ∧ t.phase = (synthFrom s.cfg (s.mbox.getD s.curSym) s.cfg.nbuf s.phase).2
      ∧ t.capq = (capture input s).capq ∧ t.capDrop = (capture input s).capDrop
      ∧ t.mbox = some (framerSymbol s) ∧ t.lastSym = framerSymbol s
      ∧ t.txState = (framerAdvance s).txState ∧ t.txCounter = (framerAdvance s).txCounter
      ∧ t.txFrame = (framerAdvance s).txFrame ∧ t.txq = (framerAdvance s).txq ∧ t.txDone = (framerAdvance s).txDone
      ∧ t.bufCount = s.bufCount + 1
      ∧ t = { s with
          curSym := t.curSym, out := t.out, phase := t.phase, capq := t.capq, capDrop := t.capDrop, mbox := t.mbox,
          lastSym := t.lastSym, txState := t.txState, txCounter := t.txCounter, txFrame := t.txFrame, txq := t.txq,
          txDone := t.txDone, bufCount := t.bufCount }

/-- R84, R158: the symbol that one AUDIO step's tick publishes is the symbol the next AUDIO step plays. -/
def Obligations.PublishedSymbolPlaysNextPeriod : Prop :=
  ∀ (s : State) (input1 input2 : List Word), s.started = true →
    (audioTurn input2 (audioTurn input1 s)).curSym = (audioTurn input1 s).lastSym

/-! ## Transmit framer (42_tx_framer.md) -/

/-- R180: the serializer sends bit `7 - j mod 8` of byte `j div 8` as bit `j`, eight bits a byte. -/
def Obligations.BitbufIsMsbFirst : Prop :=
  ∀ frame : List Byte, (bitbuf frame).length = 8 * frame.length ∧
    ∀ j, j < 8 * frame.length → (bitbuf frame)[j]? = (frame[j / 8]?).map fun b => b.getLsbD (7 - j % 8)

/-- R171-R175, R177: one tick in each state of the framer. Idle publishes the last symbol, and pops the head of the queue if
there is one; SendingPreamble and SendingPacket publish the bit under the counter, and on the last one go on to the next
state. The published symbol overwrites the mailbox. Nothing else changes. -/
def Obligations.FramerTickOutcomes : Prop :=
  ∀ s : State,
    (s.txState = .idle → s.txq = [] → framerTick s = { s with mbox := some s.lastSym })
      ∧ (∀ frame rest, s.txState = .idle → s.txq = frame :: rest →
        framerTick s = { s with
          txq := rest, txFrame := frame, txCounter := 0, txState := .sendingPreamble, mbox := some s.lastSym })
      ∧ (∀ b, s.txState = .sendingPreamble → s.cfg.preamble[s.txCounter]? = some b →
        (s.txCounter + 1 ≠ s.cfg.preambleLen →
            framerTick s = { s with txCounter := s.txCounter + 1, lastSym := b, mbox := some b })
          ∧ (s.txCounter + 1 = s.cfg.preambleLen →
            framerTick s = { s with txCounter := 0, txState := .sendingPacket, lastSym := b, mbox := some b }))
      ∧ (∀ b, s.txState = .sendingPacket → (bitbuf s.txFrame)[s.txCounter]? = some b →
        (s.txCounter + 1 ≠ 8 * s.txFrame.length →
            framerTick s = { s with txCounter := s.txCounter + 1, lastSym := b, mbox := some b })
          ∧ (s.txCounter + 1 = 8 * s.txFrame.length →
            framerTick s = { s with
              txCounter := 0, txFrame := [], txState := .idle, txDone := s.txDone + 1, lastSym := b, mbox := some b }))

/-- R178, R172-R175: from Idle with a frame of `F` bytes at the queue's head, `1 + L + 8F` audio periods publish the last
symbol, the preamble, and the frame's bits; then the framer is Idle again, the rest of the queue is untouched, and
TX_DONE_COUNT is one higher. -/
def Obligations.FrameIsPublishedWhole : Prop :=
  ∀ (s : State) (frame : List Byte) (rest : List (List Byte)) (inputs : List (List Word)),
    Inv s → s.started = true → s.txState = .idle → s.txq = frame :: rest →
      inputs.length = 1 + s.cfg.preambleLen + 8 * frame.length →
        published inputs s = s.lastSym :: (s.cfg.preamble ++ bitbuf frame)
          ∧ (periods inputs s).txState = .idle ∧ (periods inputs s).txq = rest
          ∧ (periods inputs s).txFrame = [] ∧ (periods inputs s).txDone = s.txDone + 1

/-! ## Packet codec (43_packet_codec.md) -/

/-- R193, R194: an encoded frame is the header, the payload and one checksum byte, and folds to 0; if its payload is valid text
of at most 255 bytes it decodes to the packet it was encoded from. -/
def Obligations.EncodedFramesDecodeBack : Prop :=
  ∀ (c : Config) (dest src id : Byte) (payload : List Byte),
    ∃ checksum : Byte,
      encodeFrame dest src id payload = [dest, src, id, BitVec.ofNat 8 payload.length] ++ payload ++ [checksum]
        ∧ xorfold (encodeFrame dest src id payload) = 0x00#8
        ∧ (payload.length ≤ 255 → textValid c payload = true →
          decodeFrame c (encodeFrame dest src id payload)
            = .packet ⟨dest, src, id, BitVec.ofNat 8 payload.length, payload, checksum⟩)

/-- R194, R195: the verdict of decode on any bytes. -/
def Obligations.DecodeVerdicts : Prop :=
  ∀ (c : Config) (b : List Byte),
    let P := (b.getD 3 0x00#8).toNat
    let payload := (b.drop 4).take P
    (xorfold b ≠ 0x00#8 → decodeFrame c b = .checksumMismatch)
      ∧ (xorfold b = 0x00#8 → b.length < 5 ∨ b.length ≠ 5 + P ∨ textValid c payload = false →
          decodeFrame c b = .deserializeError)
      ∧ (xorfold b = 0x00#8 → b.length = 5 + P → textValid c payload = true →
          ∀ dest src id checksum, b[0]? = some dest → b[1]? = some src → b[2]? = some id → b[4 + P]? = some checksum →
            decodeFrame c b = .packet ⟨dest, src, id, BitVec.ofNat 8 P, payload, checksum⟩)

/-- R196: the default TEXT_VALID is UTF-8 well-formedness: splitting into the forms of the table. -/
def Obligations.TextIsWellFormedUtf8 : Prop :=
  ∀ (c : Config) (p : List Byte), c.textRule = .utf8 →
    (textValid c p = true ↔ ∃ forms : List (List Byte), (∀ f ∈ forms, IsUtf8Form f) ∧ forms.flatten = p)

/-- R197: flipping one bit changes the fold by that bit's mask; an odd number of flipped bits in a frame is always found, as
ChecksumMismatch; a pattern with an even number of flips in every column leaves the fold as it was. -/
def Obligations.ChecksumFindsOddFlips : Prop :=
  ∀ frame flips : List Byte, frame.length = flips.length →
    (∀ (j i : Nat), j < frame.length → i < 8 → flips = (List.replicate frame.length 0x00#8).set j (1#8 <<< i) →
        xorfold (flipBits frame flips) = xorfold frame ^^^ (1#8 <<< i))
      ∧ (∀ c, xorfold frame = 0x00#8 → (flips.map weight).sum % 2 = 1 →
        decodeFrame c (flipBits frame flips) = .checksumMismatch)
      ∧ ((∀ i, i < 8 → flips.countP (fun b => b.getLsbD i) % 2 = 0) → xorfold (flipBits frame flips) = xorfold frame)

/-! ## Receiver (44_rx_sync_demod.md) -/

/-- R221, R226: with DEMOD_SEL = 0 an RX step pops the oldest capture buffer and feeds the synchronizer the bit that
THRESH_DECIDE gives for its words. -/
def Obligations.ThresholdStepFeedsOneBit : Prop :=
  ∀ (s : State) (cap : List Word) (rest : List (List Word)), s.demodSel = false → s.capq = cap :: rest →
    runEvent .rx s = .next (syncBit (Config.threshDecide s.cfg.threshRule cap) { s with capq := rest })

/-- R221, R223: with DEMOD_SEL = 1 an RX step slides the window: it grows by the new capture while it is not full, and then
drops its oldest buffer; before it is full no bit is fed, and from then on each step feeds one: the decision's, or a draw. -/
def Obligations.SpectralStepSlidesTheWindow : Prop :=
  ∀ (s : State) (cap : List Word) (rest : List (List Word)), Inv s → s.demodSel = true → s.capq = cap :: rest →
    (s.win.length + s.cfg.nbuf < s.cfg.winBufs * s.cfg.nbuf →
        runEvent .rx s = .next { s with capq := rest, win := s.win ++ cap })
      ∧ (s.win.length + s.cfg.nbuf = s.cfg.winBufs * s.cfg.nbuf →
        ∃ b d, (∀ v, decideWindow s.cfg (s.win ++ cap) = .symbol v → b = v ∧ d = s.draws)
          ∧ runEvent .rx s = .next (syncBit b { s with capq := rest, win := s.win ++ cap, draws := d }))
      ∧ (s.win.length = s.cfg.winBufs * s.cfg.nbuf →
        ∃ b d, (∀ v, decideWindow s.cfg (s.win.drop s.cfg.nbuf ++ cap) = .symbol v → b = v ∧ d = s.draws)
          ∧ runEvent .rx s =
            .next (syncBit b { s with capq := rest, win := s.win.drop s.cfg.nbuf ++ cap, draws := d }))

/-- R224, R225: the decision is right: on a window of finite samples a bit that is no draw is the symbol whose energy
dominates by more than the tolerance, or 0 on an exact tie with tolerance 0; a window with a NaN or infinite sample is a
draw. That the tolerance is a rational number is the model's (log entry 2). -/
def Obligations.SpectralDecisionIsRight : Prop :=
  ∀ (c : Config) (x : List Word), configWf c = true →
    ((∀ w ∈ x, IsFiniteF32 w) →
        (decideWindow c x = .symbol true →
            tolerance c * (energy c false x + energy c true x) < energy c true x - energy c false x)
          ∧ (decideWindow c x = .symbol false →
            tolerance c * (energy c false x + energy c true x) < energy c false x - energy c true x
              ∨ (tolerance c = 0 ∧ energy c false x = energy c true x)))
      ∧ ((∃ w ∈ x, ¬IsFiniteF32 w) → decideWindow c x = .draw)

/-- R225: the decision is made whenever the rule fixes it: on a window of finite samples the dominant symbol is returned
whenever the energies differ by more than the tolerance, and 0 on an exact tie with tolerance 0. That the tolerance is a
rational number is the model's (log entry 2). -/
def Obligations.SpectralDecisionIsMade : Prop :=
  ∀ (c : Config) (x : List Word), configWf c = true → (∀ w ∈ x, IsFiniteF32 w) →
    (tolerance c * (energy c false x + energy c true x) < energy c true x - energy c false x →
        decideWindow c x = .symbol true)
      ∧ (tolerance c * (energy c false x + energy c true x) < energy c false x - energy c true x →
        decideWindow c x = .symbol false)
      ∧ (tolerance c = 0 → energy c false x = energy c true x → decideWindow c x = .symbol false)

/-- R221, R222, R292: an RX step writes the capture FIFO, the window and the receiver's own state, and nothing else. -/
def Obligations.RxStepWritesTheReceiverOnly : Prop :=
  ∀ s : State, ∃ t, runEvent .rx s = .next t
    ∧ t = { s with
        capq := t.capq, win := t.win, draws := t.draws, rxState := t.rxState, k := t.k, rxBuf := t.rxBuf,
        rxCur := t.rxCur, rxBitcnt := t.rxBitcnt, rxq := t.rxq, cksErr := t.cksErr, deserErr := t.deserErr,
        rxqDrop := t.rxqDrop, rxOk := t.rxOk, rxLastEvt := t.rxLastEvt }

/-- R231: MATCH_STEP(k, b) is the largest `j <= k+1` such that the first `j` bits of PREAMBLE are the last `j` of its first
`k` bits with `b` appended. -/
def Obligations.MatchStepIsTheLongestPrefix : Prop :=
  ∀ (pattern : List Bool) (k : Nat) (b : Bool), k < pattern.length →
    matchStep pattern k b ≤ k + 1
      ∧ pattern.take (matchStep pattern k b) <:+ pattern.take k ++ [b]
      ∧ ∀ j, j ≤ k + 1 → pattern.take j <:+ pattern.take k ++ [b] → j ≤ matchStep pattern k b

/-- R232: while PREAMBLE has not occurred in the bits seen, the synchronizer stays in SearchingPreamble, touches nothing but
its match index, and that index is the length of the longest prefix of PREAMBLE that the bits seen end with. The bits seen
before are those the match index stands for. -/
def Obligations.SearchTracksTheLongestPrefix : Prop :=
  ∀ (s : State) (bits : List Bool), Inv s → s.rxState = .searchingPreamble →
    let seen := s.cfg.preamble.take s.k ++ bits
    NotBeforeEnd s.cfg.preamble seen → ¬ s.cfg.preamble <:+ seen →
      ∃ j, feed bits s = { s with k := j } ∧ j < s.cfg.preambleLen ∧ s.cfg.preamble.take j <:+ seen
        ∧ ∀ j', j' < s.cfg.preambleLen → s.cfg.preamble.take j' <:+ seen → j' ≤ j

/-- R232: the synchronizer locks on the bit that ends the first occurrence of PREAMBLE, and not before; on the lock its match
index is 0 and its receive buffer is empty. -/
def Obligations.LockFallsOnThePreamblesEnd : Prop :=
  ∀ (s : State) (bits : List Bool), Inv s → s.rxState = .searchingPreamble → bits ≠ [] →
    let seen := s.cfg.preamble.take s.k ++ bits
    NotBeforeEnd s.cfg.preamble seen → s.cfg.preamble <:+ seen →
      (∀ q, q <+: bits → q ≠ bits → (feed q s).rxState = .searchingPreamble)
        ∧ feed bits s =
          { s with rxState := .receivingPacket, k := 0, rxBuf := [], rxCur := 0x00#8, rxBitcnt := 0 }

/-- R228, R229: in ReceivingPacket at a byte boundary, the bits of bytes that do not complete the frame are appended to the
receive buffer, most significant bit first, and nothing else changes. -/
def Obligations.BitsAssembleIntoBytes : Prop :=
  ∀ (s : State) (bytes : List Byte), s.rxState = .receivingPacket → s.rxCur = 0x00#8 → s.rxBitcnt = 0 →
    (∀ m, m ≤ bytes.length → 4 ≤ (s.rxBuf ++ bytes.take m).length →
        (s.rxBuf ++ bytes.take m).length ≠ 5 + ((s.rxBuf ++ bytes.take m).getD 3 0x00#8).toNat) →
      feed (bitbuf bytes) s = { s with rxBuf := s.rxBuf ++ bytes }

/-- R230, R298: the four outcomes of a complete frame, in order: bad fold, bad text, delivery queue full, delivered. In each
the synchronizer is back in SearchingPreamble with everything cleared. -/
def Obligations.FrameDoneOutcomes : Prop :=
  ∀ s : State, s.rxBuf.length = 5 + (s.rxBuf.getD 3 0x00#8).toNat →
    let payload := (s.rxBuf.drop 4).take (s.rxBuf.getD 3 0x00#8).toNat
    let after : State :=
      { s with rxState := .searchingPreamble, k := 0, rxBuf := [], rxCur := 0x00#8, rxBitcnt := 0 }
    (xorfold s.rxBuf ≠ 0x00#8 →
        frameDone s = { after with cksErr := s.cksErr + 1, rxLastEvt := .checksumMismatch })
      ∧ (xorfold s.rxBuf = 0x00#8 → textValid s.cfg payload = false →
        frameDone s = { after with deserErr := s.deserErr + 1, rxLastEvt := .deserializeError })
      ∧ (xorfold s.rxBuf = 0x00#8 → textValid s.cfg payload = true → s.rxq.length = s.cfg.rxqDepth →
        frameDone s = { after with rxqDrop := s.rxqDrop + 1, rxLastEvt := .rxqDrop })
      ∧ (xorfold s.rxBuf = 0x00#8 → textValid s.cfg payload = true → s.rxq.length ≠ s.cfg.rxqDepth →
        frameDone s = { after with
          rxq := s.rxq ++ [payload], rxOk := s.rxOk + 1, rxLastEvt := .delivered })

/-- R235, the preamble lock property: noise without an earlier occurrence of PREAMBLE, then PREAMBLE, then a valid frame:
the synchronizer locks exactly at the preamble's end and delivers the frame's payload. The bits the match index stands for
count as noise, so that the statement holds from every searching state. -/
def Obligations.PreambleThenFrameIsDelivered : Prop :=
  ∀ (s : State) (noise : List Bool) (dest src id : Byte) (payload : List Byte),
    Inv s → s.rxState = .searchingPreamble → payload.length ≤ 255 → textValid s.cfg payload = true →
      s.rxq.length < s.cfg.rxqDepth →
        NotBeforeEnd s.cfg.preamble (s.cfg.preamble.take s.k ++ noise ++ s.cfg.preamble) →
          (feed (noise ++ s.cfg.preamble) s).rxState = .receivingPacket
            ∧ feed (noise ++ s.cfg.preamble ++ bitbuf (encodeFrame dest src id payload)) s =
              { s with
                rxState := .searchingPreamble, k := 0, rxBuf := [], rxCur := 0x00#8, rxBitcnt := 0,
                rxq := s.rxq ++ [payload], rxOk := s.rxOk + 1, rxLastEvt := .delivered }

/-- R236, the round trip for one frame: TX_SEND on one block, and then the bits its framer publishes over a lossless channel
into another block of the same configuration, deliver exactly the staged bytes. The symbol before the preamble is the
sender's last symbol; with the bits the receiver's match index stands for it is the noise of R235 (b). -/
def Obligations.SentPayloadIsDelivered : Prop :=
  ∀ (tx rx queued : State) (dest : Byte) (inputs : List (List Word)),
    Inv tx → Inv rx → tx.cfg = rx.cfg → tx.started = true → tx.txState = .idle → tx.txq = [] →
      exec (.txSend dest) tx = .next queued →
        inputs.length = 1 + tx.cfg.preambleLen + 8 * (tx.stage.length + 5) →
          rx.rxState = .searchingPreamble → rx.rxq.length < rx.cfg.rxqDepth → textValid tx.cfg tx.stage = true →
            NotBeforeEnd rx.cfg.preamble (rx.cfg.preamble.take rx.k ++ [tx.lastSym] ++ rx.cfg.preamble) →
              (feed (published inputs queued) rx).rxq = rx.rxq ++ [tx.stage]
                ∧ (feed (published inputs queued) rx).rxLastEvt = .delivered
end

