-- ==== Sys2Proof/Laws/Framer.lean ====
section
/-! SUPPORT. The serializer and what a framer step can do. -/

namespace Sys2Proof.Machine

@[simp] theorem byteBits_length (b : Byte) : (byteBits b).length = 8 := rfl

@[simp] theorem bitbuf_nil : bitbuf [] = [] := rfl

@[simp] theorem bitbuf_cons (b : Byte) (frame : List Byte) : bitbuf (b :: frame) = byteBits b ++ bitbuf frame := rfl

@[simp] theorem bitbuf_append (f g : List Byte) : bitbuf (f ++ g) = bitbuf f ++ bitbuf g := by
  simp [bitbuf]

@[simp] theorem length_bitbuf (frame : List Byte) : (bitbuf frame).length = 8 * frame.length := by
  induction frame with
  | nil => rfl
  | cons b frame ih => simp [ih]; omega

/-- The framer's transition moves its own state, its frame, its counter, the queue and TX_DONE_COUNT: six ways. -/
theorem framerAdvance_cases (s : State) :
    (s.txState = .idle ∧ s.txq = [] ∧ framerAdvance s = s)
      ∨ (∃ frame rest, s.txState = .idle ∧ s.txq = frame :: rest ∧ framerAdvance s =
          { s with txq := rest, txFrame := frame, txCounter := 0, txState := .sendingPreamble })
      ∨ (s.txState = .sendingPreamble ∧ s.txCounter + 1 = s.cfg.preambleLen ∧
          framerAdvance s = { s with txCounter := 0, txState := .sendingPacket })
      ∨ (s.txState = .sendingPreamble ∧ s.txCounter + 1 ≠ s.cfg.preambleLen ∧
          framerAdvance s = { s with txCounter := s.txCounter + 1 })
      ∨ (s.txState = .sendingPacket ∧ s.txCounter + 1 = 8 * s.txFrame.length ∧ framerAdvance s =
          { s with txCounter := 0, txFrame := [], txState := .idle, txDone := s.txDone + 1 })
      ∨ (s.txState = .sendingPacket ∧ s.txCounter + 1 ≠ 8 * s.txFrame.length ∧
          framerAdvance s = { s with txCounter := s.txCounter + 1 }) := by
  unfold framerAdvance
  split
  · split
    · exact .inl ⟨‹_›, ‹_›, rfl⟩
    · exact .inr (.inl ⟨_, _, ‹_›, ‹_›, rfl⟩)
  · split
    · exact .inr (.inr (.inl ⟨‹_›, ‹_›, rfl⟩))
    · exact .inr (.inr (.inr (.inl ⟨‹_›, ‹_›, rfl⟩)))
  · split
    · exact .inr (.inr (.inr (.inr (.inl ⟨‹_›, ‹_›, rfl⟩))))
    · exact .inr (.inr (.inr (.inr (.inr ⟨‹_›, ‹_›, rfl⟩))))

/-- What a tick leaves alone. -/
theorem framerTick_frame (s : State) :
    ∃ t : State, framerTick s = { s with
      txq := t.txq, txFrame := t.txFrame, txCounter := t.txCounter, txState := t.txState, txDone := t.txDone,
      lastSym := framerSymbol s, mbox := some (framerSymbol s) } := by
  refine ⟨framerAdvance s, ?_⟩
  unfold framerTick
  rcases framerAdvance_cases s with h | ⟨_, _, h⟩ | h | h | h | h <;> rw [h.2.2]

@[simp] theorem framerTick_lastSym (s : State) : (framerTick s).lastSym = framerSymbol s := rfl

@[simp] theorem framerTick_mbox (s : State) : (framerTick s).mbox = some (framerSymbol s) := rfl

end Sys2Proof.Machine
end

