-- ==== Sys2Proof/Laws/State.lean ====
section
/-! SUPPORT. What each named update of the state does to each field: one lemma per field and update, true by `rfl`. -/

namespace Sys2Proof.Machine

/-! ## `State.raise` -/

@[simp] theorem State.raise_cfg (s : State) (e : ErrCode) : (s.raise e).cfg = s.cfg := rfl
@[simp] theorem State.raise_started (s : State) (e : ErrCode) : (s.raise e).started = s.started := rfl
@[simp] theorem State.raise_initFailed (s : State) (e : ErrCode) : (s.raise e).initFailed = s.initFailed := rfl
@[simp] theorem State.raise_captureEn (s : State) (e : ErrCode) : (s.raise e).captureEn = s.captureEn := rfl
@[simp] theorem State.raise_demodSel (s : State) (e : ErrCode) : (s.raise e).demodSel = s.demodSel := rfl
@[simp] theorem State.raise_err (s : State) (e : ErrCode) : (s.raise e).err = e := rfl
@[simp] theorem State.raise_localId (s : State) (e : ErrCode) : (s.raise e).localId = s.localId := rfl
@[simp] theorem State.raise_frameId (s : State) (e : ErrCode) : (s.raise e).frameId = s.frameId := rfl
@[simp] theorem State.raise_stage (s : State) (e : ErrCode) : (s.raise e).stage = s.stage := rfl
@[simp] theorem State.raise_txq (s : State) (e : ErrCode) : (s.raise e).txq = s.txq := rfl
@[simp] theorem State.raise_txState (s : State) (e : ErrCode) : (s.raise e).txState = s.txState := rfl
@[simp] theorem State.raise_txCounter (s : State) (e : ErrCode) : (s.raise e).txCounter = s.txCounter := rfl
@[simp] theorem State.raise_txFrame (s : State) (e : ErrCode) : (s.raise e).txFrame = s.txFrame := rfl
@[simp] theorem State.raise_lastSym (s : State) (e : ErrCode) : (s.raise e).lastSym = s.lastSym := rfl
@[simp] theorem State.raise_mbox (s : State) (e : ErrCode) : (s.raise e).mbox = s.mbox := rfl
@[simp] theorem State.raise_curSym (s : State) (e : ErrCode) : (s.raise e).curSym = s.curSym := rfl
@[simp] theorem State.raise_phase (s : State) (e : ErrCode) : (s.raise e).phase = s.phase := rfl
@[simp] theorem State.raise_capq (s : State) (e : ErrCode) : (s.raise e).capq = s.capq := rfl
@[simp] theorem State.raise_win (s : State) (e : ErrCode) : (s.raise e).win = s.win := rfl
@[simp] theorem State.raise_rxState (s : State) (e : ErrCode) : (s.raise e).rxState = s.rxState := rfl
@[simp] theorem State.raise_k (s : State) (e : ErrCode) : (s.raise e).k = s.k := rfl
@[simp] theorem State.raise_rxBuf (s : State) (e : ErrCode) : (s.raise e).rxBuf = s.rxBuf := rfl
@[simp] theorem State.raise_rxCur (s : State) (e : ErrCode) : (s.raise e).rxCur = s.rxCur := rfl
@[simp] theorem State.raise_rxBitcnt (s : State) (e : ErrCode) : (s.raise e).rxBitcnt = s.rxBitcnt := rfl
@[simp] theorem State.raise_rxq (s : State) (e : ErrCode) : (s.raise e).rxq = s.rxq := rfl
@[simp] theorem State.raise_rdBuf (s : State) (e : ErrCode) : (s.raise e).rdBuf = s.rdBuf := rfl
@[simp] theorem State.raise_rdPos (s : State) (e : ErrCode) : (s.raise e).rdPos = s.rdPos := rfl
@[simp] theorem State.raise_toneData (s : State) (e : ErrCode) : (s.raise e).toneData = s.toneData := rfl
@[simp] theorem State.raise_bufCount (s : State) (e : ErrCode) : (s.raise e).bufCount = s.bufCount := rfl
@[simp] theorem State.raise_cksErr (s : State) (e : ErrCode) : (s.raise e).cksErr = s.cksErr := rfl
@[simp] theorem State.raise_deserErr (s : State) (e : ErrCode) : (s.raise e).deserErr = s.deserErr := rfl
@[simp] theorem State.raise_capDrop (s : State) (e : ErrCode) : (s.raise e).capDrop = s.capDrop := rfl
@[simp] theorem State.raise_rxqDrop (s : State) (e : ErrCode) : (s.raise e).rxqDrop = s.rxqDrop := rfl
@[simp] theorem State.raise_txDone (s : State) (e : ErrCode) : (s.raise e).txDone = s.txDone := rfl
@[simp] theorem State.raise_rxOk (s : State) (e : ErrCode) : (s.raise e).rxOk = s.rxOk := rfl
@[simp] theorem State.raise_rxLastEvt (s : State) (e : ErrCode) : (s.raise e).rxLastEvt = s.rxLastEvt := rfl
@[simp] theorem State.raise_schedule (s : State) (e : ErrCode) : (s.raise e).schedule = s.schedule := rfl
@[simp] theorem State.raise_audioOk (s : State) (e : ErrCode) : (s.raise e).audioOk = s.audioOk := rfl
@[simp] theorem State.raise_draws (s : State) (e : ErrCode) : (s.raise e).draws = s.draws := rfl
@[simp] theorem State.raise_out (s : State) (e : ErrCode) : (s.raise e).out = s.out := rfl

/-! ## `State.succeed` -/

@[simp] theorem State.succeed_cfg (s : State) : s.succeed.cfg = s.cfg := rfl
@[simp] theorem State.succeed_started (s : State) : s.succeed.started = s.started := rfl
@[simp] theorem State.succeed_initFailed (s : State) : s.succeed.initFailed = s.initFailed := rfl
@[simp] theorem State.succeed_captureEn (s : State) : s.succeed.captureEn = s.captureEn := rfl
@[simp] theorem State.succeed_demodSel (s : State) : s.succeed.demodSel = s.demodSel := rfl
@[simp] theorem State.succeed_err (s : State) : s.succeed.err = .ok := rfl
@[simp] theorem State.succeed_localId (s : State) : s.succeed.localId = s.localId := rfl
@[simp] theorem State.succeed_frameId (s : State) : s.succeed.frameId = s.frameId := rfl
@[simp] theorem State.succeed_stage (s : State) : s.succeed.stage = s.stage := rfl
@[simp] theorem State.succeed_txq (s : State) : s.succeed.txq = s.txq := rfl
@[simp] theorem State.succeed_txState (s : State) : s.succeed.txState = s.txState := rfl
@[simp] theorem State.succeed_txCounter (s : State) : s.succeed.txCounter = s.txCounter := rfl
@[simp] theorem State.succeed_txFrame (s : State) : s.succeed.txFrame = s.txFrame := rfl
@[simp] theorem State.succeed_lastSym (s : State) : s.succeed.lastSym = s.lastSym := rfl
@[simp] theorem State.succeed_mbox (s : State) : s.succeed.mbox = s.mbox := rfl
@[simp] theorem State.succeed_curSym (s : State) : s.succeed.curSym = s.curSym := rfl
@[simp] theorem State.succeed_phase (s : State) : s.succeed.phase = s.phase := rfl
@[simp] theorem State.succeed_capq (s : State) : s.succeed.capq = s.capq := rfl
@[simp] theorem State.succeed_win (s : State) : s.succeed.win = s.win := rfl
@[simp] theorem State.succeed_rxState (s : State) : s.succeed.rxState = s.rxState := rfl
@[simp] theorem State.succeed_k (s : State) : s.succeed.k = s.k := rfl
@[simp] theorem State.succeed_rxBuf (s : State) : s.succeed.rxBuf = s.rxBuf := rfl
@[simp] theorem State.succeed_rxCur (s : State) : s.succeed.rxCur = s.rxCur := rfl
@[simp] theorem State.succeed_rxBitcnt (s : State) : s.succeed.rxBitcnt = s.rxBitcnt := rfl
@[simp] theorem State.succeed_rxq (s : State) : s.succeed.rxq = s.rxq := rfl
@[simp] theorem State.succeed_rdBuf (s : State) : s.succeed.rdBuf = s.rdBuf := rfl
@[simp] theorem State.succeed_rdPos (s : State) : s.succeed.rdPos = s.rdPos := rfl
@[simp] theorem State.succeed_toneData (s : State) : s.succeed.toneData = s.toneData := rfl
@[simp] theorem State.succeed_bufCount (s : State) : s.succeed.bufCount = s.bufCount := rfl
@[simp] theorem State.succeed_cksErr (s : State) : s.succeed.cksErr = s.cksErr := rfl
@[simp] theorem State.succeed_deserErr (s : State) : s.succeed.deserErr = s.deserErr := rfl
@[simp] theorem State.succeed_capDrop (s : State) : s.succeed.capDrop = s.capDrop := rfl
@[simp] theorem State.succeed_rxqDrop (s : State) : s.succeed.rxqDrop = s.rxqDrop := rfl
@[simp] theorem State.succeed_txDone (s : State) : s.succeed.txDone = s.txDone := rfl
@[simp] theorem State.succeed_rxOk (s : State) : s.succeed.rxOk = s.rxOk := rfl
@[simp] theorem State.succeed_rxLastEvt (s : State) : s.succeed.rxLastEvt = s.rxLastEvt := rfl
@[simp] theorem State.succeed_schedule (s : State) : s.succeed.schedule = s.schedule := rfl
@[simp] theorem State.succeed_audioOk (s : State) : s.succeed.audioOk = s.audioOk := rfl
@[simp] theorem State.succeed_draws (s : State) : s.succeed.draws = s.draws := rfl
@[simp] theorem State.succeed_out (s : State) : s.succeed.out = s.out := rfl

/-! ## `State.respond` -/

@[simp] theorem State.respond_cfg (s : State) (v : Word) : (s.respond v).cfg = s.cfg := rfl
@[simp] theorem State.respond_started (s : State) (v : Word) : (s.respond v).started = s.started := rfl
@[simp] theorem State.respond_initFailed (s : State) (v : Word) : (s.respond v).initFailed = s.initFailed := rfl
@[simp] theorem State.respond_captureEn (s : State) (v : Word) : (s.respond v).captureEn = s.captureEn := rfl
@[simp] theorem State.respond_demodSel (s : State) (v : Word) : (s.respond v).demodSel = s.demodSel := rfl
@[simp] theorem State.respond_err (s : State) (v : Word) : (s.respond v).err = s.err := rfl
@[simp] theorem State.respond_localId (s : State) (v : Word) : (s.respond v).localId = s.localId := rfl
@[simp] theorem State.respond_frameId (s : State) (v : Word) : (s.respond v).frameId = s.frameId := rfl
@[simp] theorem State.respond_stage (s : State) (v : Word) : (s.respond v).stage = s.stage := rfl
@[simp] theorem State.respond_txq (s : State) (v : Word) : (s.respond v).txq = s.txq := rfl
@[simp] theorem State.respond_txState (s : State) (v : Word) : (s.respond v).txState = s.txState := rfl
@[simp] theorem State.respond_txCounter (s : State) (v : Word) : (s.respond v).txCounter = s.txCounter := rfl
@[simp] theorem State.respond_txFrame (s : State) (v : Word) : (s.respond v).txFrame = s.txFrame := rfl
@[simp] theorem State.respond_lastSym (s : State) (v : Word) : (s.respond v).lastSym = s.lastSym := rfl
@[simp] theorem State.respond_mbox (s : State) (v : Word) : (s.respond v).mbox = s.mbox := rfl
@[simp] theorem State.respond_curSym (s : State) (v : Word) : (s.respond v).curSym = s.curSym := rfl
@[simp] theorem State.respond_phase (s : State) (v : Word) : (s.respond v).phase = s.phase := rfl
@[simp] theorem State.respond_capq (s : State) (v : Word) : (s.respond v).capq = s.capq := rfl
@[simp] theorem State.respond_win (s : State) (v : Word) : (s.respond v).win = s.win := rfl
@[simp] theorem State.respond_rxState (s : State) (v : Word) : (s.respond v).rxState = s.rxState := rfl
@[simp] theorem State.respond_k (s : State) (v : Word) : (s.respond v).k = s.k := rfl
@[simp] theorem State.respond_rxBuf (s : State) (v : Word) : (s.respond v).rxBuf = s.rxBuf := rfl
@[simp] theorem State.respond_rxCur (s : State) (v : Word) : (s.respond v).rxCur = s.rxCur := rfl
@[simp] theorem State.respond_rxBitcnt (s : State) (v : Word) : (s.respond v).rxBitcnt = s.rxBitcnt := rfl
@[simp] theorem State.respond_rxq (s : State) (v : Word) : (s.respond v).rxq = s.rxq := rfl
@[simp] theorem State.respond_rdBuf (s : State) (v : Word) : (s.respond v).rdBuf = s.rdBuf := rfl
@[simp] theorem State.respond_rdPos (s : State) (v : Word) : (s.respond v).rdPos = s.rdPos := rfl
@[simp] theorem State.respond_toneData (s : State) (v : Word) : (s.respond v).toneData = s.toneData := rfl
@[simp] theorem State.respond_bufCount (s : State) (v : Word) : (s.respond v).bufCount = s.bufCount := rfl
@[simp] theorem State.respond_cksErr (s : State) (v : Word) : (s.respond v).cksErr = s.cksErr := rfl
@[simp] theorem State.respond_deserErr (s : State) (v : Word) : (s.respond v).deserErr = s.deserErr := rfl
@[simp] theorem State.respond_capDrop (s : State) (v : Word) : (s.respond v).capDrop = s.capDrop := rfl
@[simp] theorem State.respond_rxqDrop (s : State) (v : Word) : (s.respond v).rxqDrop = s.rxqDrop := rfl
@[simp] theorem State.respond_txDone (s : State) (v : Word) : (s.respond v).txDone = s.txDone := rfl
@[simp] theorem State.respond_rxOk (s : State) (v : Word) : (s.respond v).rxOk = s.rxOk := rfl
@[simp] theorem State.respond_rxLastEvt (s : State) (v : Word) : (s.respond v).rxLastEvt = s.rxLastEvt := rfl
@[simp] theorem State.respond_schedule (s : State) (v : Word) : (s.respond v).schedule = s.schedule := rfl
@[simp] theorem State.respond_audioOk (s : State) (v : Word) : (s.respond v).audioOk = s.audioOk := rfl
@[simp] theorem State.respond_draws (s : State) (v : Word) : (s.respond v).draws = s.draws := rfl
@[simp] theorem State.respond_out (s : State) (v : Word) : (s.respond v).out = .read v := rfl

/-! ## `State.emit` -/

@[simp] theorem State.emit_cfg (s : State) (buf : List Word) : (s.emit buf).cfg = s.cfg := rfl
@[simp] theorem State.emit_started (s : State) (buf : List Word) : (s.emit buf).started = s.started := rfl
@[simp] theorem State.emit_initFailed (s : State) (buf : List Word) : (s.emit buf).initFailed = s.initFailed := rfl
@[simp] theorem State.emit_captureEn (s : State) (buf : List Word) : (s.emit buf).captureEn = s.captureEn := rfl
@[simp] theorem State.emit_demodSel (s : State) (buf : List Word) : (s.emit buf).demodSel = s.demodSel := rfl
@[simp] theorem State.emit_err (s : State) (buf : List Word) : (s.emit buf).err = s.err := rfl
@[simp] theorem State.emit_localId (s : State) (buf : List Word) : (s.emit buf).localId = s.localId := rfl
@[simp] theorem State.emit_frameId (s : State) (buf : List Word) : (s.emit buf).frameId = s.frameId := rfl
@[simp] theorem State.emit_stage (s : State) (buf : List Word) : (s.emit buf).stage = s.stage := rfl
@[simp] theorem State.emit_txq (s : State) (buf : List Word) : (s.emit buf).txq = s.txq := rfl
@[simp] theorem State.emit_txState (s : State) (buf : List Word) : (s.emit buf).txState = s.txState := rfl
@[simp] theorem State.emit_txCounter (s : State) (buf : List Word) : (s.emit buf).txCounter = s.txCounter := rfl
@[simp] theorem State.emit_txFrame (s : State) (buf : List Word) : (s.emit buf).txFrame = s.txFrame := rfl
@[simp] theorem State.emit_lastSym (s : State) (buf : List Word) : (s.emit buf).lastSym = s.lastSym := rfl
@[simp] theorem State.emit_mbox (s : State) (buf : List Word) : (s.emit buf).mbox = s.mbox := rfl
@[simp] theorem State.emit_curSym (s : State) (buf : List Word) : (s.emit buf).curSym = s.curSym := rfl
@[simp] theorem State.emit_phase (s : State) (buf : List Word) : (s.emit buf).phase = s.phase := rfl
@[simp] theorem State.emit_capq (s : State) (buf : List Word) : (s.emit buf).capq = s.capq := rfl
@[simp] theorem State.emit_win (s : State) (buf : List Word) : (s.emit buf).win = s.win := rfl
@[simp] theorem State.emit_rxState (s : State) (buf : List Word) : (s.emit buf).rxState = s.rxState := rfl
@[simp] theorem State.emit_k (s : State) (buf : List Word) : (s.emit buf).k = s.k := rfl
@[simp] theorem State.emit_rxBuf (s : State) (buf : List Word) : (s.emit buf).rxBuf = s.rxBuf := rfl
@[simp] theorem State.emit_rxCur (s : State) (buf : List Word) : (s.emit buf).rxCur = s.rxCur := rfl
@[simp] theorem State.emit_rxBitcnt (s : State) (buf : List Word) : (s.emit buf).rxBitcnt = s.rxBitcnt := rfl
@[simp] theorem State.emit_rxq (s : State) (buf : List Word) : (s.emit buf).rxq = s.rxq := rfl
@[simp] theorem State.emit_rdBuf (s : State) (buf : List Word) : (s.emit buf).rdBuf = s.rdBuf := rfl
@[simp] theorem State.emit_rdPos (s : State) (buf : List Word) : (s.emit buf).rdPos = s.rdPos := rfl
@[simp] theorem State.emit_toneData (s : State) (buf : List Word) : (s.emit buf).toneData = s.toneData := rfl
@[simp] theorem State.emit_bufCount (s : State) (buf : List Word) : (s.emit buf).bufCount = s.bufCount := rfl
@[simp] theorem State.emit_cksErr (s : State) (buf : List Word) : (s.emit buf).cksErr = s.cksErr := rfl
@[simp] theorem State.emit_deserErr (s : State) (buf : List Word) : (s.emit buf).deserErr = s.deserErr := rfl
@[simp] theorem State.emit_capDrop (s : State) (buf : List Word) : (s.emit buf).capDrop = s.capDrop := rfl
@[simp] theorem State.emit_rxqDrop (s : State) (buf : List Word) : (s.emit buf).rxqDrop = s.rxqDrop := rfl
@[simp] theorem State.emit_txDone (s : State) (buf : List Word) : (s.emit buf).txDone = s.txDone := rfl
@[simp] theorem State.emit_rxOk (s : State) (buf : List Word) : (s.emit buf).rxOk = s.rxOk := rfl
@[simp] theorem State.emit_rxLastEvt (s : State) (buf : List Word) : (s.emit buf).rxLastEvt = s.rxLastEvt := rfl
@[simp] theorem State.emit_schedule (s : State) (buf : List Word) : (s.emit buf).schedule = s.schedule := rfl
@[simp] theorem State.emit_audioOk (s : State) (buf : List Word) : (s.emit buf).audioOk = s.audioOk := rfl
@[simp] theorem State.emit_draws (s : State) (buf : List Word) : (s.emit buf).draws = s.draws := rfl
@[simp] theorem State.emit_out (s : State) (buf : List Word) : (s.emit buf).out = .audio buf := rfl

/-! ## `State.countDraw` -/

@[simp] theorem State.countDraw_cfg (s : State) : s.countDraw.cfg = s.cfg := rfl
@[simp] theorem State.countDraw_started (s : State) : s.countDraw.started = s.started := rfl
@[simp] theorem State.countDraw_initFailed (s : State) : s.countDraw.initFailed = s.initFailed := rfl
@[simp] theorem State.countDraw_captureEn (s : State) : s.countDraw.captureEn = s.captureEn := rfl
@[simp] theorem State.countDraw_demodSel (s : State) : s.countDraw.demodSel = s.demodSel := rfl
@[simp] theorem State.countDraw_err (s : State) : s.countDraw.err = s.err := rfl
@[simp] theorem State.countDraw_localId (s : State) : s.countDraw.localId = s.localId := rfl
@[simp] theorem State.countDraw_frameId (s : State) : s.countDraw.frameId = s.frameId := rfl
@[simp] theorem State.countDraw_stage (s : State) : s.countDraw.stage = s.stage := rfl
@[simp] theorem State.countDraw_txq (s : State) : s.countDraw.txq = s.txq := rfl
@[simp] theorem State.countDraw_txState (s : State) : s.countDraw.txState = s.txState := rfl
@[simp] theorem State.countDraw_txCounter (s : State) : s.countDraw.txCounter = s.txCounter := rfl
@[simp] theorem State.countDraw_txFrame (s : State) : s.countDraw.txFrame = s.txFrame := rfl
@[simp] theorem State.countDraw_lastSym (s : State) : s.countDraw.lastSym = s.lastSym := rfl
@[simp] theorem State.countDraw_mbox (s : State) : s.countDraw.mbox = s.mbox := rfl
@[simp] theorem State.countDraw_curSym (s : State) : s.countDraw.curSym = s.curSym := rfl
@[simp] theorem State.countDraw_phase (s : State) : s.countDraw.phase = s.phase := rfl
@[simp] theorem State.countDraw_capq (s : State) : s.countDraw.capq = s.capq := rfl
@[simp] theorem State.countDraw_win (s : State) : s.countDraw.win = s.win := rfl
@[simp] theorem State.countDraw_rxState (s : State) : s.countDraw.rxState = s.rxState := rfl
@[simp] theorem State.countDraw_k (s : State) : s.countDraw.k = s.k := rfl
@[simp] theorem State.countDraw_rxBuf (s : State) : s.countDraw.rxBuf = s.rxBuf := rfl
@[simp] theorem State.countDraw_rxCur (s : State) : s.countDraw.rxCur = s.rxCur := rfl
@[simp] theorem State.countDraw_rxBitcnt (s : State) : s.countDraw.rxBitcnt = s.rxBitcnt := rfl
@[simp] theorem State.countDraw_rxq (s : State) : s.countDraw.rxq = s.rxq := rfl
@[simp] theorem State.countDraw_rdBuf (s : State) : s.countDraw.rdBuf = s.rdBuf := rfl
@[simp] theorem State.countDraw_rdPos (s : State) : s.countDraw.rdPos = s.rdPos := rfl
@[simp] theorem State.countDraw_toneData (s : State) : s.countDraw.toneData = s.toneData := rfl
@[simp] theorem State.countDraw_bufCount (s : State) : s.countDraw.bufCount = s.bufCount := rfl
@[simp] theorem State.countDraw_cksErr (s : State) : s.countDraw.cksErr = s.cksErr := rfl
@[simp] theorem State.countDraw_deserErr (s : State) : s.countDraw.deserErr = s.deserErr := rfl
@[simp] theorem State.countDraw_capDrop (s : State) : s.countDraw.capDrop = s.capDrop := rfl
@[simp] theorem State.countDraw_rxqDrop (s : State) : s.countDraw.rxqDrop = s.rxqDrop := rfl
@[simp] theorem State.countDraw_txDone (s : State) : s.countDraw.txDone = s.txDone := rfl
@[simp] theorem State.countDraw_rxOk (s : State) : s.countDraw.rxOk = s.rxOk := rfl
@[simp] theorem State.countDraw_rxLastEvt (s : State) : s.countDraw.rxLastEvt = s.rxLastEvt := rfl
@[simp] theorem State.countDraw_schedule (s : State) : s.countDraw.schedule = s.schedule := rfl
@[simp] theorem State.countDraw_audioOk (s : State) : s.countDraw.audioOk = s.audioOk := rfl
@[simp] theorem State.countDraw_draws (s : State) : s.countDraw.draws = s.draws + 1 := rfl
@[simp] theorem State.countDraw_out (s : State) : s.countDraw.out = s.out := rfl

/-! ## `State.resetBlock` -/

@[simp] theorem State.resetBlock_cfg (s : State) : s.resetBlock.cfg = s.cfg := rfl
@[simp] theorem State.resetBlock_started (s : State) : s.resetBlock.started = false := rfl
@[simp] theorem State.resetBlock_initFailed (s : State) : s.resetBlock.initFailed = false := rfl
@[simp] theorem State.resetBlock_captureEn (s : State) : s.resetBlock.captureEn = true := rfl
@[simp] theorem State.resetBlock_demodSel (s : State) : s.resetBlock.demodSel = true := rfl
@[simp] theorem State.resetBlock_err (s : State) : s.resetBlock.err = .ok := rfl
@[simp] theorem State.resetBlock_localId (s : State) : s.resetBlock.localId = 0x00#8 := rfl
@[simp] theorem State.resetBlock_frameId (s : State) : s.resetBlock.frameId = 0x00#8 := rfl
@[simp] theorem State.resetBlock_stage (s : State) : s.resetBlock.stage = [] := rfl
@[simp] theorem State.resetBlock_txq (s : State) : s.resetBlock.txq = [] := rfl
@[simp] theorem State.resetBlock_txState (s : State) : s.resetBlock.txState = .idle := rfl
@[simp] theorem State.resetBlock_txCounter (s : State) : s.resetBlock.txCounter = 0 := rfl
@[simp] theorem State.resetBlock_txFrame (s : State) : s.resetBlock.txFrame = [] := rfl
@[simp] theorem State.resetBlock_lastSym (s : State) : s.resetBlock.lastSym = false := rfl
@[simp] theorem State.resetBlock_mbox (s : State) : s.resetBlock.mbox = none := rfl
@[simp] theorem State.resetBlock_curSym (s : State) : s.resetBlock.curSym = false := rfl
@[simp] theorem State.resetBlock_phase (s : State) : s.resetBlock.phase = 0 := rfl
@[simp] theorem State.resetBlock_capq (s : State) : s.resetBlock.capq = [] := rfl
@[simp] theorem State.resetBlock_win (s : State) : s.resetBlock.win = [] := rfl
@[simp] theorem State.resetBlock_rxState (s : State) : s.resetBlock.rxState = .searchingPreamble := rfl
@[simp] theorem State.resetBlock_k (s : State) : s.resetBlock.k = 0 := rfl
@[simp] theorem State.resetBlock_rxBuf (s : State) : s.resetBlock.rxBuf = [] := rfl
@[simp] theorem State.resetBlock_rxCur (s : State) : s.resetBlock.rxCur = 0x00#8 := rfl
@[simp] theorem State.resetBlock_rxBitcnt (s : State) : s.resetBlock.rxBitcnt = 0 := rfl
@[simp] theorem State.resetBlock_rxq (s : State) : s.resetBlock.rxq = [] := rfl
@[simp] theorem State.resetBlock_rdBuf (s : State) : s.resetBlock.rdBuf = [] := rfl
@[simp] theorem State.resetBlock_rdPos (s : State) : s.resetBlock.rdPos = 0 := rfl
@[simp] theorem State.resetBlock_toneData (s : State) : s.resetBlock.toneData = 0#32 := rfl
@[simp] theorem State.resetBlock_bufCount (s : State) : s.resetBlock.bufCount = 0#32 := rfl
@[simp] theorem State.resetBlock_cksErr (s : State) : s.resetBlock.cksErr = 0#32 := rfl
@[simp] theorem State.resetBlock_deserErr (s : State) : s.resetBlock.deserErr = 0#32 := rfl
@[simp] theorem State.resetBlock_capDrop (s : State) : s.resetBlock.capDrop = 0#32 := rfl
@[simp] theorem State.resetBlock_rxqDrop (s : State) : s.resetBlock.rxqDrop = 0#32 := rfl
@[simp] theorem State.resetBlock_txDone (s : State) : s.resetBlock.txDone = 0#32 := rfl
@[simp] theorem State.resetBlock_rxOk (s : State) : s.resetBlock.rxOk = 0#32 := rfl
@[simp] theorem State.resetBlock_rxLastEvt (s : State) : s.resetBlock.rxLastEvt = .delivered := rfl
@[simp] theorem State.resetBlock_schedule (s : State) : s.resetBlock.schedule = s.schedule := rfl
@[simp] theorem State.resetBlock_audioOk (s : State) : s.resetBlock.audioOk = s.audioOk := rfl
@[simp] theorem State.resetBlock_draws (s : State) : s.resetBlock.draws = s.draws := rfl
@[simp] theorem State.resetBlock_out (s : State) : s.resetBlock.out = s.out := rfl

end Sys2Proof.Machine
end

