-- ==== Sys2Proof/Laws/Ops.lean ====
section
/-! SUPPORT. What the shared operations of `Machine/Ops.lean` can do. -/

namespace Sys2Proof.Machine

@[simp] theorem push_eq {α : Type} (q : List α) (x : α) : push q x = q ++ [x] := rfl

@[simp] theorem full_iff {α : Type} (q : List α) (depth : Nat) : full q depth = true ↔ q.length = depth := by
  simp [full]

/-- START's input is what the environment fixed, and then nothing changes, or a draw is counted. -/
theorem sampleAudioOk_cases (s : State) :
    (∃ b, s.audioOk = some b ∧ s.sampleAudioOk = (b, s))
      ∨ (s.audioOk = none ∧ s.sampleAudioOk = (Config.audioOkDraw s.draws, s.countDraw)) := by
  unfold State.sampleAudioOk
  split
  · exact .inl ⟨_, ‹_›, rfl⟩
  · exact .inr ⟨‹_›, rfl⟩

/-- A drawn bit counts one draw and changes nothing else. -/
theorem drawBit_snd (s : State) : s.drawBit.2 = { s with draws := s.draws + 1 } := rfl

/-- The completed input buffer starts with the words given, is long enough, and only the counter of draws may move. -/
theorem completeInput_spec (s : State) (input : List Word) :
    input <+: (s.completeInput input).1 ∧ 2 * s.cfg.nbuf ≤ (s.completeInput input).1.length
      ∧ ∃ d, (s.completeInput input).2 = { s with draws := d } := by
  unfold State.completeInput
  split
  · exact ⟨List.prefix_refl _, ‹_›, s.draws, rfl⟩
  · refine ⟨List.prefix_append _ _, ?_, s.draws + 1, rfl⟩
    simp; omega

/-- A buffer that is given whole is taken as it is. -/
theorem completeInput_of_le {s : State} {input : List Word} (h : 2 * s.cfg.nbuf ≤ input.length) :
    s.completeInput input = (input, s) := if_pos h

end Sys2Proof.Machine
end

