-- ==== Sys2Proof/Laws/Audio.lean ====
section
/-! SUPPORT. What the parts of an AUDIO step can do. -/

namespace Sys2Proof.Machine

@[simp] theorem channel0_length (nbuf : Nat) (input : List Word) : (channel0 nbuf input).length = nbuf := by
  simp [channel0]

/-- A capture pushes channel 0, counts a drop, or does nothing. -/
theorem capture_cases (input : List Word) (s : State) :
    (s.captureEn = true ∧ s.capq.length < s.cfg.capqDepth ∧
        capture input s = { s with capq := s.capq ++ [channel0 s.cfg.nbuf input] })
      ∨ (s.captureEn = true ∧ s.cfg.capqDepth ≤ s.capq.length ∧ capture input s = { s with capDrop := s.capDrop + 1 })
      ∨ (s.captureEn = false ∧ capture input s = s) := by
  unfold capture
  split
  · split
    · exact .inl ⟨‹_›, ‹_›, rfl⟩
    · exact .inr (.inl ⟨‹_›, by omega, rfl⟩)
  · exact .inr (.inr ⟨by simpa using ‹¬s.captureEn = true›, rfl⟩)

/-- Adoption takes the mailbox's symbol if there is one, and leaves the mailbox empty. -/
theorem adopt_eq (s : State) : adopt s = { s with curSym := s.mbox.getD s.curSym, mbox := none } := by
  unfold adopt
  split <;> rename_i h
  · rw [h]; rfl
  · cases s; simp_all

/-- The phase stays below the table's length. -/
theorem synthFrom_phase_lt (c : Config) (sym : Bool) (n p : Nat) (h : p < c.tableLen) :
    (synthFrom c sym n p).2 < c.tableLen := by
  induction n generalizing p with
  | zero => exact h
  | succ n ih => exact ih _ (Nat.mod_lt _ (by omega))

@[simp] theorem synthFrom_length (c : Config) (sym : Bool) (n p : Nat) : (synthFrom c sym n p).1.length = 2 * n := by
  induction n generalizing p with
  | zero => rfl
  | succ n ih => simp [synthFrom, ih]; omega

/-- Synthesis moves the phase and shows the buffer. -/
theorem synth_eq (s : State) :
    synth s = { s with
      phase := (synthFrom s.cfg s.curSym s.cfg.nbuf s.phase).2,
      out := .audio (synthFrom s.cfg s.curSym s.cfg.nbuf s.phase).1 } := rfl

end Sys2Proof.Machine
end

