-- ==== Sys2Proof/Laws/Codec.lean ====
section
/-! SUPPORT. The fold, the frame's parts, and what decode answers. -/

namespace Sys2Proof.Machine

theorem foldl_xor_start (s : List Byte) (a : Byte) : s.foldl (· ^^^ ·) a = a ^^^ xorfold s := by
  unfold xorfold
  induction s generalizing a with
  | nil => simp
  | cons b s ih => rw [List.foldl_cons, List.foldl_cons, ih, ih (0x00#8 ^^^ b)]; simp [BitVec.xor_assoc]

@[simp] theorem xorfold_nil : xorfold [] = 0x00#8 := rfl

@[simp] theorem xorfold_cons (b : Byte) (s : List Byte) : xorfold (b :: s) = b ^^^ xorfold s := by
  rw [xorfold, List.foldl_cons, foldl_xor_start]; simp

@[simp] theorem xorfold_append (s t : List Byte) : xorfold (s ++ t) = xorfold s ^^^ xorfold t := by
  induction s with
  | nil => simp
  | cons b s ih => simp [ih, BitVec.xor_assoc]

@[simp] theorem encodeFrame_length (dest src id : Byte) (payload : List Byte) :
    (encodeFrame dest src id payload).length = payload.length + 5 := by
  simp [encodeFrame]

/-- The declared length is byte 3. -/
theorem encodeFrame_getD_three (dest src id : Byte) (payload : List Byte) :
    (encodeFrame dest src id payload).getD 3 0x00#8 = BitVec.ofNat 8 payload.length := by
  simp [encodeFrame]

/-- What decode answers, by the first check that fails. -/
theorem decodeFrame_cases (c : Config) (b : List Byte) :
    (xorfold b ≠ 0x00#8 ∧ decodeFrame c b = .checksumMismatch)
      ∨ (xorfold b = 0x00#8 ∧ decodeFrame c b = .deserializeError)
      ∨ (∃ p : Packet, xorfold b = 0x00#8 ∧ decodeFrame c b = .packet p ∧ b.length = 5 + p.payloadLen.toNat
          ∧ p.payload = (b.drop 4).take p.payloadLen.toNat ∧ textValid c p.payload = true
          ∧ p.payload.length = p.payloadLen.toNat) := by
  unfold decodeFrame
  split
  · exact .inl ⟨‹_›, rfl⟩
  · have hf : xorfold b = 0x00#8 := by simpa using ‹¬xorfold b ≠ 0x00#8›
    split
    · split
      · exact .inr (.inl ⟨hf, rfl⟩)
      · split
        · exact .inr (.inl ⟨hf, rfl⟩)
        · rename_i rest hlen htext
          refine .inr (.inr ⟨_, hf, rfl, ?_, rfl, by simpa using htext, ?_⟩)
          · simp only [List.length_cons]; omega
          · simp only [List.length_take]; omega
    · exact .inr (.inl ⟨hf, rfl⟩)

end Sys2Proof.Machine
end

