-- ==== Sys2Proof/Laws/Commands.lean ====
section
/-! SUPPORT. What each meaning can do, where it has more than one outcome. -/

namespace Sys2Proof.Machine

/-- START is late, or samples AUDIO_OK and starts or fails; only the counter of draws moves beside. -/
theorem execStart_cases (s : State) :
    ((s.started = true ∨ s.initFailed = true) ∧ execStart s = .next { s with err := .alreadyInitialized })
      ∨ (s.started = false ∧ s.initFailed = false ∧ ∃ d,
          execStart s = .next { s with started := true, err := .ok, draws := d }
            ∨ execStart s = .next { s with initFailed := true, err := .hardwareInit, draws := d }) := by
  unfold execStart
  split
  · exact .inl ⟨by simpa using ‹(s.started || s.initFailed) = true›, rfl⟩
  · rename_i h
    simp only [Bool.or_eq_true, not_or, Bool.not_eq_true] at h
    refine .inr ⟨h.1, h.2, ?_⟩
    rcases sampleAudioOk_cases s with ⟨b, _, hb⟩ | ⟨_, hb⟩ <;> rw [hb] <;> dsimp only <;> split
    · exact ⟨s.draws, .inl rfl⟩
    · exact ⟨s.draws, .inr rfl⟩
    · exact ⟨s.draws + 1, .inl rfl⟩
    · exact ⟨s.draws + 1, .inr rfl⟩

theorem execTxSend_cases (dest : Byte) (s : State) :
    (s.txq.length = s.cfg.txqDepth ∧ execTxSend dest s = .next { s with err := .queueFull })
      ∨ (s.txq.length ≠ s.cfg.txqDepth ∧ execTxSend dest s = .next { s with
          txq := s.txq ++ [encodeFrame dest s.localId s.frameId s.stage], frameId := s.frameId + 1, stage := [],
          err := .ok }) := by
  unfold execTxSend
  split
  · exact .inl ⟨(full_iff ..).mp ‹_›, rfl⟩
  · exact .inr ⟨fun h => absurd ((full_iff ..).mpr h) ‹_›, rfl⟩

theorem execRxPop_cases (s : State) :
    (s.rxq = [] ∧ execRxPop s = .next { s with rdBuf := [], rdPos := 0, err := .rxEmpty })
      ∨ (∃ payload rest, s.rxq = payload :: rest ∧
          execRxPop s = .next { s with rxq := rest, rdBuf := payload, rdPos := 0, err := .ok }) := by
  unfold execRxPop
  split
  · exact .inl ⟨‹_›, rfl⟩
  · exact .inr ⟨_, _, ‹_›, rfl⟩

theorem execToneRead_cases (sym : Bool) (index : BitVec 16) (s : State) :
    (s.cfg.tableLen ≤ index.toNat ∧ execToneRead sym index s = .next { s with err := .badArgument })
      ∨ (index.toNat < s.cfg.tableLen ∧ execToneRead sym index s =
          .next { s with toneData := romWord s.cfg sym index.toNat, err := .ok }) := by
  unfold execToneRead
  split
  · exact .inl ⟨‹_›, rfl⟩
  · exact .inr ⟨by omega, rfl⟩

theorem execRdRxdata_cases (s : State) :
    (s.rdPos = s.rdBuf.length ∧ execRdRxdata s = .next { s with err := .rxEmpty, out := .read 0#32 })
      ∨ (s.rdPos ≠ s.rdBuf.length ∧ execRdRxdata s =
          .next { s with rdPos := s.rdPos + 1, err := .ok, out := .read (rxdataView s) }) := by
  unfold execRdRxdata rxdataAtEnd
  split
  · exact .inl ⟨by simpa using ‹(s.rdPos == s.rdBuf.length) = true›, rfl⟩
  · exact .inr ⟨by simpa using ‹¬(s.rdPos == s.rdBuf.length) = true›, rfl⟩

theorem execWrCtrl_cases (v : Word) (s : State) :
    (s.started = true ∧ demodSelField v ≠ s.demodSel ∧
        execWrCtrl v s = .next { s with captureEn := captureEnField v, err := .configLocked })
      ∨ ((s.started = false ∨ demodSelField v = s.demodSel) ∧ execWrCtrl v s =
          .next { s with captureEn := captureEnField v, demodSel := demodSelField v, err := .ok }) := by
  unfold execWrCtrl
  split
  · rename_i h
    simp only [Bool.and_eq_true, bne_iff_ne] at h
    exact .inl ⟨h.1, h.2, rfl⟩
  · rename_i h
    refine .inr ⟨?_, rfl⟩
    cases hs : s.started <;> simp_all

theorem execWrTxdata_cases (v : Word) (s : State) :
    (s.stage.length = 255 ∧ execWrTxdata v s = .next { s with err := .stageFull })
      ∨ (s.stage.length ≠ 255 ∧ execWrTxdata v s =
          .next { s with stage := s.stage ++ [byteField v], err := .ok }) := by
  unfold execWrTxdata
  split
  · exact .inl ⟨‹_›, rfl⟩
  · exact .inr ⟨‹_›, rfl⟩

/-- A write of CMD runs the command its word decodes to, or reports ILLEGAL_COMMAND. -/
theorem execWrCmd_cases (v : Word) (s : State) :
    (∃ c : Command, decodeCommand v = some c ∧ execWrCmd v s = exec c.toInstr s)
      ∨ (decodeCommand v = none ∧ execWrCmd v s = .next { s with err := .illegalCommand }) := by
  unfold execWrCmd
  split <;> first
    | exact .inl ⟨_, ‹_›, rfl⟩
    | exact .inr ⟨‹_›, rfl⟩

end Sys2Proof.Machine
end

