-- ==== Sys2Proof/Laws/Decode.lean ====
section
/-! SUPPORT. The rows of R107 do not overlap, and the command decoder takes exactly the words they select. -/

namespace Sys2Proof

/-- Any two rows differ in a bit that both their masks look at. -/
theorem cmdRows_disjoint :
    cmdRows.Pairwise fun r s => r.mask &&& s.mask &&& (r.value ^^^ s.value) ≠ 0#32 := by
  decide

/-- A word is a command when some row selects it. -/
theorem decodeCommand_isSome_iff (w : Word) :
    (decodeCommand w).isSome = true ↔ ∃ r ∈ cmdRows, r.selects w = true := by
  simp only [cmdRows, List.mem_cons, List.not_mem_nil, or_false, exists_eq_or_imp, exists_eq_left, CmdRow.selects,
    beq_iff_eq]
  unfold decodeCommand
  split_ifs <;> simp_all

end Sys2Proof
end

