-- ==== Sys2Proof/Laws/PerInstr.lean ====
section
/-! SUPPORT. One law for each instruction: its words fit the width its row has, a command's word has its row's match bits
(R107), and the transaction that performs it fits the bus (R71). -/

namespace Sys2Proof.Laws.Encoding

/-- What holds of the words of a well-formed instruction. -/
def Statement (i : Instr) : Prop :=
  i.wellFormed = true →
    (encode i).2 < 2 ^ (encode i).1 ∧ i.toTxn.addr < 64
      ∧ ((encode i).1 = 40 ∨
        ((encode i).1 = 32 ∧ ∃ r ∈ cmdRows, r.selects (BitVec.ofNat 32 (encode i).2) = true))

/-- A command's word is of its row when its bits under the mask are the match bits. -/
theorem of_command {i : Instr} {w : Word} (r : CmdRow) (hr : r ∈ cmdRows) (h : encode i = (32, w.toNat))
    (ha : i.toTxn.addr = 0x03) (hs : r.selects w = true) : Statement i := by
  intro _
  rw [h, ha]
  refine ⟨w.isLt, by decide, .inr ⟨rfl, r, hr, ?_⟩⟩
  simpa using hs

/-- A bus transaction's bits are a selector, a zero bit and a data word. -/
theorem of_bus {i : Instr} (h : encode i = (40, i.toTxn.bits)) (ha : i.toTxn.addr < 64) : Statement i := by
  intro _
  rw [h]
  refine ⟨?_, ha, .inl rfl⟩
  have h1 := i.toTxn.selector.isLt
  have h2 := i.toTxn.data.isLt
  unfold HostTxn.bits
  dsimp only
  omega

theorem cmdWord_getLsbD (opc : BitVec 8) (operand : BitVec 24) (i : Nat) :
    (cmdWord opc operand).getLsbD i = if i < 24 then operand.getLsbD i else opc.getLsbD (i - 24) :=
  BitVec.getLsbD_append

theorem nop : Statement .nop := of_command (w := Command.nop.encode) _ (.head _) rfl rfl (by decide)

theorem start : Statement .start := of_command (w := Command.start.encode) _ (.tail _ (.head _)) rfl rfl (by decide)

theorem txSend (dest : Byte) : Statement (.txSend dest) := by
  refine of_command (w := (Command.txSend dest).encode) _ (.tail _ (.tail _ (.head _))) rfl rfl ?_
  simp only [CmdRow.selects, beq_iff_eq, Command.encode]
  refine BitVec.eq_of_getLsbD_eq fun i hi => ?_
  rw [BitVec.getLsbD_and, cmdWord_getLsbD]
  by_cases h : i < 24
  · have hd : (dest ++ 0#16 : BitVec 24).getLsbD i = if i < 16 then (0#16).getLsbD i else dest.getLsbD (i - 16) :=
      BitVec.getLsbD_append
    rw [if_pos h, hd]
    interval_cases i <;> simp
  · rw [if_neg h]
    interval_cases i <;> simp

theorem txClear : Statement .txClear :=
  of_command (w := Command.txClear.encode) _ (.tail _ (.tail _ (.tail _ (.head _)))) rfl rfl (by decide)

theorem rxPop : Statement .rxPop :=
  of_command (w := Command.rxPop.encode) _ (.tail _ (.tail _ (.tail _ (.tail _ (.head _))))) rfl rfl (by decide)

theorem clrStats : Statement .clrStats :=
  of_command (w := Command.clrStats.encode) _ (.tail _ (.tail _ (.tail _ (.tail _ (.tail _ (.head _)))))) rfl rfl
    (by decide)

theorem toneRead (sym : Bool) (index : BitVec 16) : Statement (.toneRead sym index) := by
  refine of_command (w := (Command.toneRead sym index).encode) _
    (.tail _ (.tail _ (.tail _ (.tail _ (.tail _ (.tail _ (.head _))))))) rfl rfl ?_
  simp only [CmdRow.selects, beq_iff_eq, Command.encode]
  refine BitVec.eq_of_getLsbD_eq fun i hi => ?_
  rw [BitVec.getLsbD_and, cmdWord_getLsbD]
  by_cases h : i < 24
  · have hd : (0#7 ++ BitVec.ofBool sym ++ index : BitVec 24).getLsbD i
        = if i < 16 then index.getLsbD i else (0#7 ++ BitVec.ofBool sym).getLsbD (i - 16) := BitVec.getLsbD_append
    rw [if_pos h, hd, BitVec.getLsbD_append]
    interval_cases i <;> simp
  · rw [if_neg h]
    interval_cases i <;> simp

theorem rdReg (addr : BitVec 6) : Statement (.rdReg addr) := of_bus rfl addr.isLt

theorem rdRxdata : Statement .rdRxdata := of_bus rfl (by decide)

theorem wrCtrl (v : Word) : Statement (.wrCtrl v) := of_bus rfl (show 0x02 < 64 by decide)

theorem wrCmd (v : Word) : Statement (.wrCmd v) := of_bus rfl (show 0x03 < 64 by decide)

theorem wrLocalId (v : Word) : Statement (.wrLocalId v) := of_bus rfl (show 0x05 < 64 by decide)

theorem wrTxdata (v : Word) : Statement (.wrTxdata v) := of_bus rfl (show 0x07 < 64 by decide)

theorem wrIgnored (addr : BitVec 6) (v : Word) : Statement (.wrIgnored addr v) := of_bus rfl addr.isLt

theorem rdReserved (addr : BitVec 6) : Statement (.rdReserved addr) := of_bus rfl addr.isLt

end Sys2Proof.Laws.Encoding
end

