-- ==== Sys2Proof/Laws/Sync.lean ====
section
/-! SUPPORT. What the parts of the synchronizer can do. -/

namespace Sys2Proof.Machine

/-! ## The preamble detector -/

theorem isBorder_iff (pattern : List Bool) (n j : Nat) :
    isBorder pattern n j = true ↔ pattern.take j = (pattern.take n).drop (n - j) := by
  simp [isBorder]

/-- The search finds the largest border below its bound; the empty one always is a border. -/
theorem largestBorder_spec (pattern : List Bool) (n : Nat) : ∀ m, 0 < m →
    largestBorder pattern n m < m
      ∧ (largestBorder pattern n m = 0 ∨ isBorder pattern n (largestBorder pattern n m) = true)
      ∧ ∀ j, j < m → isBorder pattern n j = true → j ≤ largestBorder pattern n m
  | m + 1, _ => by
    rw [largestBorder]
    split
    · exact ⟨by omega, .inr ‹_›, fun j hj _ => by omega⟩
    · rename_i hb
      rcases Nat.eq_zero_or_pos m with rfl | hm
      · exact ⟨by simp [largestBorder], .inl rfl, fun j hj _ => by omega⟩
      · obtain ⟨h1, h2, h3⟩ := largestBorder_spec pattern n m hm
        refine ⟨by omega, h2, fun j hj hbj => h3 j ?_ hbj⟩
        rcases Nat.lt_or_ge j m with h | h
        · exact h
        · exact absurd (show isBorder pattern n m = true by rwa [show m = j by omega]) hb

/-- Falling back makes the match index smaller. -/
theorem failure_le (pattern : List Bool) (i : Nat) : failure pattern i ≤ i :=
  Nat.le_of_lt_succ (largestBorder_spec pattern (i + 1) (i + 1) (by omega)).1

theorem fallBack_le (pattern : List Bool) (b : Bool) : ∀ fuel k, fallBack pattern b fuel k ≤ k
  | 0, k => Nat.le_refl k
  | fuel + 1, k => by
    rw [fallBack]
    split
    · have := fallBack_le pattern b fuel (failure pattern (k - 1))
      have := failure_le pattern (k - 1)
      omega
    · exact Nat.le_refl k

theorem matchStep_le (pattern : List Bool) (k : Nat) (b : Bool) : matchStep pattern k b ≤ k + 1 := by
  have := fallBack_le pattern b k k
  unfold matchStep
  dsimp only
  split <;> omega

/-! ## The frame's end -/

/-- The verdict: one counter, RX_LAST_EVT, and on delivery one payload of valid text. -/
theorem judgeFrame_cases (s : State) :
    judgeFrame s = { s with cksErr := s.cksErr + 1, rxLastEvt := .checksumMismatch }
      ∨ judgeFrame s = { s with deserErr := s.deserErr + 1, rxLastEvt := .deserializeError }
      ∨ (s.rxq.length = s.cfg.rxqDepth ∧ judgeFrame s = { s with rxqDrop := s.rxqDrop + 1, rxLastEvt := .rxqDrop })
      ∨ (∃ payload : List Byte, s.rxq.length ≠ s.cfg.rxqDepth ∧ payload.length ≤ 255 ∧ textValid s.cfg payload = true ∧
          judgeFrame s = { s with rxq := s.rxq ++ [payload], rxOk := s.rxOk + 1, rxLastEvt := .delivered }) := by
  unfold judgeFrame
  rcases decodeFrame_cases s.cfg s.rxBuf with ⟨_, h⟩ | ⟨_, h⟩ | ⟨p, _, h, _, _, ht, hl⟩ <;> rw [h]
  · exact .inl rfl
  · exact .inr (.inl rfl)
  · dsimp only
    split
    · exact .inr (.inr (.inl ⟨(full_iff ..).mp ‹_›, rfl⟩))
    · exact .inr (.inr (.inr ⟨p.payload, fun hq => absurd ((full_iff ..).mpr hq) ‹_›, by omega, ht, rfl⟩))

/-! ## Byte assembly -/

theorem frameComplete_iff (buf : List Byte) :
    frameComplete buf = true ↔ 4 ≤ buf.length ∧ buf.length = 5 + (buf.getD 3 0x00#8).toNat := by
  simp [frameComplete]

/-- A bit goes to the partial byte, to a byte of the buffer, or ends the frame. -/
theorem assemble_cases (b : Bool) (s : State) :
    (s.rxBitcnt + 1 ≠ 8 ∧ assemble b s = { s with rxCur := shiftIn s.rxCur b, rxBitcnt := s.rxBitcnt + 1 })
      ∨ (s.rxBitcnt + 1 = 8 ∧ frameComplete (s.rxBuf ++ [shiftIn s.rxCur b]) = false ∧
          assemble b s = { s with rxBuf := s.rxBuf ++ [shiftIn s.rxCur b], rxCur := 0x00#8, rxBitcnt := 0 })
      ∨ (s.rxBitcnt + 1 = 8 ∧ frameComplete (s.rxBuf ++ [shiftIn s.rxCur b]) = true ∧
          assemble b s =
            frameDone { s with rxBuf := s.rxBuf ++ [shiftIn s.rxCur b], rxCur := 0x00#8, rxBitcnt := 0 }) := by
  unfold assemble
  dsimp only
  split
  · split
    · exact .inr (.inr ⟨‹_›, ‹_›, rfl⟩)
    · exact .inr (.inl ⟨‹_›, by simpa using ‹¬frameComplete _ = true›, rfl⟩)
  · exact .inl ⟨‹_›, rfl⟩

/-! ## The state machine -/

/-- A bit fed while searching moves the match index or locks; a bit fed while receiving is assembled. -/
theorem syncBit_cases (b : Bool) (s : State) :
    (s.rxState = .searchingPreamble ∧ matchStep s.cfg.preamble s.k b = s.cfg.preambleLen ∧ syncBit b s =
        { s with rxState := .receivingPacket, k := 0, rxBuf := [], rxCur := 0x00#8, rxBitcnt := 0 })
      ∨ (s.rxState = .searchingPreamble ∧ matchStep s.cfg.preamble s.k b ≠ s.cfg.preambleLen ∧
          syncBit b s = { s with k := matchStep s.cfg.preamble s.k b })
      ∨ (s.rxState = .receivingPacket ∧ syncBit b s = assemble b s) := by
  unfold syncBit
  split
  · dsimp only
    split
    · exact .inl ⟨‹_›, ‹_›, rfl⟩
    · exact .inr (.inl ⟨‹_›, ‹_›, rfl⟩)
  · exact .inr (.inr ⟨‹_›, rfl⟩)

/-- A bit fed to the synchronizer writes the synchronizer's fields and the receive counters, and nothing else. -/
theorem syncBit_frame (b : Bool) (s : State) :
    ∃ t : State, syncBit b s = { s with
      rxState := t.rxState, k := t.k, rxBuf := t.rxBuf, rxCur := t.rxCur, rxBitcnt := t.rxBitcnt, rxq := t.rxq,
      cksErr := t.cksErr, deserErr := t.deserErr, rxqDrop := t.rxqDrop, rxOk := t.rxOk, rxLastEvt := t.rxLastEvt } := by
  refine ⟨syncBit b s, ?_⟩
  rcases syncBit_cases b s with ⟨_, _, h⟩ | ⟨_, _, h⟩ | ⟨_, h⟩
  · rw [h]
  · rw [h]
  · rcases assemble_cases b s with ⟨_, ha⟩ | ⟨_, _, ha⟩ | ⟨_, _, ha⟩
    · rw [h, ha]
    · rw [h, ha]
    · rw [h, ha]
      unfold frameDone
      rcases judgeFrame_cases { s with rxBuf := s.rxBuf ++ [shiftIn s.rxCur b], rxCur := 0x00#8, rxBitcnt := 0 } with
        hj | hj | ⟨_, hj⟩ | ⟨_, _, _, _, hj⟩ <;> rw [hj]

end Sys2Proof.Machine
end

