-- ==== Sys2Proof/Laws/Rx.lean ====
section
/-! SUPPORT. What an RX step can do. -/

namespace Sys2Proof.Machine

/-- The window grows by the capture until it is full, and from then on gives up its oldest buffer. -/
theorem slideWindow_cases (c : Config) (win cap : List Word) :
    (win.length + cap.length ≤ c.winLen ∧ slideWindow c win cap = win ++ cap)
      ∨ (c.winLen < win.length + cap.length ∧ slideWindow c win cap = (win ++ cap).drop c.nbuf) := by
  unfold slideWindow
  simp only [List.length_append]
  split
  · exact .inr ⟨‹_›, rfl⟩
  · exact .inl ⟨by omega, rfl⟩

/-- The spectral demodulator slides the window; on a full window it answers the decision, or draws. -/
theorem spectral_cases (cap : List Word) (s : State) :
    ((slideWindow s.cfg s.win cap).length ≠ s.cfg.winLen ∧
        spectral cap s = (none, { s with win := slideWindow s.cfg s.win cap }))
      ∨ (∃ b, (slideWindow s.cfg s.win cap).length = s.cfg.winLen ∧
          decideWindow s.cfg (slideWindow s.cfg s.win cap) = .symbol b ∧
          spectral cap s = (some b, { s with win := slideWindow s.cfg s.win cap }))
      ∨ (∃ b, (slideWindow s.cfg s.win cap).length = s.cfg.winLen ∧
          decideWindow s.cfg (slideWindow s.cfg s.win cap) = .draw ∧
          spectral cap s = (some b, { s with win := slideWindow s.cfg s.win cap, draws := s.draws + 1 })) := by
  unfold spectral
  dsimp only
  split
  · split
    · exact .inr (.inl ⟨_, ‹_›, ‹_›, rfl⟩)
    · exact .inr (.inr ⟨_, ‹_›, ‹_›, rfl⟩)
  · exact .inl ⟨‹_›, rfl⟩

/-- A demodulator writes the window and the counter of draws. -/
theorem demodulate_frame (cap : List Word) (s : State) :
    ∃ w d, (demodulate cap s).2 = { s with win := w, draws := d } := by
  unfold demodulate
  split
  · rcases spectral_cases cap s with ⟨_, h⟩ | ⟨_, _, _, h⟩ | ⟨_, _, _, h⟩ <;> rw [h]
    · exact ⟨_, s.draws, rfl⟩
    · exact ⟨_, s.draws, rfl⟩
    · exact ⟨_, _, rfl⟩
  · exact ⟨s.win, s.draws, rfl⟩

/-- An RX step with an empty FIFO is none; else it pops, demodulates and feeds the bit it got, if it got one. -/
theorem rxStep_cases (s : State) :
    (s.capq = [] ∧ rxStep s = s)
      ∨ (∃ cap rest, s.capq = cap :: rest ∧ (demodulate cap { s with capq := rest }).1 = none ∧
          rxStep s = (demodulate cap { s with capq := rest }).2)
      ∨ (∃ cap rest b, s.capq = cap :: rest ∧ (demodulate cap { s with capq := rest }).1 = some b ∧
          rxStep s = syncBit b (demodulate cap { s with capq := rest }).2) := by
  unfold rxStep
  split
  · exact .inl ⟨‹_›, rfl⟩
  · rename_i cap rest hq
    split <;> rename_i hd
    · exact .inr (.inr ⟨cap, rest, _, hq, by rw [hd], by rw [hd]⟩)
    · exact .inr (.inl ⟨cap, rest, hq, by rw [hd], by rw [hd]⟩)

end Sys2Proof.Machine
end

