-- ==== Sys2Proof/Laws/Step.lean ====
section
/-! SUPPORT. What a step can be: which event runs, in which state. -/

namespace Sys2Proof.Machine

/-- The state an event runs in differs from the machine's in the environment's fields alone. -/
theorem takeEvent_frame (s : State) :
    ∃ sched d, takeEvent s = { s with schedule := sched, draws := d, out := .silent } := by
  unfold takeEvent
  split
  · exact ⟨_, s.draws, rfl⟩
  · exact ⟨s.schedule, s.draws + 1, by rw [show s.schedule = [] from ‹_›]⟩

/-- The schedule's head is the event, and comes off. -/
theorem step_of_schedule {s : State} {e : Event} {rest : List Event} (h : s.schedule = e :: rest) :
    step s = runEvent e { s with schedule := rest, out := .silent } := by
  simp [step, nextEvent, takeEvent, h]

/-- A transaction runs the instruction it decodes to, and no other address than a wide one is refused. -/
theorem hostStep_cases (t : HostTxn) (s : State) :
    (t.addr < 64 ∧ decodeTxn t = .ok (decodeBus t.selector t.data) ∧
        hostStep t s = exec (decodeBus t.selector t.data) s)
      ∨ (64 ≤ t.addr ∧ hostStep t s = .refused (.busAddressTooWide t.addr)) := by
  unfold hostStep decodeTxn
  by_cases h : t.addr < 64
  · rw [if_pos h]; exact .inl ⟨h, rfl, rfl⟩
  · rw [if_neg h]; exact .inr ⟨by omega, rfl⟩

/-- A step that answers a next state is one agent's step, or a reset. -/
theorem step_cases {s t : State} (h : step s = .next t) :
    (∃ txn, nextEvent s = .host txn ∧ txn.addr < 64 ∧
        exec (decodeBus txn.selector txn.data) (takeEvent s) = .next t)
      ∨ (∃ input, nextEvent s = .audio input ∧ t = audioTurn input (takeEvent s))
      ∨ (nextEvent s = .rx ∧ t = rxStep (takeEvent s))
      ∨ (∃ b, nextEvent s = .syncBit b ∧ t = syncBit b (takeEvent s))
      ∨ (nextEvent s = .reset ∧ t = (takeEvent s).resetBlock) := by
  unfold step runEvent at h
  split at h <;> rename_i he
  · rcases hostStep_cases _ (takeEvent s) with ⟨ha, _, hs⟩ | ⟨_, hs⟩
    · exact .inl ⟨_, he, ha, by rw [← hs, h]⟩
    · rw [hs] at h; cases h
  · cases h; exact .inr (.inl ⟨_, he, rfl⟩)
  · cases h; exact .inr (.inr (.inl ⟨he, rfl⟩))
  · cases h; exact .inr (.inr (.inr (.inl ⟨_, he, rfl⟩)))
  · cases h; exact .inr (.inr (.inr (.inr ⟨he, rfl⟩)))

end Sys2Proof.Machine
end

