-- ==== Sys2Proof/Laws/Run.lean ====
section
/-! SUPPORT. What a run, an observation and a host procedure do (R338, R262, R263). -/

namespace Sys2Proof.Machine

@[simp] theorem andThen_next {α β : Type} (a : α) (f : α → Host.Outcome β Fault Refusal) :
    andThen (.next a) f = f a := rfl
@[simp] theorem andThen_refused {α β : Type} (r : Refusal) (f : α → Host.Outcome β Fault Refusal) :
    andThen (.refused r) f = .refused r := rfl

theorem andThen_eq_next {α β : Type} {r : Host.Outcome α Fault Refusal} {f : α → Host.Outcome β Fault Refusal} {b : β} :
    andThen r f = .next b ↔ ∃ a, r = .next a ∧ f a = .next b := by
  cases r <;> simp [andThen]

/-! ## Runs -/

/-- The final state of an observed run is that of the machine's run of as many steps. -/
theorem observeRun_final {n : Nat} {s : State} {o : Observation} (h : observeRun n s = .next o) :
    Sys2Proof.core.run n s = .next o.final := by
  induction n generalizing s o with
  | zero => cases h; rfl
  | succ n ih =>
    obtain ⟨t, ht, h⟩ := andThen_eq_next.mp h
    obtain ⟨rest, hrest, h⟩ := andThen_eq_next.mp h
    have hs : Sys2Proof.core.step s = .next t := ht
    simp only [Host.Core.run, hs, ih hrest]
    cases h; rfl

/-- A step is an access or emits a buffer or neither, never both. -/
theorem observeRun_length {n : Nat} {s : State} {o : Observation} (h : observeRun n s = .next o) :
    o.accesses.length ≤ n ∧ o.buffers.length ≤ n := by
  induction n generalizing s o with
  | zero => cases h; simp
  | succ n ih =>
    obtain ⟨t, -, h⟩ := andThen_eq_next.mp h
    obtain ⟨rest, hrest, h⟩ := andThen_eq_next.mp h
    cases h
    have := ih hrest
    have ha : ((nextEvent s).accesses t.out).length ≤ 1 := by cases nextEvent s <;> simp [Event.accesses]
    have hb : t.out.buffers.length ≤ 1 := by cases t.out <;> simp [Output.buffers]
    simp only [Observation.after, List.length_append]
    omega

/-! ## Procedures -/

/-- Turns one after the other. -/
theorem Procedure.run_append {σ : Type} (P : Procedure σ) (a b : List Turn) (p : σ) (s : State) :
    P.run (a ++ b) p s = andThen (P.run a p s) fun q => P.run b q.1 q.2 := by
  induction a generalizing p s with
  | nil => rfl
  | cons turn a ih =>
    simp only [List.cons_append, Procedure.run]
    cases P.turn turn p s <;> simp [ih, andThen]

/-- The host's turn runs the instruction of the procedure's access, and the procedure sees what it showed. -/
theorem Procedure.turn_host {σ : Type} {P : Procedure σ} {p : σ} {t : HostTxn} (h : P.txn p = some t) (ha : t.addr < 64)
    (s : State) :
    P.turn .host p s =
      andThen (exec (decodeBus t.selector t.data) { s with out := .silent }) fun u => .next (P.took u.out p, u) := by
  have hs := step_of_schedule (s := { s with schedule := .host t :: s.schedule }) rfl
  rcases hostStep_cases t { s with out := .silent } with ⟨_, _, hx⟩ | ⟨hw, _⟩
  · simp only [Procedure.turn, Turn.event, h, Option.map, hs, runEvent, hx]
  · omega

/-- A finished procedure's turn passes. -/
theorem Procedure.turn_host_finished {σ : Type} {P : Procedure σ} {p : σ} (h : P.txn p = none) (s : State) :
    P.turn .host p s = .next (p, s) := by
  simp [Procedure.turn, Turn.event, h]

/-- What a register reads as does not depend on the output shown. -/
theorem regRead_out (s : State) (o : Output) (a : BitVec 6) : regRead { s with out := o } a = regRead s a := rfl

theorem decodeBus_readReg (a : BitVec 6) (h : a.toNat ≤ 0x1A) (hr : a ≠ 0x0D#6) :
    decodeBus (readReg a.toNat).selector (readReg a.toNat).data = .rdReg a := by
  revert a; decide +kernel

/-- A byte comes back from the data word it went out in. -/
@[simp] theorem byteField_setWidth (b : Byte) : byteField (b.setWidth 32) = b := by
  decide +revert +kernel

/-- The host's turn at a read of a register other than RXDATA. -/
theorem Procedure.turn_read {σ : Type} {P : Procedure σ} {p : σ} {a : BitVec 6} (h : P.txn p = some (readReg a.toNat))
    (ha : a.toNat ≤ 0x1A) (hr : a ≠ 0x0D#6) (s : State) :
    P.turn .host p s = .next (P.took (.read (regRead s a)) p, { s with out := .read (regRead s a) }) := by
  rw [Procedure.turn_host h (show a.toNat < 64 by omega) s, decodeBus_readReg a ha hr]
  rfl

/-! ### `receive` -/

theorem receive_pop (s : State) :
    receive.turn .host .pop s = andThen (execRxPop { s with out := .silent }) fun u => .next (.check, u) :=
  Procedure.turn_host (P := receive) (p := .pop) (t := command .rxPop) rfl (by decide) s

theorem receive_check (s : State) :
    receive.turn .host .check s =
      .next (if s.err = .rxEmpty then .finished none else .length, { s with out := .read (s.err.code.setWidth 32) }) := by
  rw [Procedure.turn_read (a := 0x04#6) rfl (by decide) (by decide) s]
  have hv : regRead s 0x04#6 = s.err.code.setWidth 32 := rfl
  rw [hv]
  cases s.err <;> rfl

theorem receive_length (s : State) :
    receive.turn .host .length s =
      .next (.reading (lengthField 9 s.rdBuf.length).toNat [], { s with out := .read (lengthField 9 s.rdBuf.length) }) :=
  Procedure.turn_read (P := receive) (p := .length) (a := 0x0B#6) rfl (by decide) (by decide) s

theorem receive_rxdata (left : Nat) (got : List Byte) (s : State) :
    receive.turn .host (.bytes left got) s =
      andThen (execRdRxdata { s with out := .silent }) fun u => .next (Receive.took u.out (.bytes left got), u) :=
  Procedure.turn_host (P := receive) (p := .bytes left got) (t := readReg 0x0D) rfl (by decide) s

/-- Reading on to the end of the read buffer. -/
theorem receive_bytes (buf got : List Byte) {s : State} (h : s.rdBuf = got ++ buf) (hp : s.rdPos = got.length) :
    ∃ t, receive.run (List.replicate buf.length .host) (.reading buf.length got) s = .next (.finished (some (got ++ buf)), t)
      ∧ t.rxq = s.rxq := by
  induction buf generalizing got s with
  | nil => exact ⟨s, by simp [Receive.reading, Procedure.run], rfl⟩
  | cons b buf ih =>
    have hr : execRdRxdata { s with out := .silent } =
        .next { s with rdPos := s.rdPos + 1, err := .ok, out := .read (b.setWidth 32) } := by
      rcases execRdRxdata_cases { s with out := .silent } with ⟨he, -⟩ | ⟨he, hx⟩
      · simp [h, hp] at he
      · rw [hx]; simp [rxdataView, rxdataAtEnd, h, hp]
    obtain ⟨t, ht, hq⟩ := ih (got ++ [b]) (s := { s with rdPos := s.rdPos + 1, err := .ok, out := .read (b.setWidth 32) })
      (by simp [h]) (by simp [hp])
    refine ⟨t, ?_, hq⟩
    simpa [Receive.reading, List.replicate_succ, Procedure.run, receive_rxdata, hr, Receive.took] using ht

/-- With a payload at the head of the delivery queue the answer is that payload, which leaves the queue (R263). -/
theorem receive_some {payload : List Byte} {rest : List (List Byte)} {s : State} (h : s.rxq = payload :: rest)
    (hl : payload.length ≤ 255) :
    ∃ t, receive.run (List.replicate (3 + payload.length) .host) .pop s = .next (.finished (some payload), t)
      ∧ t.rxq = rest := by
  have hn : (lengthField 9 payload.length).toNat = payload.length := by
    simp [lengthField]; omega
  obtain ⟨t, ht, hq⟩ := receive_bytes payload [] (s := { s with
      rxq := rest, rdBuf := payload, rdPos := 0, err := .ok, out := .read (lengthField 9 payload.length) }) rfl rfl
  refine ⟨t, ?_, hq⟩
  rw [show 3 + payload.length = payload.length + 1 + 1 + 1 by omega]
  simpa [List.replicate_succ, Procedure.run, receive_pop, receive_check, receive_length, execRxPop, h, State.succeed, hn]
    using ht

/-- On an empty delivery queue the answer is None (R263). -/
theorem receive_none {s : State} (h : s.rxq = []) :
    receive.run [.host, .host] .pop s =
      .next (.finished none, { s with rdBuf := [], rdPos := 0, err := .rxEmpty, out := .read 0x05#32 }) := by
  simp [Procedure.run, receive_pop, receive_check, execRxPop, h, State.raise, ErrCode.code]

/-! ### `transmit` -/

theorem decodeBus_writeCmd (c : Command) : decodeBus (command c).selector (command c).data = .wrCmd c.encode := by
  simp [decodeBus, command, writeReg, HostTxn.selector]

theorem decodeBus_writeTxdata (v : Word) : decodeBus (writeReg 0x07 v).selector (writeReg 0x07 v).data = .wrTxdata v := by
  simp [decodeBus, writeReg, HostTxn.selector]

theorem decodeCommand_txSend (dest : Byte) : decodeCommand (Command.txSend dest).encode = some (.txSend dest) := by
  decide +revert +kernel

theorem transmit_clear (p : Transmit) (h : p.phase = .clear) (s : State) :
    transmit.turn .host p s =
      .next ({ p with phase := .stage p.chunk }, { s with stage := [], err := .ok, out := .silent }) := by
  rw [Procedure.turn_host (t := command .txClear) (by simp [transmit, Transmit.txn, h]) (by decide) s]
  change Host.Outcome.next (p.took _, _) = _
  simp only [Transmit.took, h]
  rfl

theorem transmit_stage (p : Transmit) (b : Byte) (left : List Byte) (h : p.phase = .stage (b :: left)) {s : State}
    (hl : s.stage.length < 255) :
    transmit.turn .host p s =
      .next ({ p with phase := .stage left }, { s with stage := s.stage ++ [b], err := .ok, out := .silent }) := by
  rw [Procedure.turn_host (t := writeReg 0x07 (b.setWidth 32)) (by simp [transmit, Transmit.txn, h]) (show 7 < 64 by decide) s,
    decodeBus_writeTxdata]
  simp only [exec]
  rcases execWrTxdata_cases (b.setWidth 32) { s with out := .silent } with ⟨he, -⟩ | ⟨-, hx⟩
  · exact absurd he (Nat.ne_of_lt hl)
  · simp [hx, transmit, Transmit.took, h]

theorem transmit_send (p : Transmit) (h : p.phase = .stage []) (s : State) :
    transmit.turn .host p s =
      andThen (execTxSend p.dest { s with out := .silent }) fun u => .next ({ p with phase := .check }, u) := by
  rw [Procedure.turn_host (t := command (.txSend p.dest)) (by simp [transmit, Transmit.txn, h]) (show 3 < 64 by decide) s,
    decodeBus_writeCmd]
  simp only [exec, execWrCmd, decodeCommand_txSend, transmit, Transmit.took, h]

theorem transmit_check (p : Transmit) (h : p.phase = .check) (s : State) :
    transmit.turn .host p s =
      .next (if s.err = .ok then Transmit.atChunk p.dest p.waits p.later
        else if p.waits then { p with phase := .wait } else { p with phase := .finished .queueFull },
        { s with out := .read (s.err.code.setWidth 32) }) := by
  rw [Procedure.turn_read (a := 0x04#6) (by simp [transmit, Transmit.txn, h]) (by decide) (by decide) s]
  have hv : regRead s 0x04#6 = s.err.code.setWidth 32 := rfl
  rw [hv]
  simp only [transmit, Transmit.took, h]
  cases s.err <;> rfl

/-- While it waits, `transmit` reads STATUS; it goes back to TX_SEND, the chunk staged, once TXQ_FULL = 0. -/
theorem transmit_wait (p : Transmit) (h : p.phase = .wait) (s : State) :
    transmit.turn .host p s =
      .next (if s.txq.length = s.cfg.txqDepth then p else { p with phase := .stage [] },
        { s with out := .read (statusWord s) }) := by
  rw [Procedure.turn_read (a := 0x01#6) (by simp [transmit, Transmit.txn, h]) (by decide) (by decide) s]
  have hv : regRead s 0x01#6 = statusWord s := rfl
  have hf : (statusWord s).getLsbD 9 = (s.txq.length == s.cfg.txqDepth) := by
    simp only [statusWord, BitVec.getLsbD_append]
    simp
  simp only [hv, transmit, Transmit.took, h, hf, beq_iff_eq]

/-- The bytes left are staged one by one. -/
theorem transmit_stage_all (left : List Byte) {p : Transmit} (h : p.phase = .stage left) {s : State}
    (hl : s.stage.length + left.length ≤ 255) :
    ∃ e o, transmit.run (List.replicate left.length .host) p s =
      .next ({ p with phase := .stage [] }, { s with stage := s.stage ++ left, err := e, out := o }) := by
  induction left generalizing p s with
  | nil =>
    obtain ⟨_, _, _, _, _⟩ := p
    cases h
    exact ⟨s.err, s.out, by simp [Procedure.run]⟩
  | cons b left ih =>
    simp only [List.length_cons] at hl
    obtain ⟨e, o, hr⟩ := ih (p := { p with phase := .stage left }) rfl
      (s := { s with stage := s.stage ++ [b], err := .ok, out := .silent }) (by simp; omega)
    refine ⟨e, o, ?_⟩
    rw [List.length_cons, List.replicate_succ, Procedure.run, transmit_stage p b left h (by omega), andThen_next, hr]
    simp

/-- TX_SEND and the read of ERR, with room in the queue: the staged chunk is queued, and `transmit` goes on (R262, R200). -/
theorem transmit_queues {p : Transmit} (h : p.phase = .stage []) {s : State} (hq : s.txq.length ≠ s.cfg.txqDepth) :
    transmit.run [.host, .host] p s =
      .next (Transmit.atChunk p.dest p.waits p.later, { s with
        txq := s.txq ++ [encodeFrame p.dest s.localId s.frameId s.stage], frameId := s.frameId + 1, stage := [],
        err := .ok, out := .read 0#32 }) := by
  rcases execTxSend_cases p.dest { s with out := .silent } with ⟨he, -⟩ | ⟨-, hx⟩
  · exact absurd he hq
  · simp [Procedure.run, transmit_send p h, hx, transmit_check, ErrCode.code]

/-- And with none: the chunk stays staged, and `transmit` waits or reports (R262, R328). -/
theorem transmit_full {p : Transmit} (h : p.phase = .stage []) {s : State} (hq : s.txq.length = s.cfg.txqDepth) :
    transmit.run [.host, .host] p s =
      .next ({ p with phase := if p.waits then .wait else .finished .queueFull },
        { s with err := .queueFull, out := .read 0x03#32 }) := by
  rcases execTxSend_cases p.dest { s with out := .silent } with ⟨-, hx⟩ | ⟨he, -⟩
  · simp only [Procedure.run, transmit_send p h, hx, andThen_next, transmit_check]
    cases p.waits <;> rfl
  · exact absurd hq he

/-- The turns of a chunk: TX_CLEAR, the bytes, TX_SEND and the read of ERR. -/
theorem replicate_chunk_turns (n : Nat) :
    List.replicate (3 + n) Turn.host = List.replicate 1 .host ++ (List.replicate n .host ++ List.replicate 2 .host) := by
  simp only [List.replicate_append_replicate]
  congr 1; omega

/-- A whole chunk, with room in the queue. -/
theorem transmit_chunk {p : Transmit} (h : p.phase = .clear) (hl : p.chunk.length ≤ 255) {s : State}
    (hq : s.txq.length ≠ s.cfg.txqDepth) :
    transmit.run (List.replicate (3 + p.chunk.length) .host) p s =
      .next (Transmit.atChunk p.dest p.waits p.later, { s with
        txq := s.txq ++ [encodeFrame p.dest s.localId s.frameId p.chunk], frameId := s.frameId + 1, stage := [],
        err := .ok, out := .read 0#32 }) := by
  obtain ⟨e, o, hr⟩ := transmit_stage_all p.chunk (p := { p with phase := .stage p.chunk }) rfl
    (s := { s with stage := [], err := .ok, out := .silent }) (by simpa using hl)
  rw [replicate_chunk_turns, Procedure.run_append]
  simp only [List.replicate_one, Procedure.run, transmit_clear p h, andThen_next]
  rw [Procedure.run_append, hr]
  exact transmit_queues rfl hq

/-- A chunk sent again after QUEUE_FULL, once there is room: what was staged is queued, with no byte lost (R262). -/
theorem transmit_again {p : Transmit} (h : p.phase = .wait) {s : State} (hq : s.txq.length ≠ s.cfg.txqDepth) :
    transmit.run [.host, .host, .host] p s =
      .next (Transmit.atChunk p.dest p.waits p.later, { s with
        txq := s.txq ++ [encodeFrame p.dest s.localId s.frameId s.stage], frameId := s.frameId + 1, stage := [],
        err := .ok, out := .read 0#32 }) := by
  rw [show [Turn.host, .host, .host] = [.host] ++ [.host, .host] from rfl, Procedure.run_append]
  simp only [Procedure.run, transmit_wait p h, if_neg hq, andThen_next]
  exact transmit_queues (p := { p with phase := .stage [] }) rfl hq

/-- With room for all of its chunks `transmit` finishes with all of them queued in order, under rising ids (R262). -/
theorem transmit_sends (dest : Byte) (waits : Bool) (parts : List (List Byte)) (hl : ∀ c ∈ parts, c.length ≤ 255) {s : State}
    (hq : s.txq.length + parts.length ≤ s.cfg.txqDepth) :
    ∃ p t, transmit.run (List.replicate (parts.map (3 + ·.length)).sum .host) (Transmit.atChunk dest waits parts) s =
        .next (p, t)
      ∧ p.phase = .finished .sent
      ∧ t.txq = s.txq ++ parts.mapIdx fun i c => encodeFrame dest s.localId (s.frameId + BitVec.ofNat 8 i) c := by
  induction parts generalizing s with
  | nil => exact ⟨_, s, rfl, rfl, by simp⟩
  | cons c parts ih =>
    simp only [List.length_cons] at hq
    obtain ⟨p, t, hr, hp, ht⟩ := ih (fun c hc => hl c (List.mem_cons_of_mem _ hc)) (s := { s with
        txq := s.txq ++ [encodeFrame dest s.localId s.frameId c], frameId := s.frameId + 1, stage := [],
        err := .ok, out := .read 0#32 }) (by simp; omega)
    refine ⟨p, t, ?_, hp, ?_⟩
    · have hc : transmit.run (List.replicate (3 + c.length) .host) (Transmit.atChunk dest waits (c :: parts)) s = _ :=
        transmit_chunk (p := Transmit.atChunk dest waits (c :: parts)) (s := s) rfl (hl c List.mem_cons_self) (by omega)
      rw [List.map_cons, List.sum_cons, List.replicate_add, Procedure.run_append, hc]
      exact hr
    · have hi (i : Nat) : s.frameId + 1 + BitVec.ofNat 8 i = s.frameId + BitVec.ofNat 8 (i + 1) := by
        rw [BitVec.ofNat_add, BitVec.add_assoc, BitVec.add_comm 1]; rfl
      simp only [ht, List.mapIdx_cons, hi, List.append_assoc]
      simp

/-! ### Chunks (R198, R236) -/

theorem chunksFrom_flatten {size : Nat} (hs : 0 < size) (fuel : Nat) (text : List (List Byte)) (h : text.length ≤ fuel) :
    (chunksFrom size fuel text).flatten = text := by
  induction fuel generalizing text with
  | zero => simp_all [chunksFrom]
  | succ fuel ih =>
    cases text with
    | nil => rfl
    | cons c text =>
      rw [chunksFrom, List.flatten_cons, ih _ (by simp only [List.length_drop, List.length_cons] at *; omega),
        List.take_append_drop]
      simp

/-- The payloads of a text's chunks, joined in order, are the text's bytes. -/
theorem joinPayloads_chunks {size : Nat} (hs : 0 < size) (text : List (List Byte)) :
    joinPayloads ((chunks size text).map List.flatten) = text.flatten := by
  rw [joinPayloads, ← List.flatten_flatten, chunks, if_neg (by omega), chunksFrom_flatten hs _ _ le_rfl]

theorem chunksFrom_length {size : Nat} (fuel : Nat) (text : List (List Byte)) :
    ∀ chunk ∈ chunksFrom size fuel text, chunk.length ≤ size ∧ ∀ ch ∈ chunk, ch ∈ text := by
  induction fuel generalizing text with
  | zero => simp [chunksFrom]
  | succ fuel ih =>
    cases text with
    | nil => simp [chunksFrom]
    | cons c text =>
      intro chunk hc
      rcases List.mem_cons.mp hc with rfl | hc
      · exact ⟨by simp, fun ch h => List.mem_of_mem_take h⟩
      · obtain ⟨hl, hm⟩ := ih _ chunk hc
        exact ⟨hl, fun ch h => List.mem_of_mem_drop (hm ch h)⟩

/-- A chunk of characters of at most MAX_BYTES_PER_CHAR bytes fits in a payload. -/
theorem chunk_fits (c : Config) {text : List (List Byte)} (h : ∀ ch ∈ text, ch.length ≤ c.maxBytesPerChar) :
    ∀ part ∈ (chunks (maxChunkSize c) text).map List.flatten, part.length ≤ 255 := by
  rintro _ hp
  obtain ⟨chunk, hc, rfl⟩ := List.mem_map.mp hp
  unfold chunks at hc
  split at hc
  · simp at hc
  · obtain ⟨hl, hm⟩ := chunksFrom_length _ _ chunk hc
    rw [List.length_flatten]
    calc (chunk.map List.length).sum ≤ (chunk.map List.length).length • c.maxBytesPerChar :=
          List.sum_le_card_nsmul _ _ (by simpa using fun ch hch => h ch (hm ch hch))
      _ ≤ maxChunkSize c * c.maxBytesPerChar := by
          rw [List.length_map, smul_eq_mul]; exact Nat.mul_le_mul_right _ hl
      _ ≤ 255 := Nat.div_mul_le_self _ _

/-- `transmit` of a text, with room for all of its chunks, finishes with them queued in order (R198, R262). -/
theorem transmit_text (c : Config) (waits : Bool) (dest : Byte) {text : List (List Byte)}
    (h : ∀ ch ∈ text, ch.length ≤ c.maxBytesPerChar) {s : State}
    (hq : s.txq.length + (chunks (maxChunkSize c) text).length ≤ s.cfg.txqDepth) :
    ∃ n p t, transmit.run (List.replicate n .host) (Transmit.start c waits text dest) s = .next (p, t)
      ∧ p.phase = .finished .sent
      ∧ t.txq = s.txq ++ ((chunks (maxChunkSize c) text).map List.flatten).mapIdx fun i part =>
          encodeFrame dest s.localId (s.frameId + BitVec.ofNat 8 i) part :=
  ⟨_, transmit_sends dest waits _ (chunk_fits c h) (by simpa using hq)⟩

end Sys2Proof.Machine
end

