-- ==== Sys2Proof/Laws/Trig.lean ====
section
/-! SUPPORT. The exact comparison of rational numbers with cosines is right: `leCos_iff`, and the bounds `floorCos` gives. -/

namespace Sys2Proof.Machine

open Real

/-- `sin` of an angle less `j` half turns. -/
theorem sin_sub_nat_mul_pi' (x : ℝ) (j : ℕ) : sin (x - j * π) = (if j % 2 = 0 then 1 else -1) * sin x := by
  rw [sin_sub_nat_mul_pi]
  rcases Nat.mod_two_eq_zero_or_one j with h | h
  · rw [if_pos h, (Nat.even_iff.mpr h).neg_one_pow]
  · rw [if_neg (by omega), (Nat.odd_iff.mpr h).neg_one_pow]

/-- In one full turn the sine is not positive exactly from the half turn on. -/
theorem sin_nonpos_iff_pi_le {θ : ℝ} (h0 : 0 < θ) (h2 : θ < 2 * π) : sin θ ≤ 0 ↔ π ≤ θ := by
  constructor
  · intro h
    by_contra hlt
    exact absurd (sin_pos_of_pos_of_lt_pi h0 (not_le.mp hlt)) (not_lt.mpr h)
  · intro h
    have : sin (θ - π) = -sin θ := sin_sub_pi θ
    have hn : 0 ≤ sin (θ - π) := sin_nonneg_of_nonneg_of_le_pi (by linarith) (by linarith)
    linarith

/-- The loop keeps `j π ≤ n φ < (j + 1) π`. -/
theorem halfTurnsLoop_spec (num den : ℤ) (φ : ℝ) (hden : 0 < den) (h0 : 0 < φ) (hπ : φ < π)
    (hcos : cos φ * den = num) :
    ∀ (m n : ℕ) (prev cur : ℤ) (j : ℕ),
      (prev : ℝ) * sin φ * den = (den : ℝ) ^ n * sin (n * φ) →
      (cur : ℝ) * sin φ = (den : ℝ) ^ n * sin ((n + 1) * φ) →
      (j : ℝ) * π ≤ (n + 1) * φ → (n + 1) * φ < (j + 1) * π →
      (halfTurnsLoop (2 * num) (den * den) m prev cur j : ℝ) * π ≤ (n + 1 + m) * φ ∧
        (n + 1 + m) * φ < (halfTurnsLoop (2 * num) (den * den) m prev cur j + 1) * π := by
  intro m
  induction m with
  | zero => intro n prev cur j _ _ h1 h2; simpa [halfTurnsLoop] using ⟨h1, h2⟩
  | succ m ih =>
    intro n prev cur j hp hc h1 h2
    have hd : (0 : ℝ) < den := by exact_mod_cast hden
    have hs : 0 < sin φ := sin_pos_of_pos_of_lt_pi h0 hπ
    have hrec : sin ((n + 1 + 1) * φ) = 2 * cos φ * sin ((n + 1) * φ) - sin (n * φ) := by
      have e1 : ((n : ℝ) + 1 + 1) * φ = (n + 1) * φ + φ := by ring
      have e2 : (n : ℝ) * φ = (n + 1) * φ - φ := by ring
      rw [e1, e2, sin_add, sin_sub]; ring
    set next : ℤ := 2 * num * cur - den * den * prev with hnext
    have hn : (next : ℝ) * sin φ = (den : ℝ) ^ (n + 1) * sin ((n + 1 + 1) * φ) := by
      rw [hrec, hnext]; push_cast
      have : (2 * (num : ℝ) * cur - den * den * prev) * sin φ
          = 2 * num * (cur * sin φ) - den * (prev * sin φ * den) := by ring
      rw [this, hc, hp, ← hcos, pow_succ]; ring
    have hp' : (cur : ℝ) * sin φ * den = (den : ℝ) ^ (n + 1) * sin ((n + 1 : ℕ) * φ) := by
      rw [hc, pow_succ]; push_cast; ring
    have hn' : (next : ℝ) * sin φ = (den : ℝ) ^ (n + 1) * sin (((n + 1 : ℕ) + 1) * φ) := by
      rw [hn]; push_cast; ring_nf
    -- the sign test tells whether `(n + 2) φ` has passed the next half turn
    have hθ0 : 0 < ((n : ℝ) + 1 + 1) * φ - j * π := by
      have : ((n : ℝ) + 1 + 1) * φ = (n + 1) * φ + φ := by ring
      linarith
    have hθ2 : ((n : ℝ) + 1 + 1) * φ - j * π < 2 * π := by
      have : ((n : ℝ) + 1 + 1) * φ = (n + 1) * φ + φ := by ring
      linarith
    have hsign : ((if j % 2 = 0 then next else -next) ≤ 0) ↔ π ≤ ((n : ℝ) + 1 + 1) * φ - j * π := by
      rw [← sin_nonpos_iff_pi_le hθ0 hθ2, sin_sub_nat_mul_pi']
      have hpow : (0 : ℝ) < (den : ℝ) ^ (n + 1) := by positivity
      have key : ((next : ℝ) ≤ 0 ↔ sin (((n : ℝ) + 1 + 1) * φ) ≤ 0) ∧
          ((0 : ℝ) ≤ next ↔ 0 ≤ sin (((n : ℝ) + 1 + 1) * φ)) := by
        constructor <;> constructor <;> intro h <;> by_contra hh <;> push Not at hh <;>
          nlinarith [mul_pos hpow hs, mul_pos hs hpow]
      split
      · rw [one_mul, ← key.1]; exact_mod_cast Iff.rfl
      · rw [neg_one_mul, neg_nonpos, neg_nonpos, ← key.2]; exact_mod_cast Iff.rfl
    have e3 : ((n : ℝ) + 1 + (m + 1 : ℕ)) * φ = (((n + 1 : ℕ) : ℝ) + 1 + m) * φ := by push_cast; ring
    have e4 : (((n + 1 : ℕ) : ℝ) + 1) * φ = (n + 1 + 1) * φ := by push_cast; ring
    rw [halfTurnsLoop]
    simp only [← hnext]
    rw [e3]
    by_cases hle : (if j % 2 = 0 then next else -next) ≤ 0
    · rw [if_pos hle]
      refine ih (n + 1) cur next (j + 1) hp' hn' ?_ ?_
      · have := hsign.mp hle; rw [e4]; push_cast; linarith
      · rw [e4]; push_cast; linarith
    · rw [if_neg hle]
      have hlt : ((n : ℝ) + 1 + 1) * φ - j * π < π := not_le.mp fun h => hle (hsign.mpr h)
      refine ih (n + 1) cur next j hp' hn' ?_ ?_
      · rw [e4]; linarith
      · rw [e4]; linarith

/-- `halfTurns num den N = ⌊N φ / π⌋` for `cos φ = num / den`. -/
theorem halfTurns_spec (num den : ℤ) (N : ℕ) (φ : ℝ) (hden : 0 < den) (hN : 0 < N) (h0 : 0 < φ) (hπ : φ < π)
    (hcos : cos φ * den = num) :
    (halfTurns num den N : ℝ) * π ≤ N * φ ∧ N * φ < (halfTurns num den N + 1) * π := by
  have h := halfTurnsLoop_spec num den φ hden h0 hπ hcos (N - 1) 0 0 1 0 (by simp) (by simp)
    (by simpa using h0.le) (by simpa using hπ)
  have e : ((0 : ℕ) : ℝ) + 1 + (N - 1 : ℕ) = N := by
    rw [Nat.cast_sub hN]; push_cast; ring
  rw [e] at h
  exact h

/-- Reducing a fraction does not change it. -/
theorem reduced_fraction (num : ℤ) (den : ℕ) (hden : 0 < den) :
    0 < ((den / Nat.gcd num.natAbs den : ℕ) : ℤ) ∧
      (num : ℝ) * ((den / Nat.gcd num.natAbs den : ℕ) : ℝ)
        = ((num / (Nat.gcd num.natAbs den : ℤ) : ℤ) : ℝ) * den := by
  set g := Nat.gcd num.natAbs den with hg
  have hgpos : 0 < g := Nat.gcd_pos_of_pos_right _ hden
  have h1 : g ∣ den := Nat.gcd_dvd_right _ _
  have h2 : (g : ℤ) ∣ num := Int.natCast_dvd.mpr (Nat.gcd_dvd_left _ _)
  obtain ⟨d, hd⟩ := h1
  obtain ⟨n, hn⟩ := h2
  have hdp : 0 < d := Nat.pos_of_ne_zero (by rintro rfl; simp at hd; omega)
  rw [hd, Nat.mul_div_cancel_left _ hgpos, hn, Int.mul_ediv_cancel_left _ (by exact_mod_cast hgpos.ne')]
  refine ⟨by exact_mod_cast hdp, ?_⟩
  push_cast; ring

/-- `leCos` decides `num / den ≤ cos (2 π a / N)`. -/
theorem leCos_iff (num : ℤ) (den N a : ℕ) (hden : 0 < den) (hN : 0 < N) (ha : 2 * a ≤ N) :
    leCos num den N a = true ↔ (num : ℝ) / den ≤ cos (2 * π * a / N) := by
  have hd : (0 : ℝ) < den := by exact_mod_cast hden
  have hNr : (0 : ℝ) < N := by exact_mod_cast hN
  have hψ0 : 0 ≤ 2 * π * a / N := by positivity
  have har : (2 : ℝ) * a ≤ N := by exact_mod_cast ha
  have hψπ : 2 * π * a / N ≤ π := by rw [div_le_iff₀ hNr]; nlinarith [pi_pos]
  unfold leCos
  split_ifs with hlo hhi
  · have : (num : ℝ) ≤ -den := by exact_mod_cast hlo
    have h1 : (num : ℝ) / den ≤ -1 := by rw [div_le_iff₀ hd]; linarith
    simpa using h1.trans (neg_one_le_cos _)
  · have h1 : (den : ℝ) ≤ num := by exact_mod_cast hhi
    simp only [Bool.and_eq_true, beq_iff_eq]
    constructor
    · rintro ⟨rfl, rfl⟩; simp [hd.ne']
    · intro h
      have hge : 1 ≤ (num : ℝ) / den := by rw [le_div_iff₀ hd]; linarith
      have hone : cos (2 * π * a / N) = 1 := le_antisymm (cos_le_one _) (hge.trans h)
      have hz : 2 * π * a / N = 0 := by
        refine (cos_eq_one_iff_of_lt_of_lt ?_ ?_).mp hone <;> linarith [pi_pos]
      have ha0 : a = 0 := by
        rcases div_eq_zero_iff.mp hz with h' | h'
        · have : (a : ℝ) = 0 := by simpa [pi_ne_zero] using h'
          exact_mod_cast this
        · exact absurd h' hNr.ne'
      refine ⟨?_, ha0⟩
      have : (num : ℝ) / den ≤ 1 := h.trans (cos_le_one _)
      rw [div_le_one hd] at this
      have : (num : ℝ) = den := le_antisymm this h1
      exact_mod_cast this
  · push Not at hlo hhi
    have hlo' : (-(den : ℝ)) < num := by exact_mod_cast hlo
    have hhi' : (num : ℝ) < den := by exact_mod_cast hhi
    set c : ℝ := (num : ℝ) / den with hc
    have hc1 : -1 < c := by rw [hc, lt_div_iff₀ hd]; linarith
    have hc2 : c < 1 := by rw [hc, div_lt_one hd]; linarith
    set φ := arccos c with hφ
    have hcosφ : cos φ = c := cos_arccos hc1.le hc2.le
    have hφ0 : 0 < φ := arccos_pos.mpr hc2
    have hφπ : φ < π := by
      refine lt_of_le_of_ne (arccos_le_pi c) fun h => ?_
      rw [h, cos_pi] at hcosφ; linarith
    obtain ⟨hdpos, hfrac⟩ := reduced_fraction num den hden
    have hcosr : cos φ * ((den / Nat.gcd num.natAbs den : ℕ) : ℤ)
        = ((num / (Nat.gcd num.natAbs den : ℤ) : ℤ) : ℝ) := by
      rw [hcosφ, hc, div_mul_eq_mul_div, div_eq_iff hd.ne']; push_cast at hfrac ⊢; exact hfrac
    have hhpos : 0 < Nat.gcd a N := Nat.gcd_pos_of_pos_right _ hN
    obtain ⟨N', hN'⟩ := Nat.gcd_dvd_right a N
    obtain ⟨a', ha'⟩ := Nat.gcd_dvd_left a N
    have hN'pos : 0 < N' := Nat.pos_of_ne_zero (by rintro rfl; simp at hN'; omega)
    have hNdiv : N / Nat.gcd a N = N' := Nat.div_eq_of_eq_mul_right hhpos hN'
    have hadiv : a / Nat.gcd a N = a' := Nat.div_eq_of_eq_mul_right hhpos ha'
    have hangle : 2 * π * a / N = 2 * π * a' / N' := by
      have hNr' : (N : ℝ) = Nat.gcd a N * N' := by exact_mod_cast hN'
      have har' : (a : ℝ) = Nat.gcd a N * a' := by exact_mod_cast ha'
      have hg : (Nat.gcd a N : ℝ) ≠ 0 := by exact_mod_cast hhpos.ne'
      have hn : (N' : ℝ) ≠ 0 := by exact_mod_cast hN'pos.ne'
      rw [har', hNr']; field_simp
    obtain ⟨hj1, hj2⟩ := halfTurns_spec _ _ N' φ hdpos hN'pos hφ0 hφπ hcosr
    simp only [hNdiv, hadiv, decide_eq_true_eq]
    set j := halfTurns (num / (Nat.gcd num.natAbs den : ℤ)) ((den / Nat.gcd num.natAbs den : ℕ) : ℤ) N'
    have hNr'' : (0 : ℝ) < N' := by exact_mod_cast hN'pos
    have hiff : 2 * a' ≤ j ↔ 2 * π * a' / N' ≤ φ := by
      rw [div_le_iff₀ hNr'']
      constructor
      · intro h
        have : ((2 * a' : ℕ) : ℝ) ≤ j := by exact_mod_cast h
        push_cast at this
        nlinarith [pi_pos]
      · intro h
        by_contra hlt
        have : (j : ℝ) + 1 ≤ (2 * a' : ℕ) := by exact_mod_cast not_le.mp hlt
        push_cast at this
        nlinarith [pi_pos]
    rw [hiff, ← hangle, ← hcosφ]
    exact (strictAntiOn_cos.le_iff_ge ⟨hφ0.le, hφπ.le⟩ ⟨hψ0, hψπ⟩).symm

/-- The search keeps its lower bound and ends within one step above it. -/
theorem floorCosFrom_spec (den N a : ℕ) (hden : 0 < den) (hN : 0 < N) (ha : 2 * a ≤ N) :
    ∀ (bits : ℕ) (base : ℤ), (base : ℝ) / den ≤ cos (2 * π * a / N) →
      cos (2 * π * a / N) ≤ ((base : ℝ) + 2 ^ bits) / den →
      (floorCosFrom den N a bits base : ℝ) / den ≤ cos (2 * π * a / N) ∧
        cos (2 * π * a / N) ≤ ((floorCosFrom den N a bits base : ℝ) + 1) / den := by
  intro bits
  induction bits with
  | zero => intro base h1 h2; simpa [floorCosFrom] using ⟨h1, by simpa using h2⟩
  | succ bits ih =>
    intro base h1 h2
    rw [floorCosFrom]
    have hd : (0 : ℝ) < den := by exact_mod_cast hden
    split_ifs with h
    · rw [leCos_iff _ _ _ _ hden hN ha] at h
      refine ih _ h ?_
      push_cast at h ⊢
      refine h2.trans (le_of_eq ?_)
      rw [pow_succ]; ring
    · rw [leCos_iff _ _ _ _ hden hN ha, not_le] at h
      refine ih _ h1 ?_
      push_cast at h
      exact h.le

/-- `floorCos` bounds the cosine from both sides, one step apart. -/
theorem floorCos_spec (p N a : ℕ) (hN : 0 < N) (ha : 2 * a ≤ N) :
    (floorCos p N a : ℝ) ≤ 2 ^ p * cos (2 * π * a / N) ∧
      2 ^ p * cos (2 * π * a / N) ≤ (floorCos p N a : ℝ) + 1 := by
  have hd : (0 : ℝ) < ((2 ^ p : ℕ) : ℝ) := by positivity
  have h := floorCosFrom_spec (2 ^ p) N a (by positivity) hN ha (p + 1) (-(2 ^ p)) ?_ ?_
  · obtain ⟨h1, h2⟩ := h
    rw [div_le_iff₀ hd] at h1
    rw [le_div_iff₀ hd] at h2
    push_cast at h1 h2
    unfold floorCos
    constructor <;> nlinarith
  · rw [div_le_iff₀ hd]; push_cast at hd ⊢; nlinarith [neg_one_le_cos (2 * π * a / N)]
  · rw [le_div_iff₀ hd]; push_cast at hd ⊢; rw [pow_succ]; nlinarith [cos_le_one (2 * π * a / N)]

end Sys2Proof.Machine
end

