-- ==== Sys2Proof/Tests/Slice0.lean ====
section
/-! SUPPORT. The model's own tests. Expected results are those of spec/95_test_vectors.md, named in each comment, or worked
by hand from the rule named. At the end, one witness for each obligation that has hypotheses. -/

namespace Sys2Proof.Tests

open Sys2Proof Sys2Proof.Machine Sys2Proof.Claims

/-! ## Configurations and states (95_test_vectors.md section 0) -/

/-- TC-P. -/
def tcP : Config where
  sampleRate := 10000
  nbuf := 8
  tableLen := 8
  freqA := 1250
  freqB := 2500
  preambleLen := 2
  preamble := [true, false]
  winBufs := 1
  capqDepth := 4
  txqDepth := 4
  rxqDepth := 4
  maxBytesPerChar := 4
  textRule := .utf8
  threshRule := 0
  tolNum := 0
  tolDen := 1

/-- TC-M. -/
def tcM : Config := { tcP with nbuf := 4, winBufs := 2 }

/-- The reset state under TC-P, with AUDIO_OK = 1 as the vectors take it. -/
def rstP : State := { State.resetOf tcP with audioOk := some true }

/-- After START. -/
def startedP : State := { rstP with started := true }

/-- A check of the next state; false of a stop. -/
def after (r : Result) (p : State → Bool) : Bool :=
  match r with
  | .next t => p t
  | .fault _ => false
  | .refused _ => false

/-- The payload "hi" and its frame (R200's worked example). -/
def hi : List Byte := [0x68#8, 0x69#8]
def hiFrame : List Byte := [0x02#8, 0x01#8, 0x00#8, 0x02#8, 0x68#8, 0x69#8, 0x00#8]

/-! ## WellFormed: one ill-formed term for each check -/

theorem test_rdReg_not_rxdata : (Instr.rdReg 0x0D#6).wellFormed = false := by decide
theorem test_rdReg_not_reserved : (Instr.rdReg 0x1B#6).wellFormed = false := by decide
theorem test_rdReg_last_mapped : (Instr.rdReg 0x1A#6).wellFormed = true := by decide
theorem test_wrIgnored_not_ctrl : (Instr.wrIgnored 0x02#6 0#32).wellFormed = false := by decide
theorem test_wrIgnored_not_cmd : (Instr.wrIgnored 0x03#6 0#32).wellFormed = false := by decide
theorem test_wrIgnored_not_local_id : (Instr.wrIgnored 0x05#6 0#32).wellFormed = false := by decide
theorem test_wrIgnored_not_txdata : (Instr.wrIgnored 0x07#6 0#32).wellFormed = false := by decide
theorem test_rdReserved_not_mapped : (Instr.rdReserved 0x1A#6).wellFormed = false := by decide

/-! ## Decode: words written out from 30_encoding.md (OPC, then the operand; `r aaaaaa`, then the data word) -/

theorem test_decode_nop : decodeTableWord 32 0b00000000000000000000000000000000 = some .nop := by decide
theorem test_decode_start : decodeTableWord 32 0b00000001000000000000000000000000 = some .start := by decide
/-- R200's worked example: TX_SEND 0x02 is 0x02020000. -/
theorem test_decode_txSend : decodeTableWord 32 0b00000010000000100000000000000000 = some (.txSend 0x02#8) := by decide
theorem test_decode_txClear : decodeTableWord 32 0b00000011000000000000000000000000 = some .txClear := by decide
theorem test_decode_rxPop : decodeTableWord 32 0b00000100000000000000000000000000 = some .rxPop := by decide
theorem test_decode_clrStats : decodeTableWord 32 0b00000101000000000000000000000000 = some .clrStats := by decide
/-- R134's worked example: TONE_READ 1, 1 is 0x06010001. -/
theorem test_decode_toneRead :
    decodeTableWord 32 0b00000110000000010000000000000001 = some (.toneRead true 0x0001#16) := by decide
theorem test_decode_rdReg : decodeTableWord 8 0b0001110 = some (.rdReg 0x0E#6) := by decide
theorem test_decode_rdRxdata : decodeTableWord 8 0b0001101 = some .rdRxdata := by decide
theorem test_decode_wrCtrl : decodeTableWord 40 (0b1000010 + 256 * 0x3) = some (.wrCtrl 0x3#32) := by decide
theorem test_decode_wrCmd : decodeTableWord 40 (0b1000011 + 256 * 0x01000000) = some (.wrCmd 0x01000000#32) := by
  decide
theorem test_decode_wrLocalId : decodeTableWord 40 (0b1000101 + 256 * 0x1FF) = some (.wrLocalId 0x1FF#32) := by decide
theorem test_decode_wrTxdata : decodeTableWord 40 (0b1000111 + 256 * 0x168) = some (.wrTxdata 0x168#32) := by decide
/-- V-HST-18. -/
theorem test_decode_wrIgnored :
    decodeTableWord 40 (0b1000001 + 256 * 0xFFFFFFFF) = some (.wrIgnored 0x01#6 0xFFFFFFFF#32) := by decide
/-- V-HST-19: RD 0x20. -/
theorem test_decode_rdReserved : decodeTableWord 8 0b0100000 = some (.rdReserved 0x20#6) := by decide
/-- R259's four examples of ILLEGAL words. -/
theorem test_decode_illegal :
    [0x07000000#32, 0x01000001#32, 0x02000100#32, 0x06020000#32].all (fun w => decodeCommand w == none) = true := by
  decide
/-- R71: 64 is no address of the bus. -/
theorem test_wide_address_refused :
    decodeTxn ⟨false, 64, 0#32⟩ = .error (.addressTooWide 64) ∧ decodeTableWord 8 0b10000000 = none := by decide

/-! ## Commands and accesses (95_test_vectors.md section 2.8, by number) -/

/-- V-HST-1. -/
theorem test_start :
    after (exec .start rstP) (fun t => regRead t 0x01#6 == 0x00000001#32 && t.err == .ok) = true := by decide
/-- V-HST-3. -/
theorem test_start_fails :
    after (exec .start { rstP with audioOk := some false })
      (fun t => regRead t 0x01#6 == 0x00000002#32 && t.err == .hardwareInit) = true := by decide
/-- V-HST-2. -/
theorem test_start_twice :
    after (exec .start startedP) (fun t => regRead t 0x01#6 == 0x00000001#32 && t.err == .alreadyInitialized) = true := by
  decide
/-- V-HST-5. -/
theorem test_nop : after (exec .nop { rstP with err := .rxEmpty }) (fun t => t.err == .ok) = true := by decide
/-- V-HST-8: an ILLEGAL START does not start. -/
theorem test_wrCmd_illegal :
    after (exec (.wrCmd 0x01000001#32) rstP) (fun t => t.err == .illegalCommand && !t.started) = true := by decide
/-- R200's worked example. -/
theorem test_txSend :
    after (exec (.txSend 0x02#8) { rstP with localId := 0x01#8, stage := hi })
      (fun t => t.txq == [hiFrame] && t.frameId == 0x01#8 && t.stage == [] && t.err == .ok) = true := by decide
/-- V-COD-10: an empty stage, and FRAME_ID wraps. -/
theorem test_txSend_wraps :
    after (exec (.txSend 0x02#8) { rstP with localId := 0x01#8, frameId := 0xFF#8 })
      (fun t => t.txq == [[0x02#8, 0x01#8, 0xFF#8, 0x00#8, 0xFC#8]] && t.frameId == 0x00#8) = true := by decide
/-- V-HST-11. -/
theorem test_txClear :
    after (exec .txClear { rstP with stage := [1#8, 2#8, 3#8] }) (fun t => regRead t 0x08#6 == 0#32 && t.err == .ok)
      = true := by decide
/-- V-HST-9. -/
theorem test_rxPop_empty :
    after (exec .rxPop { rstP with rdBuf := hi, rdPos := 1 })
      (fun t => t.err == .rxEmpty && regRead t 0x0B#6 == 0#32 && regRead t 0x0C#6 == 0#32) = true := by decide
/-- V-HST-10, its first access. -/
theorem test_rxPop :
    after (exec .rxPop { rstP with rxq := [hi] })
      (fun t => regRead t 0x0B#6 == 2#32 && regRead t 0x0C#6 == 2#32 && t.rxq == []) = true := by decide
/-- V-HST-10, the second read of RXDATA. -/
theorem test_rdRxdata :
    after (exec .rdRxdata { rstP with rdBuf := hi, rdPos := 1 })
      (fun t => t.out == .read 0x69#32 && t.rdPos == 2 && t.err == .ok) = true := by decide
/-- V-HST-10, the third read of RXDATA. -/
theorem test_rdRxdata_end :
    after (exec .rdRxdata { rstP with rdBuf := hi, rdPos := 2 })
      (fun t => t.out == .read 0#32 && t.rdPos == 2 && t.err == .rxEmpty) = true := by decide
/-- V-HST-12. -/
theorem test_clrStats :
    after (exec .clrStats { rstP with cksErr := 2#32, rxLastEvt := .checksumMismatch, bufCount := 7#32, err := .rxEmpty })
      (fun t => t.cksErr == 0#32 && regRead t 0x1A#6 == 0#32 && t.bufCount == 7#32 && t.err == .ok) = true := by decide
/-- V-ROM-4, row 3: INDEX = T-1, and the word of V-ROM-1. -/
theorem test_toneRead :
    after (exec (.toneRead false 7#16) rstP) (fun t => t.toneData == 0xBF3504F3#32 && t.err == .ok) = true := by
  decide +kernel
/-- P1, line 9: INDEX = T. -/
theorem test_toneRead_range :
    after (exec (.toneRead false 8#16) { rstP with toneData := 0x3F800000#32 })
      (fun t => t.toneData == 0x3F800000#32 && t.err == .badArgument) = true := by decide
/-- V-HST-13. -/
theorem test_wrCtrl :
    after (exec (.wrCtrl 0x0#32) rstP) (fun t => regRead t 0x02#6 == 0x0#32 && t.err == .ok) = true := by decide
/-- R252's worked example. -/
theorem test_wrCtrl_locked :
    after (exec (.wrCtrl 0x0#32) startedP) (fun t => regRead t 0x02#6 == 0x2#32 && t.err == .configLocked) = true := by
  decide
/-- V-HST-17. -/
theorem test_wrLocalId :
    after (exec (.wrLocalId 0x1FF#32) { rstP with err := .rxEmpty }) (fun t => t.localId == 0xFF#8 && t.err == .rxEmpty)
      = true := by decide
/-- V-HST-16. -/
theorem test_wrTxdata :
    after (exec (.wrTxdata 0x168#32) rstP) (fun t => t.stage == [0x68#8] && t.err == .ok) = true := by decide
/-- V-COD-12, its last write. -/
theorem test_wrTxdata_full :
    after (exec (.wrTxdata 0xFF#32) { rstP with stage := List.replicate 255 0#8 })
      (fun t => t.stage.length == 255 && t.err == .stageFull && (regRead t 0x01#6).getLsbD 10) = true := by
  decide +kernel
/-- V-HST-18. -/
theorem test_wrIgnored : after (exec (.wrIgnored 0x01#6 0xFFFFFFFF#32) rstP) (fun t => t == rstP) = true := by decide
/-- V-HST-19. -/
theorem test_rdReserved : after (exec (.rdReserved 0x20#6) rstP) (fun t => t.out == .read 0#32) = true := by decide
/-- V-HST-22. -/
theorem test_rdReg_id : after (exec (.rdReg 0x00#6) rstP) (fun t => t.out == .read 0x46534B31#32) = true := by decide
/-- P2, after period 3: STARTED, SendingPacket, MBOX_FULL, CUR_SYM: STATUS = 0x00000069. -/
theorem test_rdReg_status :
    after (exec (.rdReg 0x01#6) { startedP with txState := .sendingPacket, mbox := some false, curSym := true })
      (fun t => t.out == .read 0x00000069#32) = true := by decide
/-- V-SYN-2: three bits of a byte: RX_BYTES = 0x00030000. -/
theorem test_rx_bytes_view : regRead (feed [true, false, false, true, true] rstP) 0x12#6 = 0x00030000#32 := by decide

/-! ## The step -/

/-- A CMD word placed for the fetch is run by the very next step, from reset. -/
theorem test_step_runs_cmd_word :
    after (step (rstP.withFetchWord 32 0x01000000)) (fun t => t.started && t.schedule == []) = true := by decide
/-- So is a bus row's selector byte with its data word. -/
theorem test_step_runs_bus_word :
    after (step (rstP.withFetchWord 40 (0b1000101 + 256 * 0x55))) (fun t => t.localId == 0x55#8) = true := by decide
/-- At `State.reset` too, whose configuration has free values. -/
theorem test_step_from_reset :
    after (step (State.reset.withFetchWord 32 0x07000000)) (fun t => t.err == .illegalCommand) = true := by decide
/-- R320: a reset clears a receiver that is locked. -/
theorem test_reset_event :
    after (step { startedP with rxState := .receivingPacket, rxBitcnt := 3, schedule := [.reset] })
      (fun t => t == { rstP with schedule := [] }) = true := by decide

/-! ## Tone ROM -/

/-- V-ROM-1, symbol 0. -/
theorem test_rom_symbol_0 :
    (List.range 8).map (romWord tcP false) =
      [0x00000000#32, 0x3F3504F3#32, 0x3F800000#32, 0x3F3504F3#32,
        0x00000000#32, 0xBF3504F3#32, 0xBF800000#32, 0xBF3504F3#32] := by decide +kernel
/-- V-ROM-1, symbol 1, with the zeros of V-ROM-2. -/
theorem test_rom_symbol_1 :
    (List.range 8).map (romWord tcP true) =
      [0x00000000#32, 0x3F800000#32, 0x00000000#32, 0xBF800000#32,
        0x00000000#32, 0x3F800000#32, 0x00000000#32, 0xBF800000#32] := by decide +kernel

/-! ## Audio driver and framer -/

/-- R153's worked example. -/
theorem test_synth :
    synthFrom { tcP with nbuf := 4 } true 4 0 =
      ([0x00000000#32, 0x00000000#32, 0x3F800000#32, 0x3F800000#32,
        0x00000000#32, 0x00000000#32, 0xBF800000#32, 0xBF800000#32], 4) := by decide +kernel
/-- R76, R152: a NaN and an infinity in channel 0 are captured bit for bit; channel 1 is not. -/
theorem test_capture :
    (capture [0x7FC00001#32, 1#32, 0xFF800000#32, 2#32, 3#32, 4#32, 5#32, 6#32] (State.resetOf tcM)).capq =
      [[0x7FC00001#32, 0xFF800000#32, 3#32, 5#32]] := by decide
/-- P4, period 1: the tick pops the head of the queue and publishes the last symbol. -/
theorem test_framer_pops :
    let t := framerTick { startedP with txq := [hiFrame, []] }
    (t.txFrame, t.txq, t.txState, t.mbox) = (hiFrame, [[]], .sendingPreamble, some false) := by decide
/-- R180's example: the bytes 0x02 0x01. -/
theorem test_bitbuf :
    bitbuf [0x02#8, 0x01#8] =
      [false, false, false, false, false, false, true, false, false, false, false, false, false, false, false, true] := by
  decide

/-! ## Packet codec -/

/-- V-COD-6, V-COD-7, V-COD-9: the order of the checks. -/
theorem test_decode_frame_rejects :
    decodeFrame tcP [0x00#8, 0x00#8, 0x00#8, 0x01#8, 0x41#8, 0x41#8] = .checksumMismatch
      ∧ decodeFrame tcP [0x00#8, 0x00#8, 0x00#8, 0x00#8] = .deserializeError
      ∧ decodeFrame tcP [0x00#8, 0x00#8, 0x00#8, 0x02#8, 0x41#8, 0x43#8] = .deserializeError
      ∧ decodeFrame tcP [0x00#8, 0x00#8, 0x00#8, 0x00#8, 0x00#8, 0x00#8] = .deserializeError := by decide
/-- V-COD-8. -/
theorem test_decode_frame_minimal :
    decodeFrame tcP [0x01#8, 0x02#8, 0x03#8, 0x00#8, 0x00#8] = .packet ⟨0x01#8, 0x02#8, 0x03#8, 0x00#8, [], 0x00#8⟩ := by
  decide
/-- V-COD-5, the valid payloads. -/
theorem test_text_valid :
    [[0xE2#8, 0x82#8, 0xAC#8], [0xF0#8, 0x9F#8, 0x98#8, 0x80#8], [0xC2#8, 0x80#8], []].all (textValid tcP) = true := by
  decide
/-- V-COD-5, the invalid payloads. -/
theorem test_text_invalid :
    [[0xC0#8, 0x80#8], [0xED#8, 0xA0#8, 0x80#8], [0xE0#8, 0x80#8, 0x80#8], [0xF4#8, 0x90#8, 0x80#8, 0x80#8], [0x80#8],
      [0xFF#8]].any (textValid tcP) = false := by decide

/-! ## Receiver -/

/-- The match index after each bit. -/
def matchTrace (pattern : List Bool) : Nat → List Bool → List Nat
  | _, [] => []
  | k, b :: bits => matchStep pattern k b :: matchTrace pattern (matchStep pattern k b) bits

/-- V-MAT-2. -/
theorem test_match_self_overlap :
    matchTrace [true, false, true, false, true, true] 0 [true, false, true, false, true, false, true, true] =
      [1, 2, 3, 4, 5, 4, 5, 6] := by decide
/-- V-MAT-6. -/
theorem test_match_long_fall :
    matchTrace [false, true, true, false, true, true, true] 0
        [false, true, true, false, true, true, false, true, true, true] = [1, 2, 3, 4, 5, 6, 4, 5, 6, 7] := by decide
/-- V-SYN-4. -/
theorem test_frame_delivered :
    let t := feed ([true, false] ++ bitbuf [0x02#8, 0x01#8, 0x01#8, 0x02#8, 0x68#8, 0x69#8, 0x01#8]) rstP
    (t.rxq, t.rxOk, t.rxLastEvt, t.rxState, t.rxBuf) = ([hi], 1#32, .delivered, .searchingPreamble, []) := by decide
/-- V-SYN-5. -/
theorem test_frame_bad_checksum :
    let t := feed ([true, false] ++ bitbuf [0x02#8, 0x01#8, 0x00#8, 0x02#8, 0x69#8, 0x69#8, 0x00#8]) rstP
    (t.rxq, t.cksErr, t.rxLastEvt, t.rxState) = ([], 1#32, .checksumMismatch, .searchingPreamble) := by decide
/-- V-SYN-6. -/
theorem test_frame_bad_text :
    let t := feed ([true, false] ++ bitbuf [0x02#8, 0x01#8, 0x00#8, 0x02#8, 0xC0#8, 0x80#8, 0x41#8]) rstP
    (t.rxq, t.deserErr, t.rxLastEvt) = ([], 1#32, .deserializeError) := by decide

/-- V-ROM-1's words, written out. -/
def rom0 : List Word :=
  [0x00000000#32, 0x3F3504F3#32, 0x3F800000#32, 0x3F3504F3#32, 0x00000000#32, 0xBF3504F3#32, 0xBF800000#32, 0xBF3504F3#32]
def rom1 : List Word :=
  [0x00000000#32, 0x3F800000#32, 0x00000000#32, 0xBF800000#32, 0x00000000#32, 0x3F800000#32, 0x00000000#32, 0xBF800000#32]

/-- V-SPC-7. -/
theorem test_decide_one : decideWindow tcP (rom1.take 4) = .symbol true := by decide +kernel
/-- V-SPC-4, and V-SPC-5: the exact tie. -/
theorem test_decide_tie :
    decideWindow tcP (List.replicate 8 0x00000000#32) = .symbol false
      ∧ decideWindow tcP (List.replicate 8 0x80000000#32) = .symbol false := by decide +kernel
/-- V-SPC-6, with ENERGY_TOL = 0 and with ENERGY_TOL = 0.1. -/
theorem test_decide_tolerance :
    decideWindow tcP (rom0.take 4 ++ rom1.drop 4) = .symbol false
      ∧ decideWindow { tcP with tolNum := 1, tolDen := 10 } (rom0.take 4 ++ rom1.drop 4) = .draw := by decide +kernel
/-- Section 2.7: a NaN is a draw. -/
theorem test_decide_nan : decideWindow tcP [0x7FC00000#32] = .draw ∧ decideWindow tcP [0x7F800000#32] = .draw := by
  decide
/-- V-SPC-9, step 1: the window is not full, no bit is fed. -/
theorem test_window_not_full :
    let t := rxStep { State.resetOf tcM with started := true, capq := [rom0.take 4] }
    (t.win, t.capq, t.k) = (rom0.take 4, [], 0) := by decide

/-! ## Host procedures -/

/-- R202: 64 ASCII characters are chunks of 63 and 1. -/
theorem test_chunk_boundary :
    (chunks (maxChunkSize tcP) (List.replicate 64 [0x41#8])).map List.length = [63, 1] := by decide
/-- R7: equal tones, and a tone at half the sample rate, are refused. -/
theorem test_ill_formed_configs :
    configWf tcP = true ∧ configWf { tcP with freqB := 1250 } = false ∧ configWf { tcP with freqB := 5000 } = false := by
  decide

/-- The four frames of P4, lines 2 to 5, and "E" under id 4. -/
def frameP4 (i : Nat) : List Byte := encodeFrame 0x02#8 0x01#8 (BitVec.ofNat 8 i) [0x41#8 + BitVec.ofNat 8 i]
theorem test_frameP4 : frameP4 4 = [0x02#8, 0x01#8, 0x04#8, 0x01#8, 0x45#8, 0x43#8] := by decide
def fullP4 : State := { rstP with localId := 0x01#8, frameId := 0x04#8, txq := (List.range 4).map frameP4 }

/-- P4, line 6, by `transmit`: QUEUE_FULL, "E" is kept, and the host waits or reports. -/
theorem test_transmit_full :
    [true, false].all (fun waits =>
      match transmit.run (List.replicate 4 .host) (Transmit.start tcP waits [[0x45#8]] 0x02#8) fullP4 with
      | .next (p, t) => p.phase == (if waits then .wait else .finished .queueFull) && t.stage == [0x45#8] && t.txq.length == 4
          && t.frameId == 0x04#8
      | .fault _ | .refused _ => false) = true := by decide +kernel
/-- P4, lines 8 to 10: once a frame is popped, STATUS = 0x25, and TX_SEND alone queues "E" under id 4. -/
theorem test_transmit_retry :
    (match transmit.run [.host, .audio [], .host, .host, .host]
        ⟨0x02#8, true, [0x45#8], [], .wait⟩ { fullP4 with started := true, stage := [0x45#8] } with
      | .next (p, t) => p.phase == .finished .sent && t.txq == [1, 2, 3, 4].map frameP4 && t.txFrame == frameP4 0
          && t.frameId == 0x05#8 && t.stage == [] && regRead t 0x01#6 == 0x00000225#32
      | .fault _ | .refused _ => false) = true := by decide +kernel
/-- P5, line 8, and R255: an empty payload is not an empty queue. -/
theorem test_receive :
    (match receive.run (List.replicate 5 .host) .pop { rstP with rxq := [hi] },
          receive.run (List.replicate 3 .host) .pop { rstP with rxq := [[]] }, receive.run (List.replicate 3 .host) .pop rstP with
      | .next p, .next q, .next r =>
        p.1 == .finished (some hi) && q.1 == .finished (some []) && r.1 == .finished none
      | _, _, _ => false) = true := by decide +kernel

/-! ## Runs and premises (R338, R339) -/

/-- What is observed: the read's value, the buffer (V-ROM-1's words on both channels, R153), and the state at the end. -/
theorem test_observation :
    (match testRun [.host (readReg 0x00), .audio [], .host (writeReg 0x05 0x55#32)] startedP with
      | .next o => o.accesses == [⟨readReg 0x00, some 0x46534B31#32⟩, ⟨writeReg 0x05 0x55#32, none⟩]
          && o.buffers == [rom0.flatMap fun w => [w, w]] && o.final.localId == 0x55#8 && o.final.schedule == []
      | .fault _ | .refused _ => false) = true := by decide +kernel
/-- A reset block with a program scheduled and AUDIO_OK given. -/
theorem test_clean_reset : CleanReset { rstP with schedule := [.rx] } ∧ ¬CleanReset startedP :=
  ⟨rfl, fun h => absurd (congrArg State.started h) (by decide)⟩
theorem test_quiescent : Quiescent rstP ∧ ¬Quiescent { rstP with capq := [[]] } := by
  simp [Quiescent, rstP, State.resetOf]
/-- A full capture FIFO and one more period. -/
theorem test_no_drop :
    NoDrop 1 { startedP with schedule := [.audio []] }
      ∧ ¬NoDrop 1 { startedP with schedule := [.audio []], capq := [[], [], [], []] } := by
  refine ⟨⟨fun ⟨t, h, hd⟩ => hd ?_, fun _ _ => trivial⟩, fun ⟨h, _⟩ => h ⟨_, rfl, ?_⟩⟩
  · cases h; decide +kernel
  · change State.capDrop _ ≠ _; decide +kernel
/-- One period and one bit received. -/
theorem test_lossless_channel :
    LosslessChannel 1 { startedP with schedule := [.audio []] } 1 { rstP with schedule := [.syncBit false] } := by
  rfl
theorem notBeforeEnd_idle_preamble : NotBeforeEnd [true, false] [false, true, false] := by
  intro q hq hne
  rcases (List.prefix_cons_iff.mp hq) with rfl | ⟨l, rfl, hl⟩
  · decide
  · rcases (List.prefix_cons_iff.mp hl) with rfl | ⟨m, rfl, hm⟩
    · decide
    · rcases (List.prefix_cons_iff.mp hm) with rfl | ⟨n, rfl, hn⟩
      · decide
      · rw [List.prefix_nil.mp hn] at hne; exact absurd rfl hne

/-- PREAMBLE = 1 0: once at the end of `0 1 0`, twice in `1 0 1 0`. -/
theorem test_unique_preamble :
    UniquePreamble tcP.preamble [false] ∧ ¬UniquePreamble tcP.preamble [true, false] := by
  refine ⟨fun q hq hs => ?_, fun h => absurd (h [true, false] (by decide) (by decide)) (by decide)⟩
  by_contra hne
  exact notBeforeEnd_idle_preamble q hq hne hs

/-! ## Witnesses: for each obligation with hypotheses, states and operands that meet them, clause by clause -/

/-- A fresh block meets the invariant. -/
theorem inv_rstP : Inv rstP where
  config := by decide
  startOnce := by decide
  unstarted _ := ⟨by decide, by decide, by decide⟩
  stageLength := by decide
  txqLength := by decide
  txqFrames _ hf := by cases hf
  framer := ⟨rfl, rfl⟩
  phase := by decide
  capqLength := by decide
  capqBuffers := by decide
  window := ⟨0, by decide, by decide⟩
  sync := ⟨by decide, rfl, rfl, rfl⟩
  rxqLength := by decide
  rxqPayloads := by decide
  rdBuf := by decide
  rdPos := by decide

/-- A started block with a frame queued, under any configuration and with any captures and window that fit. -/
theorem inv_busy (c : Config) (capq : List (List Word)) (win : List Word) (hc : configWf c = true)
    (hq : capq.length ≤ c.capqDepth) (hb : ∀ b ∈ capq, b.length = c.nbuf)
    (hw : ∃ m ≤ c.winBufs, win.length = m * c.nbuf) :
    Inv { State.resetOf c with started := true, stage := hi, txq := [hiFrame], capq := capq, win := win } := by
  have h := hc
  simp only [configWf, Bool.and_eq_true, decide_eq_true_eq] at h
  exact
    { config := hc
      startOnce := by simp [State.resetOf]
      unstarted := fun h => by cases h
      stageLength := by simp [hi]
      txqLength := by simp [State.resetOf]; omega
      txqFrames := fun f hf => by
        simp only [List.mem_singleton] at hf
        exact hf ▸ ⟨by decide, by decide⟩
      framer := ⟨rfl, rfl⟩
      phase := by simp [State.resetOf]; omega
      capqLength := hq
      capqBuffers := hb
      window := hw
      sync := ⟨by simp [State.resetOf]; omega, rfl, rfl, rfl⟩
      rxqLength := by simp [State.resetOf]
      rxqPayloads := fun p hp => by cases hp
      rdBuf := by simp [State.resetOf]
      rdPos := by simp [State.resetOf] }

/-- The busy block under TC-P. -/
def busyP : State := { State.resetOf tcP with started := true, stage := hi, txq := [hiFrame], capq := [], win := [] }

theorem inv_busyP : Inv busyP := inv_busy tcP [] [] (by decide) (by decide) (by decide) ⟨0, by decide, by decide⟩

/-- The first and the last address of RD_REG and RD_RESERVED. -/
theorem witness_DecodeInvertsEncode :
    (Instr.rdReg 0x00#6).wellFormed = true ∧ (Instr.rdReg 0x1A#6).wellFormed = true
      ∧ (Instr.rdReserved 0x1B#6).wellFormed = true ∧ (Instr.wrIgnored 0x3F#6 0#32).wellFormed = true := by decide

theorem witness_IllegalWordsOnlySetErr :
    decodeCommand 0x07000000#32 = none ∧ decodeCommand 0x02000001#32 = none ∧ decodeCommand 0x06020000#32 = none
      ∧ decodeCommand 0x01000001#32 = none ∧ decodeCommand 0x0601FFFF#32 ≠ none := by decide

theorem witness_CmdWriteRunsItsCommand : decodeCommand 0x06010001#32 = some (.toneRead true 1#16) := by decide

theorem witness_StepRunsDecodedInstruction :
    ∃ (s : State) (t : HostTxn) (rest : List Event) (i : Instr), s.schedule = .host t :: rest ∧ decodeTxn t = .ok i :=
  ⟨{ rstP with schedule := [.host (command .start), .rx] }, command .start, [.rx], .wrCmd 0x01000000#32, rfl, rfl⟩

theorem witness_IllFormedConfigsAreRefused :
    launch tcP = .next (State.resetOf tcP) ∧ launch { tcP with freqB := 1250 } = .refused .illFormedConfig
      ∧ launch { tcP with tableLen := 65537 } = .refused .illFormedConfig := ⟨rfl, rfl, rfl⟩

theorem witness_StartOutcomes :
    startedP.started = true ∧ { rstP with initFailed := true : State }.initFailed = true
      ∧ rstP.started = false ∧ rstP.initFailed = false ∧ rstP.audioOk = some true
      ∧ (State.resetOf tcP).started = false ∧ (State.resetOf tcP).audioOk = none := by decide

theorem witness_TxSendOutcomes :
    (0x0001#16 ≠ 0#16) ∧ { rstP with txq := List.replicate 4 hiFrame : State }.txq.length = tcP.txqDepth
      ∧ { rstP with txq := List.replicate 3 hiFrame : State }.txq.length ≠ tcP.txqDepth := by decide

theorem witness_RxPopOutcomes : { rstP with rxq := [hi, []] : State }.rxq = hi :: [[]] ∧ rstP.rxq = [] := by decide

/-- INDEX = T-1 and INDEX = T. -/
theorem witness_ToneReadOutcomes :
    (1#7 ≠ 0#7) ∧ (7#16 : BitVec 16).toNat < rstP.cfg.tableLen ∧ rstP.cfg.tableLen ≤ (8#16 : BitVec 16).toNat := by decide

theorem witness_WrCtrlOutcomes :
    (startedP.started = true ∧ (0#32 : Word).getLsbD 1 ≠ startedP.demodSel)
      ∧ rstP.started = false ∧ (2#32 : Word).getLsbD 1 = startedP.demodSel := by decide

/-- 254 and 255 bytes staged. -/
theorem witness_WrTxdataOutcomes :
    { rstP with stage := List.replicate 254 0#8 : State }.stage.length ≠ 255
      ∧ { rstP with stage := List.replicate 255 0#8 : State }.stage.length = 255 :=
  ⟨by rw [List.length_replicate]; decide, List.length_replicate⟩

theorem witness_IgnoredAccessesChangeNothing :
    (0x01#6 ≠ 0x02#6 ∧ 0x01#6 ≠ 0x03#6 ∧ 0x01#6 ≠ 0x05#6 ∧ 0x01#6 ≠ 0x07#6) ∧ 0x1B ≤ (0x1B#6 : BitVec 6).toNat := by decide

theorem witness_RdRxdataOutcomes :
    ∃ s t : State, (s.rdBuf = [0x68#8] ++ 0x69#8 :: [] ∧ s.rdPos = [0x68#8].length) ∧ t.rdPos = t.rdBuf.length :=
  ⟨{ rstP with rdBuf := hi, rdPos := 1 }, rstP, ⟨rfl, rfl⟩, rfl⟩

theorem witness_ReadsHaveNoSideEffect : (0x1A#6 ≠ 0x0D#6 ∧ (0x1A#6 : BitVec 6).toNat ≤ 0x1A)
    ∧ (0x00#6 ≠ 0x0D#6 ∧ (0x00#6 : BitVec 6).toNat ≤ 0x1A) := by decide

theorem witness_ViewsShowWholeNumbers : Inv busyP ∧ busyP.stage.length = 2 := ⟨inv_busyP, rfl⟩

/-- A step that writes ERR, for the statements about every step. -/
theorem witness_steps_that_write_err :
    ∃ s t : State, step s = .next t ∧ nextEvent s ≠ .reset ∧ t.err ≠ s.err :=
  ⟨{ rstP with schedule := [.host (command .start)], err := .rxEmpty }, _, rfl, by decide, by decide⟩

theorem witness_ConfigurationNeverChanges : ∃ s t : State, step s = .next t :=
  ⟨{ startedP with schedule := [.rx] }, _, rfl⟩

theorem witness_OnlyListedAccessesWriteErr :
    ∃ s t : State, step s = .next t ∧ nextEvent s ≠ .reset ∧ t.err ≠ s.err := witness_steps_that_write_err

theorem witness_OnlyTxSendMovesFrameId :
    (∃ s t : State, step s = .next t ∧ nextEvent s = .reset)
      ∧ ∃ s t : State, step s = .next t ∧ nextEvent s ≠ .reset ∧ t.frameId ≠ s.frameId :=
  ⟨⟨{ rstP with frameId := 7#8, schedule := [.reset] }, _, rfl, rfl⟩,
    ⟨{ rstP with schedule := [.host (command (.txSend 2#8))] }, _, rfl, by decide, by decide⟩⟩

theorem witness_BufCountCountsPeriods :
    (∃ s t : State, step s = .next t ∧ nextEvent s = .reset)
      ∧ (∃ s t : State, step s = .next t ∧ (∃ input, nextEvent s = .audio input) ∧ s.started = true)
      ∧ (∃ s t : State, step s = .next t ∧ nextEvent s ≠ .reset ∧ ∀ input, nextEvent s ≠ .audio input)
      ∧ ∃ s t : State, step s = .next t ∧ nextEvent s ≠ .reset ∧ s.started = false :=
  ⟨⟨{ startedP with schedule := [.reset] }, _, rfl, rfl⟩,
    ⟨{ startedP with schedule := [silentPeriod tcP] }, _, rfl, ⟨_, rfl⟩, rfl⟩,
    ⟨{ startedP with schedule := [.host (command .clrStats)] }, _, rfl, by decide, fun _ => by simp [nextEvent]⟩,
    ⟨{ rstP with schedule := [silentPeriod tcP] }, _, rfl, by decide, rfl⟩⟩

theorem witness_OnlyResetStopsTheBlock :
    (∃ s t : State, step s = .next t ∧ nextEvent s ≠ .reset ∧ s.started = true)
      ∧ ∃ s t : State, step s = .next t ∧ nextEvent s ≠ .reset ∧ s.initFailed = true ∧ s.started = false :=
  ⟨⟨{ startedP with schedule := [.host (writeReg 0x02 0#32)] }, _, rfl, by decide, rfl⟩,
    ⟨{ rstP with initFailed := true, schedule := [.host (command .start)] }, _, rfl, by decide, rfl, rfl⟩⟩

theorem witness_QueuesMoveOnlyForTheirOwners :
    (∃ s t : State, step s = .next t ∧ s.txq.length < t.txq.length)
      ∧ ∃ s t : State, step s = .next t ∧ t.rxq.length < s.rxq.length :=
  ⟨⟨{ rstP with schedule := [.host (command (.txSend 2#8))] }, _, rfl, by decide⟩,
    ⟨{ rstP with rxq := [hi], schedule := [.host (command .rxPop)] }, _, rfl, by decide⟩⟩

theorem witness_AgentsDoNotSeeTheStage : (∀ txn, Event.rx ≠ .host txn) ∧ Event.rx ≠ .reset
    ∧ (∀ txn, Event.audio [] ≠ .host txn) ∧ (∀ txn, Event.syncBit true ≠ .host txn) := by simp

theorem witness_DisabledAgentsTakeNoStep : rstP.started = false ∧ rstP.capq = [] := by decide

theorem witness_ResetSetsEveryRegister : configWf startedP.cfg = true := by decide

theorem witness_StepsKeepTheInvariant : ∃ s t : State, Inv s ∧ step s = .next t :=
  ⟨{ rstP with schedule := [.rx] }, _,
    { inv_rstP with unstarted := fun _ => ⟨by decide, by decide, by decide⟩ }, rfl⟩

theorem witness_RomIsTheRoundedSine : 0 < tcP.sampleRate ∧ IsFiniteF32 0x3F3504F3#32 := by
  constructor <;> simp [tcP, IsFiniteF32]

/-- Index 4 of the tone of 2500 Hz is a whole number of half cycles; 1 and 3 are the peaks. -/
theorem witness_RomRangeAndExactWords :
    0 < tcP.sampleRate ∧ 2 * tcP.freq true * 4 = 2 * tcP.sampleRate ∧ 4 * tcP.freq true * 1 = (4 * 0 + 1) * tcP.sampleRate
      ∧ 4 * tcP.freq true * 3 = (4 * 0 + 3) * tcP.sampleRate := by decide

theorem witness_SynthPlaysTheTable : 7 < tcP.tableLen := by decide

/-- A capture FIFO of 3 buffers has room, one of 4 has none. -/
theorem witness_CaptureCopiesChannelZero :
    2 * rstP.cfg.nbuf ≤ (List.replicate 16 0#32 : List Word).length
      ∧ (rstP.captureEn = true ∧ (List.replicate 3 (List.replicate 8 (0#32 : Word))).length < rstP.cfg.capqDepth)
      ∧ rstP.cfg.capqDepth ≤ (List.replicate 4 (List.replicate 8 (0#32 : Word))).length
      ∧ { rstP with captureEn := false : State }.captureEn = false := by decide

theorem witness_AudioStepPlaysThenTicks :
    startedP.started = true ∧ 2 * startedP.cfg.nbuf ≤ (List.replicate 16 0#32 : List Word).length := by decide

theorem witness_PublishedSymbolPlaysNextPeriod : startedP.started = true := rfl

theorem witness_BitbufIsMsbFirst : 15 < 8 * hiFrame.length := by decide

/-- Both ticks of the preamble `1 0`, and the last two bits of a frame. -/
theorem witness_FramerTickOutcomes :
    (rstP.txState = .idle ∧ rstP.txq = []) ∧ (busyP.txState = .idle ∧ busyP.txq = hiFrame :: [])
      ∧ (tcP.preamble[0]? = some true ∧ 0 + 1 ≠ tcP.preambleLen) ∧ (tcP.preamble[1]? = some false ∧ 1 + 1 = tcP.preambleLen)
      ∧ ((bitbuf hiFrame)[54]? = some false ∧ 54 + 1 ≠ 8 * hiFrame.length)
      ∧ ((bitbuf hiFrame)[55]? = some false ∧ 55 + 1 = 8 * hiFrame.length) := by decide

theorem witness_FrameIsPublishedWhole :
    Inv busyP ∧ busyP.started = true ∧ busyP.txState = .idle ∧ busyP.txq = hiFrame :: []
      ∧ (List.replicate 59 ([] : List Word)).length = 1 + busyP.cfg.preambleLen + 8 * hiFrame.length :=
  ⟨inv_busyP, rfl, rfl, rfl, by decide⟩

theorem witness_EncodedFramesDecodeBack : hi.length ≤ 255 ∧ textValid tcP hi = true := by decide

/-- A bad fold; a short one; a wrong length; bad text; and a packet. -/
theorem witness_DecodeVerdicts :
    xorfold [0x01#8] ≠ 0#8 ∧ (xorfold [0#8, 0#8, 0#8, 0#8] = 0#8 ∧ [0#8, 0#8, 0#8, 0#8].length < 5)
      ∧ (xorfold [0#8, 0#8, 0#8, 0#8, 0#8, 0#8] = 0#8 ∧ [0#8, 0#8, 0#8, 0#8, 0#8, 0#8].length ≠ 5 + 0)
      ∧ (xorfold [0#8, 0#8, 0#8, 1#8, 0x80#8, 0x81#8] = 0#8 ∧ textValid tcP [0x80#8] = false)
      ∧ (xorfold hiFrame = 0#8 ∧ hiFrame.length = 5 + 2 ∧ textValid tcP hi = true ∧ hiFrame[6]? = some 0#8) := by decide

theorem witness_TextIsWellFormedUtf8 : tcP.textRule = .utf8 := rfl

theorem witness_ChecksumFindsOddFlips :
    hiFrame.length = ((List.replicate 7 0#8).set 6 (1#8 <<< 7)).length ∧ xorfold hiFrame = 0#8
      ∧ (((List.replicate 7 0#8).set 6 (1#8 <<< 7)).map weight).sum % 2 = 1
      ∧ ∀ i, i < 8 → [1#8, 0#8, 0#8, 0#8, 1#8, 0#8, 0#8].countP (fun b => b.getLsbD i) % 2 = 0 := by decide

theorem witness_ThresholdStepFeedsOneBit :
    ∃ s : State, s.demodSel = false ∧ s.capq = List.replicate 8 0#32 :: [] :=
  ⟨{ startedP with demodSel := false, capq := [List.replicate 8 0#32] }, rfl, rfl⟩

/-- TC-M, where the window is two buffers: empty, half full and full. -/
theorem witness_SpectralStepSlidesTheWindow :
    ∃ s1 s2 s3 : State,
      (Inv s1 ∧ s1.demodSel = true ∧ s1.capq = rom0.take 4 :: []
          ∧ s1.win.length + s1.cfg.nbuf < s1.cfg.winBufs * s1.cfg.nbuf)
        ∧ (Inv s2 ∧ s2.demodSel = true ∧ s2.capq = rom0.take 4 :: []
          ∧ s2.win.length + s2.cfg.nbuf = s2.cfg.winBufs * s2.cfg.nbuf)
        ∧ (Inv s3 ∧ s3.demodSel = true ∧ s3.capq = rom0.take 4 :: [] ∧ s3.win.length = s3.cfg.winBufs * s3.cfg.nbuf) :=
  have inv (win : List Word) (hw : ∃ m ≤ 2, win.length = m * 4) := inv_busy tcM [rom0.take 4] win (by decide) (by decide)
    (by decide) hw
  ⟨_, _, _, ⟨inv [] ⟨0, by decide⟩, rfl, rfl, by decide⟩, ⟨inv (rom0.take 4) ⟨1, by decide⟩, rfl, rfl, by decide⟩,
    ⟨inv rom0 ⟨2, by decide⟩, rfl, rfl, by decide⟩⟩

theorem witness_SpectralDecisionIsRight :
    configWf tcP = true ∧ (∀ w ∈ rom1.take 4, IsFiniteF32 w) ∧ decideWindow tcP (rom1.take 4) = .symbol true
      ∧ (∀ w ∈ [0#32], IsFiniteF32 w) ∧ decideWindow tcP [0#32] = .symbol false ∧ ∃ w ∈ [0x7FC00000#32], ¬IsFiniteF32 w := by
  refine ⟨by decide, ?_, test_decide_one, ?_, by decide +kernel, ?_⟩ <;> simp [IsFiniteF32, rom1]

theorem f32Real_one : f32Real 0x3F800000#32 = 1 := by
  simp [f32Real]; norm_num

theorem f32Real_neg_one : f32Real 0xBF800000#32 = -1 := by
  simp [f32Real]; norm_num

/-- Two samples 1, 1 favour the lower tone, 1, -1 the higher one: the energies of two samples 1, y under TC-P. -/
theorem energy_two (y : Word) (sym : Bool) :
    energy tcP sym [0x3F800000#32, y] =
      (1 + f32Real y * Real.cos (2 * Real.pi * tcP.freq sym / 10000)) ^ 2
        + (f32Real y * Real.sin (2 * Real.pi * tcP.freq sym / 10000)) ^ 2 := by
  simp [energy, toneCos, toneSin, Fin.sum_univ_two, f32Real_one, tcP]

theorem angle_low : 2 * Real.pi * tcP.freq false / 10000 = Real.pi / 4 := by
  simp [Config.freq, tcP]; ring

theorem angle_high : 2 * Real.pi * tcP.freq true / 10000 = Real.pi / 2 := by
  simp [Config.freq, tcP]; ring

theorem witness_SpectralDecisionIsMade :
    configWf tcP = true ∧ (∀ w ∈ [0x3F800000#32, 0x3F800000#32, 0xBF800000#32], IsFiniteF32 w)
      ∧ (let x := [0x3F800000#32, 0xBF800000#32]
        tolerance tcP * (energy tcP false x + energy tcP true x) < energy tcP true x - energy tcP false x)
      ∧ (let x := [0x3F800000#32, 0x3F800000#32]
        tolerance tcP * (energy tcP false x + energy tcP true x) < energy tcP false x - energy tcP true x)
      ∧ tolerance tcP = 0 ∧ energy tcP false [] = energy tcP true [] := by
  have h0 : tolerance tcP = 0 := by simp [tolerance, tcP]
  have h2 : 0 < Real.sqrt 2 := by positivity
  have hsq : Real.sqrt 2 * Real.sqrt 2 = 2 := Real.mul_self_sqrt (by norm_num)
  refine ⟨by decide, by simp [IsFiniteF32], ?_, ?_, h0, by simp [energy, toneCos, toneSin]⟩
  · simp only [energy_two, angle_low, angle_high, h0, f32Real_neg_one, Real.cos_pi_div_four, Real.sin_pi_div_four,
      Real.cos_pi_div_two, Real.sin_pi_div_two]
    nlinarith
  · simp only [energy_two, angle_low, angle_high, h0, f32Real_one, Real.cos_pi_div_four, Real.sin_pi_div_four,
      Real.cos_pi_div_two, Real.sin_pi_div_two]
    nlinarith

theorem witness_MatchStepIsTheLongestPrefix : 1 < tcP.preamble.length := by decide

/-- Bits that do not hold `1 0` yet, but end with `1`. -/
theorem witness_SearchTracksTheLongestPrefix :
    Inv rstP ∧ rstP.rxState = .searchingPreamble
      ∧ NotBeforeEnd rstP.cfg.preamble (rstP.cfg.preamble.take rstP.k ++ [false, true])
      ∧ ¬ rstP.cfg.preamble <:+ rstP.cfg.preamble.take rstP.k ++ [false, true] := by
  refine ⟨inv_rstP, rfl, fun q hq _ => ?_, by decide⟩
  rcases (List.prefix_cons_iff.mp hq) with rfl | ⟨l, rfl, hl⟩
  · decide
  · rcases (List.prefix_cons_iff.mp hl) with rfl | ⟨m, rfl, hm⟩
    · decide
    · rw [List.prefix_nil.mp hm]; decide

theorem witness_LockFallsOnThePreamblesEnd :
    Inv rstP ∧ rstP.rxState = .searchingPreamble ∧ [false, true, false] ≠ []
      ∧ NotBeforeEnd rstP.cfg.preamble (rstP.cfg.preamble.take rstP.k ++ [false, true, false])
      ∧ rstP.cfg.preamble <:+ rstP.cfg.preamble.take rstP.k ++ [false, true, false] :=
  ⟨inv_rstP, rfl, by decide, notBeforeEnd_idle_preamble, by decide⟩

/-- Up to the last byte but one of a frame. -/
theorem witness_BitsAssembleIntoBytes :
    ∃ s : State, s.rxState = .receivingPacket ∧ s.rxCur = 0x00#8 ∧ s.rxBitcnt = 0
      ∧ ∀ m, m ≤ (hiFrame.take 6).length → 4 ≤ (s.rxBuf ++ (hiFrame.take 6).take m).length →
        (s.rxBuf ++ (hiFrame.take 6).take m).length ≠ 5 + ((s.rxBuf ++ (hiFrame.take 6).take m).getD 3 0x00#8).toNat :=
  ⟨{ rstP with rxState := .receivingPacket }, rfl, rfl, rfl, fun m hm => by
    have : m ≤ 6 := hm
    interval_cases m <;> decide⟩

/-- A bad fold, bad text, a full queue, and room for one more. -/
theorem witness_FrameDoneOutcomes :
    hiFrame.length = 5 + (hiFrame.getD 3 0#8).toNat ∧ xorfold (hiFrame.set 4 0x69#8) ≠ 0#8
      ∧ (xorfold [0x02#8, 0x01#8, 0x00#8, 0x01#8, 0x80#8, 0x82#8] = 0#8 ∧ textValid tcP [0x80#8] = false)
      ∧ (xorfold hiFrame = 0#8 ∧ textValid tcP ((hiFrame.drop 4).take 2) = true)
      ∧ (List.replicate 4 hi).length = tcP.rxqDepth ∧ (List.replicate 3 hi).length ≠ tcP.rxqDepth := by decide

theorem witness_PreambleThenFrameIsDelivered :
    Inv rstP ∧ rstP.rxState = .searchingPreamble ∧ hi.length ≤ 255 ∧ textValid rstP.cfg hi = true
      ∧ rstP.rxq.length < rstP.cfg.rxqDepth
      ∧ NotBeforeEnd rstP.cfg.preamble (rstP.cfg.preamble.take rstP.k ++ [false] ++ rstP.cfg.preamble) :=
  ⟨inv_rstP, rfl, by decide, by decide, by decide, notBeforeEnd_idle_preamble⟩

theorem witness_SentPayloadIsDelivered :
    ∃ tx queued : State, Inv tx ∧ Inv rstP ∧ tx.cfg = rstP.cfg ∧ tx.started = true ∧ tx.txState = .idle ∧ tx.txq = []
      ∧ exec (.txSend 2#8) tx = .next queued
      ∧ (List.replicate 59 ([] : List Word)).length = 1 + tx.cfg.preambleLen + 8 * (tx.stage.length + 5)
      ∧ rstP.rxState = .searchingPreamble ∧ rstP.rxq.length < rstP.cfg.rxqDepth ∧ textValid tx.cfg tx.stage = true
      ∧ NotBeforeEnd rstP.cfg.preamble (rstP.cfg.preamble.take rstP.k ++ [tx.lastSym] ++ rstP.cfg.preamble) :=
  ⟨{ startedP with stage := hi }, _,
    { inv_rstP with
      startOnce := by decide
      unstarted := fun h => by cases h
      stageLength := by decide },
    inv_rstP, rfl, rfl, rfl, rfl, rfl, by decide, rfl, by decide, by decide, notBeforeEnd_idle_preamble⟩

end Sys2Proof.Tests
end

section
/-! SUPPORT. The state's own statements (10_state.md): what the two halves of the bus address space decode to, and what
every register reads after reset. -/

namespace Sys2Proof.Machine

/-! ## The bus decoder by direction (R101, R102) -/

/-- A write goes to one of the four writable registers or is ignored. -/
theorem decodeBus_write (a : BitVec 6) (v : Word) :
    decodeBus (1#1 ++ a) v =
      if a = 0x02#6 then .wrCtrl v else if a = 0x03#6 then .wrCmd v else if a = 0x05#6 then .wrLocalId v
      else if a = 0x07#6 then .wrTxdata v else .wrIgnored a v := by
  unfold decodeBus
  rw [BitVec.extractLsb'_append_eq_right, BitVec.getLsbD_append]
  rfl

/-- A read is of RXDATA, of another mapped register, or of a reserved address. -/
theorem decodeBus_read (a : BitVec 6) (v : Word) :
    decodeBus (0#1 ++ a) v =
      if a = 0x0D#6 then .rdRxdata else if a.toNat ≤ 0x1A then .rdReg a else .rdReserved a := by
  unfold decodeBus
  rw [BitVec.extractLsb'_append_eq_right, BitVec.getLsbD_append]
  rfl

theorem decodeBus_write_ignored {a : BitVec 6} (v : Word) (hCtrl : a ≠ 0x02#6) (hCmd : a ≠ 0x03#6)
    (hLocalId : a ≠ 0x05#6) (hTxdata : a ≠ 0x07#6) : decodeBus (1#1 ++ a) v = .wrIgnored a v := by
  rw [decodeBus_write, if_neg hCtrl, if_neg hCmd, if_neg hLocalId, if_neg hTxdata]

theorem decodeBus_read_reserved {a : BitVec 6} (v : Word) (h : 0x1B ≤ a.toNat) :
    decodeBus (0#1 ++ a) v = .rdReserved a := by
  have hRxdata : a ≠ 0x0D#6 := by
    rintro rfl
    exact absurd h (by decide)
  rw [decodeBus_read, if_neg hRxdata, if_neg (show ¬a.toNat ≤ 0x1A by omega)]

theorem exec_wrIgnored (a : BitVec 6) (v : Word) (s : State) : exec (.wrIgnored a v) s = .next s := rfl

theorem exec_rdReserved (a : BitVec 6) (s : State) : exec (.rdReserved a) s = .next { s with out := .read 0#32 } := rfl

/-- Settles O19: by direction, the decoder has one row for what no register answers, and neither row writes the state. -/
theorem ignoredAccessesChangeNothing : Obligations.IgnoredAccessesChangeNothing := fun s a v =>
  ⟨decodeBus_write_ignored v, exec_wrIgnored a v s, decodeBus_read_reserved v, exec_rdReserved a s⟩

/-! ## The registers after reset (R64) -/

@[simp] theorem lengthField_zero (n : Nat) : lengthField n 0 = 0#32 := by
  simp [lengthField]

@[simp] theorem ctrlWord_resetBlock (s : State) : ctrlWord s.resetBlock = 0x00000003#32 := by
  simp [ctrlWord]

@[simp] theorem rxBytesWord_resetBlock (s : State) : rxBytesWord s.resetBlock = 0#32 := by
  simp [rxBytesWord]

@[simp] theorem rxdataView_resetBlock (s : State) : rxdataView s.resetBlock = 0#32 := rfl

/-- STATUS is 0 after reset, since an empty queue is not full: its depth is not 0. -/
theorem statusWord_resetBlock {s : State} (h : s.cfg.txqDepth ≠ 0) : statusWord s.resetBlock = 0#32 := by
  have hNotFull : (0 == s.cfg.txqDepth) = false := by simpa using h.symm
  simp [statusWord, hNotFull, TxState.code, RxState.code]

theorem txqDepth_ne_zero_of_configWf {c : Config} (h : configWf c = true) : c.txqDepth ≠ 0 := by
  simp only [configWf, Bool.and_eq_true, decide_eq_true_eq] at h
  omega

/-- ID and CTRL alone read other than 0 after reset: the column of reset values of R20. -/
theorem regRead_resetBlock {s : State} (h : s.cfg.txqDepth ≠ 0) (a : BitVec 6) :
    regRead s.resetBlock a =
      if a = 0x00#6 then 0x46534B31#32 else if a = 0x02#6 then 0x00000003#32 else 0#32 := by
  have hId : a = 0x00#6 ↔ a.toNat = 0x00 := BitVec.toNat_inj.symm
  have hCtrl : a = 0x02#6 ↔ a.toNat = 0x02 := BitVec.toNat_inj.symm
  simp only [hId, hCtrl]
  unfold regRead
  split
  -- A reserved address is neither ID nor CTRL.
  case h_28 => rw [if_neg ‹a.toNat = 0x00 → False›, if_neg ‹a.toNat = 0x02 → False›]
  all_goals simp [statusWord_resetBlock h, ErrCode.code, RxEvent.code, *]

theorem unstarted_resetBlock (s : State) : Unstarted s.resetBlock where
  framer := ⟨rfl, rfl, rfl, rfl⟩
  driver := ⟨rfl, rfl, rfl⟩
  capture := ⟨rfl, rfl, rfl⟩

/-- Settles O33: the registers by `regRead_resetBlock`, the fields by the definition of reset. -/
theorem resetSetsEveryRegister : Obligations.ResetSetsEveryRegister := fun s h =>
  ⟨s.resetBlock, rfl, regRead_resetBlock (txqDepth_ne_zero_of_configWf h), rfl, rfl, rfl, rfl, rfl, rfl, rfl, rfl, rfl,
    rfl, rfl, rfl, rfl, rfl, unstarted_resetBlock s⟩

end Sys2Proof.Machine
end

section
/-! SUPPORT. The words of each sub-format (R104): a row of R107 selects the words with its opcode whose bits marked 0
are 0, so the ILLEGAL words of R108 are those no row selects. -/

namespace Sys2Proof.Machine

/-! ## Command words by their opcode and operand (R103) -/

theorem cmdWord_fields (w : Word) : cmdWord (w.extractLsb' 24 8) (w.extractLsb' 0 24) = w :=
  BitVec.extractLsb'_append_extractLsb' (w := 8) (len := 24)

theorem cmdWord_inj {opc opc' : BitVec 8} {operand operand' : BitVec 24} :
    cmdWord opc operand = cmdWord opc' operand' ↔ opc = opc' ∧ operand = operand' := by
  refine ⟨fun h => ⟨?_, ?_⟩, fun ⟨hOpc, hOperand⟩ => by rw [hOpc, hOperand]⟩
  · simpa only [cmdWord, BitVec.extractLsb'_append_eq_left] using congrArg (BitVec.extractLsb' 24 8) h
  · simpa only [cmdWord, BitVec.extractLsb'_append_eq_right] using congrArg (BitVec.extractLsb' 0 24) h

/-- A mask that covers the opcode keeps it whole. -/
theorem and_cmdWord_allOnes (w : Word) (mask : BitVec 24) :
    w &&& cmdWord 0xFF#8 mask = cmdWord (w.extractLsb' 24 8) (w.extractLsb' 0 24 &&& mask) := by
  calc w &&& cmdWord 0xFF#8 mask
      = cmdWord (w.extractLsb' 24 8) (w.extractLsb' 0 24) &&& cmdWord 0xFF#8 mask := by rw [cmdWord_fields]
    _ = cmdWord (w.extractLsb' 24 8 &&& BitVec.allOnes 8) (w.extractLsb' 0 24 &&& mask) := BitVec.and_append
    _ = cmdWord (w.extractLsb' 24 8) (w.extractLsb' 0 24 &&& mask) := by rw [BitVec.and_allOnes]

/-! ## The bits a sub-format marks 0 (R104, R106) -/

/-- The bits of an operand from `lo` on, `len` of them. -/
def operandMask (lo len : Nat) : BitVec 24 := (BitVec.allOnes len).setWidth 24 <<< lo

theorem getLsbD_operandMask {lo len : Nat} (hFits : lo + len ≤ 24) (i : Nat) :
    (operandMask lo len).getLsbD i = decide (lo ≤ i ∧ i < lo + len) := by
  simp only [operandMask, BitVec.getLsbD_shiftLeft, BitVec.getLsbD_setWidth, BitVec.getLsbD_allOnes]
  rw [Bool.eq_iff_iff]
  simp only [Bool.and_eq_true, Bool.not_eq_true', decide_eq_true_eq, decide_eq_false_iff_not]
  omega

/-- Under the mask an operand is 0 exactly when the masked field of its word is: bit `i` of the field is bit `lo + i` of
the word. -/
theorem operand_and_mask_eq_zero_iff {lo len : Nat} (hFits : lo + len ≤ 24) (w : Word) :
    w.extractLsb' 0 24 &&& operandMask lo len = 0#24 ↔ w.extractLsb' lo len = 0#len := by
  have hField : w.extractLsb' lo len = 0#len ↔ ∀ i, i < len → w.getLsbD (lo + i) = false := by
    simp +contextual [BitVec.eq_of_getLsbD_eq_iff]
  have hMasked : w.extractLsb' 0 24 &&& operandMask lo len = 0#24 ↔
      ∀ i, i < 24 → w.getLsbD i = true → lo ≤ i → lo + len ≤ i := by
    simp [BitVec.eq_of_getLsbD_eq_iff, getLsbD_operandMask hFits]
  rw [hField, hMasked]
  constructor
  · intro h i hi
    by_contra hBit
    have hOut := h (lo + i) (by omega) (by simpa using hBit) (by omega)
    omega
  · intro h i hi hBit hLo
    by_contra hHi
    have hClear := h (i - lo) (by omega)
    rw [Nat.add_sub_cancel' hLo, hBit] at hClear
    cases hClear

/-- A row whose mask is the opcode and one field of the operand selects the words of its opcode with that field 0. -/
theorem selects_iff_opcode_and_field {r : CmdRow} {opc : BitVec 8} {lo len : Nat} (hFits : lo + len ≤ 24)
    (hMask : r.mask = cmdWord 0xFF#8 (operandMask lo len)) (hValue : r.value = cmdWord opc 0#24) (w : Word) :
    r.selects w = true ↔ (w.extractLsb' 24 8).toNat = opc.toNat ∧ w.extractLsb' lo len = 0#len := by
  rw [CmdRow.selects, beq_iff_eq, hMask, hValue, and_cmdWord_allOnes, cmdWord_inj, operand_and_mask_eq_zero_iff hFits,
    BitVec.toNat_inj]

/-- The rows of R107 as R104 lays them out: TX_SEND marks bits 15..0, TONE_READ bits 23..17 and the others the whole
operand. -/
theorem exists_cmdRow_selects_iff (w : Word) :
    (∃ r ∈ cmdRows, r.selects w = true) ↔
      let opc := (w.extractLsb' 24 8).toNat
      (opc = 2 ∧ w.extractLsb' 0 16 = 0#16) ∨ (opc = 6 ∧ w.extractLsb' 17 7 = 0#7)
        ∨ (opc < 7 ∧ opc ≠ 2 ∧ opc ≠ 6 ∧ w.extractLsb' 0 24 = 0#24) := by
  simp only [cmdRows, List.mem_cons, List.not_mem_nil, or_false, exists_eq_or_imp, exists_eq_left]
  rw [selects_iff_opcode_and_field (opc := 0#8) (lo := 0) (len := 24) (by decide) rfl rfl,
    selects_iff_opcode_and_field (opc := 1#8) (lo := 0) (len := 24) (by decide) rfl rfl,
    selects_iff_opcode_and_field (opc := 2#8) (lo := 0) (len := 16) (by decide) rfl rfl,
    selects_iff_opcode_and_field (opc := 3#8) (lo := 0) (len := 24) (by decide) rfl rfl,
    selects_iff_opcode_and_field (opc := 4#8) (lo := 0) (len := 24) (by decide) rfl rfl,
    selects_iff_opcode_and_field (opc := 5#8) (lo := 0) (len := 24) (by decide) rfl rfl,
    selects_iff_opcode_and_field (opc := 6#8) (lo := 17) (len := 7) (by decide) rfl rfl]
  generalize (w.extractLsb' 24 8).toNat = opc
  by_cases hListed : opc < 7
  · interval_cases opc <;> simp
  · simp [hListed, show ∀ n < 7, opc ≠ n by omega]

/-- R108: the ILLEGAL words, by what no row selects. -/
theorem decodeCommand_eq_none_iff (w : Word) :
    decodeCommand w = none ↔
      let opc := (w.extractLsb' 24 8).toNat
      7 ≤ opc ∨ (opc = 2 ∧ w.extractLsb' 0 16 ≠ 0#16) ∨ (opc = 6 ∧ w.extractLsb' 17 7 ≠ 0#7)
        ∨ (opc < 7 ∧ opc ≠ 2 ∧ opc ≠ 6 ∧ w.extractLsb' 0 24 ≠ 0#24) := by
  rw [← Option.not_isSome_iff_eq_none, decodeCommand_isSome_iff, exists_cmdRow_selects_iff]
  generalize (w.extractLsb' 24 8).toNat = opc
  by_cases hListed : opc < 7
  · interval_cases opc <;> simp
  · simp [hListed, Nat.not_lt.mp hListed, show ∀ n < 7, opc ≠ n by omega]

theorem exec_wrCmd_of_illegal {w : Word} (h : decodeCommand w = none) (s : State) :
    exec (.wrCmd w) s = .next { s with err := .illegalCommand } := by
  obtain ⟨c, hSome, -⟩ | ⟨-, hExec⟩ := execWrCmd_cases w s
  · cases h.symm.trans hSome
  · exact hExec

/-- Settles O3: the ILLEGAL words are those no row of R107 selects, and the write of one runs no command. -/
theorem illegalWordsOnlySetErr : Obligations.IllegalWordsOnlySetErr := fun w =>
  ⟨decodeCommand_eq_none_iff w, exec_wrCmd_of_illegal⟩

end Sys2Proof.Machine
end

section
/-! SUPPORT. The words of TONE_READ (R104, R107), and what they do (R134). -/

namespace Sys2Proof.Machine

/-! ## Words by their fields -/

/-- A field is the join of two parts when its high part is the one and its low part the other. -/
theorem extractLsb'_eq_append_iff (w : Word) (lo : Nat) {m n : Nat} (a : BitVec m) (b : BitVec n) :
    w.extractLsb' lo (m + n) = a ++ b ↔ w.extractLsb' (lo + n) m = a ∧ w.extractLsb' lo n = b := by
  rw [← BitVec.extractLsb'_append_extractLsb'_eq_extractLsb' rfl]
  refine ⟨fun h => ⟨?_, ?_⟩, fun ⟨hHigh, hLow⟩ => by rw [hHigh, hLow]⟩
  · simpa only [BitVec.extractLsb'_append_eq_left] using congrArg (BitVec.extractLsb' n m) h
  · simpa only [BitVec.extractLsb'_append_eq_right] using congrArg (BitVec.extractLsb' 0 n) h

theorem extractLsb'_one_eq_ofBool_iff (w : Word) (i : Nat) (b : Bool) :
    w.extractLsb' i 1 = BitVec.ofBool b ↔ w.getLsbD i = b := by
  rw [BitVec.getLsbD_eq_extractLsb']
  generalize w.extractLsb' i 1 = bit
  revert bit b
  decide

/-- The sub-format of TONE_READ (R104): opcode, bits marked 0, operand. -/
theorem eq_opcode_high_low_iff (w : Word) (opc : BitVec 8) (high : BitVec 7) (low : BitVec 17) :
    w = opc ++ high ++ low ↔ w.extractLsb' 24 8 = opc ∧ w.extractLsb' 17 7 = high ∧ w.extractLsb' 0 17 = low := by
  have hLow := extractLsb'_eq_append_iff w 0 (opc ++ high) low
  have hHigh := extractLsb'_eq_append_iff w 17 opc high
  rw [BitVec.extractLsb'_eq_self] at hLow
  exact hLow.trans (by rw [hHigh, and_assoc])

theorem eq_toneRead_word_iff (w : Word) (opc : BitVec 8) (high : BitVec 7) (sym : Bool) (index : BitVec 16) :
    w = opc ++ high ++ BitVec.ofBool sym ++ index ↔
      w.extractLsb' 24 8 = opc ∧ w.extractLsb' 17 7 = high ∧ symField w = sym ∧ indexField w = index := by
  have hIndex := extractLsb'_eq_append_iff w 0 (opc ++ high ++ BitVec.ofBool sym) index
  have hSym := extractLsb'_eq_append_iff w 16 (opc ++ high) (BitVec.ofBool sym)
  have hHigh := extractLsb'_eq_append_iff w 17 opc high
  rw [BitVec.extractLsb'_eq_self] at hIndex
  exact hIndex.trans (by rw [hSym, hHigh, extractLsb'_one_eq_ofBool_iff, and_assoc, and_assoc]; rfl)

/-! ## The decoder's row of TONE_READ (R107) -/

/-- A word that one row selects is not selected by a row whose match differs in a bit both masks look at. -/
theorem and_ne_of_and_eq {w m v m' v' : Word} (h : w &&& m = v) (hDiffer : m &&& m' &&& (v ^^^ v') ≠ 0#32) :
    w &&& m' ≠ v' := by
  rintro rfl
  subst h
  refine hDiffer (BitVec.eq_of_getLsbD_eq fun i _ => ?_)
  simp only [BitVec.getLsbD_and, BitVec.getLsbD_xor, BitVec.getLsbD_zero]
  cases w.getLsbD i <;> cases m.getLsbD i <;> cases m'.getLsbD i <;> rfl

theorem decodeCommand_eq_toneRead_iff (w : Word) (sym : Bool) (index : BitVec 16) :
    decodeCommand w = some (.toneRead sym index) ↔
      w &&& 0xFFFE0000#32 = 0x06000000#32 ∧ symField w = sym ∧ indexField w = index := by
  constructor
  · intro h
    unfold decodeCommand at h
    split_ifs at h
    all_goals cases h
    exact ⟨‹_›, rfl, rfl⟩
  · rintro ⟨hRow, rfl, rfl⟩
    unfold decodeCommand
    rw [if_neg (and_ne_of_and_eq hRow (by decide)), if_neg (and_ne_of_and_eq hRow (by decide)),
      if_neg (and_ne_of_and_eq hRow (by decide)), if_neg (and_ne_of_and_eq hRow (by decide)),
      if_neg (and_ne_of_and_eq hRow (by decide)), if_neg (and_ne_of_and_eq hRow (by decide)), if_pos hRow]

theorem and_eq_toneRead_row_iff (w : Word) :
    w &&& 0xFFFE0000#32 = 0x06000000#32 ↔ w.extractLsb' 24 8 = 0x06#8 ∧ w.extractLsb' 17 7 = 0#7 := by
  have hRow := selects_iff_opcode_and_field (r := ⟨"TONE_READ", 0xFFFE0000#32, 0x06000000#32⟩) (opc := 0x06#8)
    (lo := 17) (len := 7) (by decide) rfl rfl w
  rwa [CmdRow.selects, beq_iff_eq, BitVec.toNat_inj] at hRow

theorem decodeCommand_eq_toneRead_iff_word (w : Word) (sym : Bool) (index : BitVec 16) :
    decodeCommand w = some (.toneRead sym index) ↔ w = 0x06#8 ++ 0#7 ++ BitVec.ofBool sym ++ index := by
  rw [decodeCommand_eq_toneRead_iff, and_eq_toneRead_row_iff, eq_toneRead_word_iff, and_assoc]

theorem decodeCommand_toneRead_high_ne_zero {high : BitVec 7} (low : BitVec 17) (h : high ≠ 0#7) :
    decodeCommand (0x06#8 ++ high ++ low) = none := by
  obtain ⟨w, hw⟩ : ∃ w : Word, w = 0x06#8 ++ high ++ low := ⟨_, rfl⟩
  obtain ⟨hOpc, hHigh, -⟩ := (eq_opcode_high_low_iff w 0x06#8 high low).mp hw
  rw [← hw, decodeCommand_eq_none_iff, hOpc, hHigh]
  exact .inr (.inr (.inl ⟨rfl, h⟩))

/-! ## What TONE_READ does -/

theorem exec_toneRead_of_lt {s : State} (sym : Bool) {index : BitVec 16} (h : index.toNat < s.cfg.tableLen) :
    exec (.toneRead sym index) s = .next { s with toneData := romWord s.cfg sym index.toNat, err := .ok } := by
  obtain ⟨hOut, -⟩ | ⟨-, hExec⟩ := execToneRead_cases sym index s
  · omega
  · exact hExec

theorem exec_toneRead_of_le {s : State} (sym : Bool) {index : BitVec 16} (h : s.cfg.tableLen ≤ index.toNat) :
    exec (.toneRead sym index) s = .next { s with err := .badArgument } := by
  obtain ⟨-, hExec⟩ | ⟨hIn, -⟩ := execToneRead_cases sym index s
  · exact hExec
  · omega

/-- Settles O15: the words are those the row of R107 selects, and the two outcomes are those of `execToneRead_cases`. -/
theorem toneReadOutcomes : Obligations.ToneReadOutcomes :=
  ⟨decodeCommand_eq_toneRead_iff_word,
    fun _ low s hHigh => exec_wrCmd_of_illegal (decodeCommand_toneRead_high_ne_zero low hHigh) s,
    fun _ sym _ => ⟨exec_toneRead_of_lt sym, exec_toneRead_of_le sym⟩⟩

end Sys2Proof.Machine
end

section
/-! SUPPORT. Magnitudes of binary32 patterns as real numbers (R10, R76): in order, and close together up to 1. -/

namespace Sys2Proof.Machine

open Sys2Proof.Claims

/-! ## The next pattern -/

theorem f32Exp_eq {e f : Nat} (he : e < 256) (hf : f < 2 ^ 23) : f32Exp (2 ^ 23 * e + f) = e := by
  rw [f32Exp, Nat.mul_add_div (by decide), Nat.div_eq_of_lt hf]
  omega

theorem f32Mag_eq {e f : Nat} (he : e < 256) (hf : f < 2 ^ 23) :
    f32Mag (2 ^ 23 * e + f) = if e = 0 then f else (2 ^ 23 + f) * 2 ^ (e - 1) := by
  rw [f32Mag, f32Exp_eq he hf, Nat.mul_add_mod, Nat.mod_eq_of_lt hf]

/-- The step to the next pattern is one unit of the last place, across an exponent's end too. -/
theorem f32Mag_succ {n : Nat} (h : n + 1 < 2 ^ 31) : f32Mag (n + 1) = f32Mag n + 2 ^ (f32Exp n - 1) := by
  obtain ⟨e, f, he, hf, rfl⟩ : ∃ e f, e < 256 ∧ f < 2 ^ 23 ∧ n = 2 ^ 23 * e + f :=
    ⟨n / 2 ^ 23, n % 2 ^ 23, by omega, by omega, by omega⟩
  rw [f32Exp_eq he hf, f32Mag_eq he hf]
  by_cases hLast : f + 1 = 2 ^ 23
  · rw [show 2 ^ 23 * e + f + 1 = 2 ^ 23 * (e + 1) + 0 by omega, f32Mag_eq (by omega) (by omega)]
    obtain rfl : f = 2 ^ 23 - 1 := by omega
    rcases e with _ | e
    · rfl
    · simp only [Nat.add_eq_zero_iff, one_ne_zero, and_false, if_false, Nat.add_sub_cancel, pow_succ]
      ring
  · rw [Nat.add_assoc, f32Mag_eq he (by omega)]
    split
    · simp [*]
    · ring

theorem f32Mag_strictMonoOn : StrictMonoOn f32Mag (Set.Iio (2 ^ 31)) := by
  refine strictMonoOn_of_lt_add_one Set.ordConnected_Iio fun n _ _ hn => ?_
  rw [f32Mag_succ hn]
  exact Nat.lt_add_of_pos_right (by positivity)

theorem f32Mag_one : f32Mag 0x3F800000 = 2 ^ 149 := by decide

/-- Below 1.0 the step is at most 2^-24. -/
theorem f32Mag_succ_le {n : Nat} (h : n < 0x3F800000) : f32Mag (n + 1) ≤ f32Mag n + 2 ^ 125 := by
  rw [f32Mag_succ (by omega)]
  have hExp : f32Exp n - 1 ≤ 125 := by
    unfold f32Exp
    omega
  exact Nat.add_le_add_left (Nat.pow_le_pow_right (by decide) hExp) _

/-! ## Values -/

/-- The real number a pattern taken without its sign bit stands for. -/
noncomputable def f32Value (n : Nat) : ℝ := f32Mag n / f32Unit

theorem f32Unit_cast : (f32Unit : ℝ) = 2 ^ 149 := by
  rw [f32Unit, Nat.cast_pow, Nat.cast_ofNat]

theorem f32Unit_pos : (0 : ℝ) < f32Unit := by
  rw [f32Unit_cast]
  positivity

theorem f32Value_nonneg (n : Nat) : 0 ≤ f32Value n := div_nonneg (Nat.cast_nonneg _) f32Unit_pos.le

theorem f32Value_strictMonoOn : StrictMonoOn f32Value (Set.Iio (2 ^ 31)) := fun _ ha _ hb hab =>
  div_lt_div_of_pos_right (Nat.cast_lt.mpr (f32Mag_strictMonoOn ha hb hab)) f32Unit_pos

@[simp] theorem f32Value_zero : f32Value 0 = 0 := by
  simp [f32Value, f32Mag, f32Exp]

@[simp] theorem f32Value_one : f32Value 0x3F800000 = 1 := by
  rw [f32Value, f32Mag_one]
  exact div_self f32Unit_pos.ne'

theorem f32Value_half : f32Value 0x3F000000 = 1 / 2 := by
  rw [f32Value, show f32Mag 0x3F000000 = 2 ^ 148 by decide, f32Unit_cast]
  norm_num

theorem f32Value_succ_le {n : Nat} (h : n < 0x3F800000) : f32Value (n + 1) ≤ f32Value n + 1 / 2 ^ 24 := by
  have hStep : (f32Mag (n + 1) : ℝ) ≤ f32Mag n + 2 ^ 125 := by exact_mod_cast f32Mag_succ_le h
  rw [f32Value, f32Value, f32Unit_cast, div_le_iff₀ (by positivity), add_mul, div_mul_cancel₀ _ (by positivity)]
  calc (f32Mag (n + 1) : ℝ) ≤ f32Mag n + 2 ^ 125 := hStep
    _ = f32Mag n + 1 / 2 ^ 24 * 2 ^ 149 := by norm_num

/-- The sign bit does not enter the magnitude. -/
theorem f32Value_mod (n : Nat) : f32Value (n % 2 ^ 31) = f32Value n := by
  have hExp : f32Exp (n % 2 ^ 31) = f32Exp n := by
    unfold f32Exp
    omega
  have hFrac : n % 2 ^ 31 % 2 ^ 23 = n % 2 ^ 23 := by omega
  rw [f32Value, f32Value, f32Mag, f32Mag, hExp, hFrac]

/-- R76: a word is its magnitude, negated where the sign bit is set. -/
theorem f32Real_eq (w : Word) : f32Real w = (if w.getLsbD 31 then -1 else 1) * f32Value w.toNat := by
  have hExp : (w.extractLsb' 23 8).toNat = f32Exp w.toNat := by
    rw [BitVec.extractLsb'_toNat, Nat.shiftRight_eq_div_pow, f32Exp]
  have hFrac : (w.extractLsb' 0 23).toNat = w.toNat % 2 ^ 23 := by
    rw [BitVec.extractLsb'_toNat, Nat.shiftRight_zero]
  unfold f32Real f32Value f32Mag
  simp only [hExp, hFrac, f32Unit_cast]
  congr 1
  split
  · rfl
  · obtain ⟨e, he⟩ := Nat.exists_eq_succ_of_ne_zero ‹¬f32Exp w.toNat = 0›
    rw [he, Nat.succ_sub_one]
    push_cast
    rw [pow_succ 2 149, pow_succ 2 e]
    field_simp
    norm_num

theorem abs_f32Real (w : Word) : |f32Real w| = f32Value w.toNat := by
  rw [f32Real_eq, abs_mul, abs_of_nonneg (f32Value_nonneg _)]
  split <;> simp

end Sys2Proof.Machine
end

section
/-! SUPPORT. The search of the tone ROM (R131) ends at the pattern nearest to its cosine. -/

namespace Sys2Proof.Machine

open Real

/-- What it is for a pattern to be the rounding of a number from 0 to 1: no pattern is nearer, and 1.0 is not passed. -/
structure IsNearestPattern (m : Nat) (x : ℝ) : Prop where
  nonneg : 0 ≤ x
  le_one : x ≤ 1
  pattern_le : m ≤ 0x3F800000
  nearest : ∀ v < 2 ^ 31, |f32Value m - x| ≤ |f32Value v - x|
  error_le : |f32Value m - x| ≤ 1 / 2 ^ 25

/-- A number that is a pattern's value is rounded to that pattern. -/
theorem IsNearestPattern.eq_of_value {m u : Nat} {x : ℝ} (h : IsNearestPattern m x) (hu : u < 2 ^ 31)
    (hx : x = f32Value u) : m = u := by
  have hm : m < 2 ^ 31 := by have := h.pattern_le; omega
  have hZero : |f32Value m - x| ≤ 0 := by simpa [hx] using h.nearest u hu
  refine f32Value_strictMonoOn.injOn hm hu ?_
  rw [← hx]
  exact sub_eq_zero.mp (abs_nonpos_iff.mp hZero)

/-- What the search finds of `x`: the neighbouring patterns `below` and `below + 1` around it, and of the two the one on
its side of their midpoint, `m`. -/
structure IsPickedFromBracket (below m : Nat) (x : ℝ) : Prop where
  below_lt : below < 2 ^ 30
  low : f32Value below ≤ x
  high : x < f32Value (below + 1)
  pick : m = below + 1 ∧ (f32Value below + f32Value (below + 1)) / 2 ≤ x
    ∨ m = below ∧ x < (f32Value below + f32Value (below + 1)) / 2

/-- Every pattern lies outside the bracket, so none is nearer than the bracket's nearer end. -/
theorem IsPickedFromBracket.nearest {below m : Nat} {x : ℝ} (h : IsPickedFromBracket below m x) {v : Nat}
    (hv : v < 2 ^ 31) : |f32Value m - x| ≤ |f32Value v - x| := by
  obtain ⟨hBelow, hLow, hHigh, hPick⟩ := h
  have hFar : min (x - f32Value below) (f32Value (below + 1) - x) ≤ |f32Value v - x| := by
    rcases Nat.lt_or_ge below v with h | h
    · have hValue := f32Value_strictMonoOn.monotoneOn (show below + 1 < 2 ^ 31 by omega) hv h
      exact (min_le_right _ _).trans ((sub_le_sub_right hValue x).trans (le_abs_self _))
    · have hValue := f32Value_strictMonoOn.monotoneOn hv (show below < 2 ^ 31 by omega) h
      rw [abs_sub_comm]
      exact (min_le_left _ _).trans ((sub_le_sub_left hValue x).trans (le_abs_self _))
  refine le_trans ?_ hFar
  rcases hPick with ⟨rfl, hMid⟩ | ⟨rfl, hMid⟩
  · rw [abs_of_nonneg (by linarith)]
    exact le_min (by linarith) le_rfl
  · rw [abs_of_nonpos (by linarith)]
    exact le_min (by linarith) (by linarith)

/-- For a number up to 1 the pattern picked is not above 1.0. -/
theorem IsPickedFromBracket.pattern_le {below m : Nat} {x : ℝ} (h : IsPickedFromBracket below m x) (hOne : x ≤ 1) :
    m ≤ 0x3F800000 := by
  obtain ⟨hBelow, hLow, -, hPick⟩ := h
  have hLe : below ≤ 0x3F800000 :=
    (f32Value_strictMonoOn.le_iff_le (show below < 2 ^ 31 by omega) (by decide)).mp (by rw [f32Value_one]; linarith)
  rcases hPick with ⟨rfl, hMid⟩ | ⟨rfl, -⟩
  · refine Nat.lt_of_le_of_ne hLe ?_
    rintro rfl
    have hAbove := f32Value_strictMonoOn (a := 0x3F800000) (b := 0x3F800000 + 1) (by decide) (by decide) (by decide)
    rw [f32Value_one] at hAbove hMid
    linarith
  · exact hLe

/-- The pattern picked is off by at most half the step of the bracket, and by nothing at 1.0. -/
theorem IsPickedFromBracket.error_le {below m : Nat} {x : ℝ} (h : IsPickedFromBracket below m x) (hOne : x ≤ 1) :
    |f32Value m - x| ≤ 1 / 2 ^ 25 := by
  have hBelow := h.below_lt
  rcases Nat.lt_or_ge below 0x3F800000 with hInside | hTop
  · have hStep := f32Value_succ_le hInside
    have hFromBelow := h.nearest (show below < 2 ^ 31 by omega)
    have hFromAbove := h.nearest (show below + 1 < 2 ^ 31 by omega)
    rw [abs_of_nonpos (sub_nonpos.mpr h.low)] at hFromBelow
    rw [abs_of_pos (sub_pos.mpr h.high)] at hFromAbove
    linarith
  · have hGe := f32Value_strictMonoOn.monotoneOn (a := 0x3F800000) (by decide) (show below < 2 ^ 31 by omega) hTop
    have hExact : x = 1 := le_antisymm hOne (f32Value_one ▸ hGe.trans h.low)
    have hFromOne := h.nearest (v := 0x3F800000) (by decide)
    rw [f32Value_one, hExact, sub_self, abs_zero] at hFromOne
    rw [hExact]
    exact hFromOne.trans (by positivity)

section
variable {N a : Nat} (hN : 0 < N) (ha : 4 * a ≤ N)
include hN ha

theorem leCos_f32Mag_iff (n : Nat) :
    leCos (f32Mag n : Int) f32Unit N a = true ↔ f32Value n ≤ cos (2 * π * a / N) := by
  rw [leCos_iff _ _ _ _ (by decide) hN (by omega), Int.cast_natCast, f32Value]

theorem leCos_midpoint_iff (n n' : Nat) :
    leCos ((f32Mag n + f32Mag n' : Nat) : Int) (2 * f32Unit) N a = true ↔
      (f32Value n + f32Value n') / 2 ≤ cos (2 * π * a / N) := by
  rw [leCos_iff _ _ _ _ (by decide) hN (by omega), Int.cast_natCast, f32Value, f32Value, ← add_div, div_div]
  push_cast
  rw [mul_comm (2 : ℝ)]

/-- The search keeps its lower bound and ends within one pattern above it. -/
theorem floorF32From_spec : ∀ (bits base : Nat), f32Value base ≤ cos (2 * π * a / N) →
    cos (2 * π * a / N) < f32Value (base + 2 ^ bits) →
      floorF32From N a bits base < base + 2 ^ bits
        ∧ f32Value (floorF32From N a bits base) ≤ cos (2 * π * a / N)
        ∧ cos (2 * π * a / N) < f32Value (floorF32From N a bits base + 1)
  | 0, base, hLow, hHigh => ⟨Nat.lt_succ_self _, hLow, hHigh⟩
  | bits + 1, base, hLow, hHigh => by
    have hSplit : base + 2 ^ (bits + 1) = base + 2 ^ bits + 2 ^ bits := by rw [pow_succ]; omega
    rw [floorF32From, hSplit]
    split
    · exact floorF32From_spec bits _ ((leCos_f32Mag_iff hN ha _).mp ‹_›) (hSplit ▸ hHigh)
    · have hBelow := not_le.mp (mt (leCos_f32Mag_iff hN ha (base + 2 ^ bits)).mpr ‹_›)
      obtain ⟨hLt, hRest⟩ := floorF32From_spec bits base hLow hBelow
      exact ⟨hLt.trans (by have := Nat.two_pow_pos bits; omega), hRest⟩

theorem cos_fold_nonneg : 0 ≤ cos (2 * π * a / N) := by
  have hNr : (0 : ℝ) < N := by exact_mod_cast hN
  have har : (4 : ℝ) * a ≤ N := by exact_mod_cast ha
  have hAngle : 2 * π * a / N ≤ π / 2 := by
    rw [div_le_iff₀ hNr]
    nlinarith [pi_pos]
  exact cos_nonneg_of_neg_pi_div_two_le_of_le (by linarith [pi_pos, show 0 ≤ 2 * π * a / N by positivity]) hAngle

/-- The search brackets the cosine between two patterns, and the test of their midpoint picks one of them. -/
theorem nearestF32_isPickedFromBracket :
    IsPickedFromBracket (floorF32From N a 30 0) (nearestF32 N a) (cos (2 * π * a / N)) := by
  have hTop : 1 < f32Value (0 + 2 ^ 30) := by
    rw [← f32Value_one]
    exact f32Value_strictMonoOn (by decide) (by decide) (by decide)
  obtain ⟨hLt, hLow, hHigh⟩ := floorF32From_spec hN ha 30 0 (by simpa using cos_fold_nonneg hN ha)
    ((cos_le_one _).trans_lt hTop)
  refine ⟨by omega, hLow, hHigh, ?_⟩
  unfold nearestF32
  dsimp only
  split
  · exact .inl ⟨rfl, (leCos_midpoint_iff hN ha _ _).mp ‹_›⟩
  · exact .inr ⟨rfl, not_le.mp (mt (leCos_midpoint_iff hN ha _ _).mpr ‹_›)⟩

/-- R131 for a cosine that is not negative: `nearestF32` is its rounding. -/
theorem nearestF32_isNearestPattern : IsNearestPattern (nearestF32 N a) (cos (2 * π * a / N)) := by
  have hPick := nearestF32_isPickedFromBracket hN ha
  exact ⟨cos_fold_nonneg hN ha, cos_le_one _, hPick.pattern_le (cos_le_one _), fun _ => hPick.nearest,
    hPick.error_le (cos_le_one _)⟩

end

end Sys2Proof.Machine
end

section
/-! SUPPORT. The tone ROM's words: the folding of the cycle, the sign, and the statements of R131 and R132. -/

namespace Sys2Proof.Machine

open Real Sys2Proof.Claims

/-! ## The fold of the cycle -/

theorem sin_eq_cos_fold {k R : Nat} (hR : 0 < R) :
    sin (2 * π * k / R) = cos (2 * π * ((R : Int) - 4 * (k : Int)).natAbs / (4 * R : Nat)) := by
  have hRr : (R : ℝ) ≠ 0 := by exact_mod_cast hR.ne'
  have hCast : ((((R : Int) - 4 * (k : Int)).natAbs : ℕ) : ℝ) = |(R : ℝ) - 4 * k| := by
    rw [Nat.cast_natAbs]
    push_cast
    rfl
  have hAngle : 2 * π * |(R : ℝ) - 4 * k| / (4 * R : Nat) = |π / 2 - 2 * π * k / R| := by
    rw [show π / 2 - 2 * π * k / R = 2 * π * ((R : ℝ) - 4 * k) / (4 * R : Nat) by push_cast; field_simp; ring,
      abs_div, abs_mul, abs_of_pos (by positivity : 0 < 2 * π), Nat.abs_cast]
  rw [hCast, hAngle, cos_abs, cos_pi_div_two_sub]

theorem sin_second_half {k R : Nat} (hR : 0 < R) (hk : k ≤ R) :
    sin (2 * π * k / R) = -sin (2 * π * (R - k : Nat) / R) := by
  have hRr : (R : ℝ) ≠ 0 := by exact_mod_cast hR.ne'
  rw [← sin_two_pi_sub, Nat.cast_sub hk]
  congr 1
  field_simp
  ring

/-- Where the fold of `nearestSine` puts the sine of `k / R` of a cycle: a rounded magnitude, under the sign of its half
cycle. -/
theorem nearestSine_cases {k R : Nat} (hR : 0 < R) (hk : k ≤ R) : ∃ m x, IsNearestPattern m x
    ∧ ((2 * k ≤ R ∧ nearestSine k R = BitVec.ofNat 32 m ∧ sin (2 * π * k / R) = x)
      ∨ (R < 2 * k ∧ nearestSine k R = 0x80000000#32 ||| BitVec.ofNat 32 m ∧ sin (2 * π * k / R) = -x)) := by
  unfold nearestSine
  dsimp only
  split
  · refine ⟨_, _, nearestF32_isNearestPattern (N := 4 * R) (by omega) ?_, .inr ⟨‹_›, rfl, ?_⟩⟩
    · omega
    · rw [sin_second_half hR hk, sin_eq_cos_fold hR]
  · refine ⟨_, _, nearestF32_isNearestPattern (N := 4 * R) (by omega) ?_, .inl ⟨by omega, rfl, ?_⟩⟩
    · omega
    · rw [sin_eq_cos_fold hR]

/-! ## The word of a magnitude -/

theorem f32Real_ofNat {m : Nat} (h : m < 2 ^ 31) : f32Real (BitVec.ofNat 32 m) = f32Value m := by
  have hSign : (BitVec.ofNat 32 m).getLsbD 31 = false := by
    rw [BitVec.getLsbD_ofNat, Nat.testBit_lt_two_pow h, Bool.and_false]
  rw [f32Real_eq, hSign, BitVec.toNat_ofNat, Nat.mod_eq_of_lt (by omega)]
  simp

theorem f32Real_negative {m : Nat} (h : m < 2 ^ 31) : f32Real (0x80000000#32 ||| BitVec.ofNat 32 m) = -f32Value m := by
  have hSign : (0x80000000#32 ||| BitVec.ofNat 32 m).getLsbD 31 = true := by
    simp
  have hMag : (0x80000000#32 ||| BitVec.ofNat 32 m).toNat % 2 ^ 31 = m := by
    rw [BitVec.toNat_or, Nat.or_mod_two_pow, BitVec.toNat_ofNat, BitVec.toNat_ofNat, Nat.mod_mod_of_dvd _ (by decide)]
    simpa using h
  rw [f32Real_eq, hSign, ← f32Value_mod, hMag]
  simp

/-- A word of value at most 1 in size is finite: its exponent field is at most that of 1.0. -/
theorem isFiniteF32_of_abs_le_one {w : Word} (h : |f32Real w| ≤ 1) : IsFiniteF32 w := by
  rw [abs_f32Real, ← f32Value_mod, ← f32Value_one] at h
  have hLe := (f32Value_strictMonoOn.le_iff_le (show w.toNat % 2 ^ 31 < 2 ^ 31 by omega) (by decide)).mp h
  intro hExp
  have hField := congrArg BitVec.toNat hExp
  rw [BitVec.extractLsb'_toNat, Nat.shiftRight_eq_div_pow] at hField
  simp only [BitVec.toNat_ofNat] at hField
  omega

/-! ## `nearestSine` is the rounded sine -/

section
variable {k R : Nat} (hR : 0 < R) (hk : k ≤ R)
include hR hk

/-- The word and the sine have one sign, so that they are as far apart as their sizes. -/
theorem nearestSine_spec : ∃ m x, IsNearestPattern m x ∧ |f32Real (nearestSine k R)| = f32Value m
    ∧ |sin (2 * π * k / R)| = x ∧ |f32Real (nearestSine k R) - sin (2 * π * k / R)| = |f32Value m - x| := by
  obtain ⟨m, x, h, hCase⟩ := nearestSine_cases hR hk
  have hm : m < 2 ^ 31 := by have := h.pattern_le; omega
  refine ⟨m, x, h, ?_⟩
  rcases hCase with ⟨-, hWord, hSine⟩ | ⟨-, hWord, hSine⟩
  · rw [hWord, hSine, f32Real_ofNat hm]
    exact ⟨abs_of_nonneg (f32Value_nonneg m), abs_of_nonneg h.nonneg, rfl⟩
  · rw [hWord, hSine, f32Real_negative hm, abs_neg, abs_neg, ← neg_sub', abs_neg]
    exact ⟨abs_of_nonneg (f32Value_nonneg m), abs_of_nonneg h.nonneg, rfl⟩

theorem abs_nearestSine_le_one : |f32Real (nearestSine k R)| ≤ 1 := by
  obtain ⟨m, x, h, hWord, -, -⟩ := nearestSine_spec hR hk
  have hm := h.pattern_le
  rw [hWord, ← f32Value_one]
  exact f32Value_strictMonoOn.monotoneOn (show m < 2 ^ 31 by omega) (by decide) hm

theorem nearestSine_error_le : |f32Real (nearestSine k R) - sin (2 * π * k / R)| ≤ 1 / 2 ^ 25 := by
  obtain ⟨m, x, h, -, -, hError⟩ := nearestSine_spec hR hk
  exact hError ▸ h.error_le

theorem nearestSine_nearest (v : Word) :
    |f32Real (nearestSine k R) - sin (2 * π * k / R)| ≤ |f32Real v - sin (2 * π * k / R)| := by
  obtain ⟨m, x, h, -, hSine, hError⟩ := nearestSine_spec hR hk
  calc |f32Real (nearestSine k R) - sin (2 * π * k / R)|
      = |f32Value m - x| := hError
    _ ≤ |f32Value (v.toNat % 2 ^ 31) - x| := h.nearest _ (by omega)
    _ = |(|f32Real v| - |sin (2 * π * k / R)|)| := by rw [f32Value_mod, ← abs_f32Real, hSine]
    _ ≤ |f32Real v - sin (2 * π * k / R)| := abs_abs_sub_abs_le _ _

/-- In the first half cycle a sine that is a pattern's value gives that pattern. -/
theorem nearestSine_eq_of_value {u : Nat} (hu : u < 2 ^ 31) (hHalf : 2 * k ≤ R)
    (hSine : sin (2 * π * k / R) = f32Value u) : nearestSine k R = BitVec.ofNat 32 u := by
  obtain ⟨m, x, h, ⟨-, hWord, hx⟩ | ⟨hLate, -, -⟩⟩ := nearestSine_cases hR hk
  · rw [hWord, h.eq_of_value hu (hx.symm.trans hSine)]
  · omega

/-- In the second half cycle the sign bit is set beside. -/
theorem nearestSine_eq_of_neg_value {u : Nat} (hu : u < 2 ^ 31) (hHalf : R < 2 * k)
    (hSine : sin (2 * π * k / R) = -f32Value u) : nearestSine k R = 0x80000000#32 ||| BitVec.ofNat 32 u := by
  obtain ⟨m, x, h, ⟨hEarly, -, -⟩ | ⟨-, hWord, hx⟩⟩ := nearestSine_cases hR hk
  · omega
  · rw [hWord, h.eq_of_value hu (neg_inj.mp (hx.symm.trans hSine))]

end

/-! ## No ties (R131) -/

theorem exists_rat_f32Real (w : Word) : ∃ q : ℚ, f32Real w = q := by
  rw [f32Real_eq, f32Value]
  cases w.getLsbD 31
  · exact ⟨f32Mag w.toNat / f32Unit, by simp⟩
  · exact ⟨-(f32Mag w.toNat / f32Unit), by simp⟩

/-- Niven's theorem: a rational sine of a rational angle is 0, 1/2 or 1 in size, and a word stands for it. -/
theorem exists_f32Real_eq_of_rational_sine {θ : ℝ} (hAngle : ∃ r : ℚ, θ = r * π)
    (hSine : ∃ q : ℚ, sin θ = q) : ∃ u : Word, f32Real u = sin θ := by
  rcases niven_sin hAngle hSine with h | h | h | h | h <;> rw [h]
  · exact ⟨_, (f32Real_negative (m := 0x3F800000) (by decide)).trans (by rw [f32Value_one])⟩
  · exact ⟨_, (f32Real_negative (m := 0x3F000000) (by decide)).trans (by rw [f32Value_half, neg_div])⟩
  · exact ⟨_, (f32Real_ofNat (m := 0) (by decide)).trans f32Value_zero⟩
  · exact ⟨_, (f32Real_ofNat (m := 0x3F000000) (by decide)).trans f32Value_half⟩
  · exact ⟨_, (f32Real_ofNat (m := 0x3F800000) (by decide)).trans f32Value_one⟩

/-- Two values as near to a number are one value, or the number is their mean. -/
theorem eq_or_mean_of_abs_sub_eq {f v y : ℝ} (h : |f - y| = |v - y|) : v = f ∨ y = (f + v) / 2 := by
  rcases abs_eq_abs.mp h with h | h
  · exact .inl (by linarith)
  · exact .inr (by linarith)

/-- A tie would make the sine rational, hence itself a word's value, and the nearest value would be no other. -/
theorem nearestSine_no_tie {k R : Nat} (hR : 0 < R) (hk : k ≤ R) {v : Word}
    (hTie : |f32Real (nearestSine k R) - sin (2 * π * k / R)| = |f32Real v - sin (2 * π * k / R)|) :
    f32Real v = f32Real (nearestSine k R) := by
  rcases eq_or_mean_of_abs_sub_eq hTie with h | hMean
  · exact h
  · obtain ⟨p, hp⟩ := exists_rat_f32Real (nearestSine k R)
    obtain ⟨q, hq⟩ := exists_rat_f32Real v
    obtain ⟨u, hu⟩ := exists_f32Real_eq_of_rational_sine (θ := 2 * π * k / R)
      ⟨2 * k / R, by push_cast; ring⟩ ⟨(p + q) / 2, by rw [hMean, hp, hq]; push_cast; rfl⟩
    have hZero := nearestSine_nearest hR hk u
    rw [hu, sub_self, abs_zero] at hZero
    have hWord := sub_eq_zero.mp (abs_nonpos_iff.mp hZero)
    have hOther := sub_eq_zero.mp (abs_nonpos_iff.mp (hTie ▸ hZero))
    rw [hWord, hOther]

/-! ## The ROM -/

/-- The argument is reduced to a fraction of one cycle. -/
theorem toneSine_eq (c : Config) (sym : Bool) (t : Nat) (hR : 0 < c.sampleRate) :
    toneSine c sym t = sin (2 * π * (c.freq sym * t % c.sampleRate : Nat) / c.sampleRate) := by
  have hRr : (c.sampleRate : ℝ) ≠ 0 := by exact_mod_cast hR.ne'
  have hDiv : (c.freq sym * t : ℝ) =
      c.sampleRate * (c.freq sym * t / c.sampleRate : Nat) + (c.freq sym * t % c.sampleRate : Nat) := by
    exact_mod_cast (Nat.div_add_mod (c.freq sym * t) c.sampleRate).symm
  refine Eq.trans (congrArg sin ?_) (sin_add_nat_mul_two_pi _ (c.freq sym * t / c.sampleRate))
  rw [mul_assoc (2 * π), hDiv]
  field_simp
  ring

theorem quarter_angle {k R j : Nat} (hR : 0 < R) (h : 4 * k = j * R) : 2 * π * k / R = j * (π / 2) := by
  have hRr : (R : ℝ) ≠ 0 := by exact_mod_cast hR.ne'
  have hCast : (4 : ℝ) * k = j * R := by exact_mod_cast h
  rw [div_eq_iff hRr]
  linear_combination π / 2 * hCast

section
variable (c : Config) (sym : Bool) (t : Nat)

/-- Where the argument is `j` quarter cycles, the reduced one is `j mod 4` of them. -/
theorem four_mul_phase_eq {j : Nat} (h : 4 * (c.freq sym * t) = j * c.sampleRate) :
    4 * (c.freq sym * t % c.sampleRate) = j % 4 * c.sampleRate := by
  rw [← Nat.mul_mod_mul_left, h, Nat.mul_mod_mul_right]

variable (hR : 0 < c.sampleRate)
include hR

theorem phase_le : c.freq sym * t % c.sampleRate ≤ c.sampleRate := (Nat.mod_lt _ hR).le

theorem romWord_zero {m : Nat} (h : 2 * c.freq sym * t = m * c.sampleRate) : romWord c sym t = 0x00000000#32 := by
  have hPhase := four_mul_phase_eq c sym t (j := 2 * m) (by linear_combination 2 * h)
  rw [show 2 * m % 4 = 2 * (m % 2) from Nat.mul_mod_mul_left 2 m 2] at hPhase
  refine nearestSine_eq_of_value hR (phase_le c sym t hR) (by decide) ?_ ?_
  · have hOdd : m % 2 * c.sampleRate ≤ 1 * c.sampleRate := Nat.mul_le_mul_right _ (by omega)
    rw [mul_assoc] at hPhase
    omega
  · rw [quarter_angle hR hPhase, f32Value_zero, ← sin_nat_mul_pi (m % 2)]
    congr 1
    push_cast
    ring

theorem romWord_peak {m : Nat} (h : 4 * c.freq sym * t = (4 * m + 1) * c.sampleRate) :
    romWord c sym t = 0x3F800000#32 := by
  have hPhase := four_mul_phase_eq c sym t (mul_assoc 4 _ _ ▸ h)
  rw [Nat.mul_add_mod] at hPhase
  refine nearestSine_eq_of_value hR (phase_le c sym t hR) (by decide) (by omega) ?_
  rw [quarter_angle hR hPhase, f32Value_one]
  norm_num

theorem romWord_trough {m : Nat} (h : 4 * c.freq sym * t = (4 * m + 3) * c.sampleRate) :
    romWord c sym t = 0xBF800000#32 := by
  have hPhase := four_mul_phase_eq c sym t (mul_assoc 4 _ _ ▸ h)
  rw [Nat.mul_add_mod] at hPhase
  refine nearestSine_eq_of_neg_value (u := 0x3F800000) hR (phase_le c sym t hR) (by decide) (by omega) ?_
  rw [quarter_angle hR hPhase, f32Value_one,
    show ((3 % 4 : Nat) : ℝ) * (π / 2) = π / 2 + π by norm_num; ring, sin_add_pi, sin_pi_div_two]

end

/-- Settles O36: the ROM word is the rounded sine of the reduced argument, and by Niven's theorem there are no ties. -/
theorem romIsTheRoundedSine : Obligations.RomIsTheRoundedSine := fun c sym t hR => by
  have hk := phase_le c sym t hR
  refine ⟨isFiniteF32_of_abs_le_one (abs_nearestSine_le_one hR hk), fun v _ => ?_⟩
  rw [toneSine_eq c sym t hR]
  exact ⟨nearestSine_nearest hR hk v, fun hTie hOther => absurd (nearestSine_no_tie hR hk hTie) hOther⟩

/-- Settles O37: the range and the error are those of the rounding, and the exact words are at whole quarter cycles. -/
theorem romRangeAndExactWords : Obligations.RomRangeAndExactWords := fun c sym t hR => by
  have hk := phase_le c sym t hR
  rw [toneSine_eq c sym t hR]
  exact ⟨abs_nearestSine_le_one hR hk, nearestSine_error_le hR hk, fun _ => romWord_zero c sym t hR,
    fun _ => romWord_peak c sym t hR, fun _ => romWord_trough c sym t hR⟩

end Sys2Proof.Machine
end

section
/-! SUPPORT. CAPTURE (R152): the words of channel 0, and one equation for each case of `capture`. -/

namespace Sys2Proof.Machine

/-- Within an input of at least 2 NBUF words no captured word is the default of `channel0`. -/
theorem channel0_getElem? {nbuf : Nat} {input : List Word} (hLen : 2 * nbuf ≤ input.length) {i : Nat} (hi : i < nbuf) :
    (channel0 nbuf input)[i]? = input[2 * i]? := by
  have hIn : 2 * i < input.length := by omega
  simp [channel0, hi, hIn]

section
variable {s : State} (input : List Word)

theorem capture_of_room (hEn : s.captureEn = true) (hRoom : s.capq.length < s.cfg.capqDepth) :
    capture input s = { s with capq := s.capq ++ [channel0 s.cfg.nbuf input] } := by
  rw [capture, if_pos hEn, if_pos hRoom, push_eq]

theorem capture_of_full (hEn : s.captureEn = true) (hFull : s.cfg.capqDepth ≤ s.capq.length) :
    capture input s = { s with capDrop := s.capDrop + 1 } := by
  rw [capture, if_pos hEn, if_neg hFull.not_gt]

theorem capture_of_disabled (hEn : s.captureEn = false) : capture input s = s := by
  rw [capture, if_neg (ne_true_of_eq_false hEn)]

end

/-- Settles O39: an equation of `capture` for each case, and the captured words by `channel0_getElem?`. -/
theorem captureCopiesChannelZero : Obligations.CaptureCopiesChannelZero := fun s input hLen =>
  ⟨fun hEn hRoom => ⟨channel0 s.cfg.nbuf input, capture_of_room input hEn hRoom, channel0_length _ _,
      fun _ hi => channel0_getElem? hLen hi⟩,
    capture_of_full input, capture_of_disabled input⟩

end Sys2Proof.Machine
end

section
/-! SUPPORT. The serializer bit by bit (R180), and one equation for each way a framer tick can go (R171-R175). -/

namespace Sys2Proof.Machine

/-! ## The bits of a frame -/

theorem byteBits_getElem? (b : Byte) {j : Nat} (hj : j < 8) : (byteBits b)[j]? = some (b.getLsbD (7 - j)) := by
  interval_cases j <;> rfl

/-- Past the last bit both sides are `none`, so no bound on `j` is needed. -/
theorem bitbuf_getElem? (frame : List Byte) (j : Nat) :
    (bitbuf frame)[j]? = (frame[j / 8]?).map fun b => b.getLsbD (7 - j % 8) := by
  induction frame generalizing j with
  | nil => rfl
  | cons b frame ih =>
    rw [bitbuf_cons]
    rcases Nat.lt_or_ge j 8 with hFirst | hLater
    · rw [List.getElem?_append_left hFirst, byteBits_getElem? b hFirst, Nat.div_eq_of_lt hFirst,
        Nat.mod_eq_of_lt hFirst]
      rfl
    · obtain ⟨i, rfl⟩ := Nat.exists_eq_add_of_le' hLater
      rw [List.getElem?_append_right hLater, byteBits_length, Nat.add_sub_cancel, ih, Nat.add_div_right i (by decide),
        Nat.add_mod_right, List.getElem?_cons_succ]

/-- Settles O42: eight bits a byte, and the bits by induction on the frame. -/
theorem bitbufIsMsbFirst : Obligations.BitbufIsMsbFirst := fun frame =>
  ⟨length_bitbuf frame, fun j _ => bitbuf_getElem? frame j⟩

/-! ## The symbol and the transition in each state of the framer -/

section
variable {s : State} {b : Bool}

theorem framerSymbol_of_idle (hState : s.txState = .idle) : framerSymbol s = s.lastSym := by
  rw [framerSymbol, hState]

theorem framerSymbol_of_sendingPreamble (hState : s.txState = .sendingPreamble)
    (hBit : s.cfg.preamble[s.txCounter]? = some b) : framerSymbol s = b := by
  simp [framerSymbol, hState, hBit]

theorem framerSymbol_of_sendingPacket (hState : s.txState = .sendingPacket)
    (hBit : (bitbuf s.txFrame)[s.txCounter]? = some b) : framerSymbol s = b := by
  simp [framerSymbol, hState, hBit]

/-- In Idle the published symbol is the last symbol, which is therefore kept. -/
theorem framerTick_of_idle_of_empty (hState : s.txState = .idle) (hQueue : s.txq = []) :
    framerTick s = { s with mbox := some s.lastSym } := by
  rw [framerTick, framerSymbol_of_idle hState]
  simp only [framerAdvance, hState, hQueue]

theorem framerTick_of_idle_of_cons {frame : List Byte} {rest : List (List Byte)} (hState : s.txState = .idle)
    (hQueue : s.txq = frame :: rest) :
    framerTick s = { s with
      txq := rest, txFrame := frame, txCounter := 0, txState := .sendingPreamble, mbox := some s.lastSym } := by
  rw [framerTick, framerSymbol_of_idle hState]
  simp only [framerAdvance, hState, hQueue]

theorem framerTick_of_preamble_continues (hState : s.txState = .sendingPreamble)
    (hBit : s.cfg.preamble[s.txCounter]? = some b) (hMore : s.txCounter + 1 ≠ s.cfg.preambleLen) :
    framerTick s = { s with txCounter := s.txCounter + 1, lastSym := b, mbox := some b } := by
  rw [framerTick, framerSymbol_of_sendingPreamble hState hBit]
  simp only [framerAdvance, hState, if_neg hMore]

theorem framerTick_of_preamble_ends (hState : s.txState = .sendingPreamble)
    (hBit : s.cfg.preamble[s.txCounter]? = some b) (hLast : s.txCounter + 1 = s.cfg.preambleLen) :
    framerTick s = { s with txCounter := 0, txState := .sendingPacket, lastSym := b, mbox := some b } := by
  rw [framerTick, framerSymbol_of_sendingPreamble hState hBit]
  simp only [framerAdvance, hState, if_pos hLast]

theorem framerTick_of_packet_continues (hState : s.txState = .sendingPacket)
    (hBit : (bitbuf s.txFrame)[s.txCounter]? = some b) (hMore : s.txCounter + 1 ≠ 8 * s.txFrame.length) :
    framerTick s = { s with txCounter := s.txCounter + 1, lastSym := b, mbox := some b } := by
  rw [framerTick, framerSymbol_of_sendingPacket hState hBit]
  simp only [framerAdvance, hState, if_neg hMore]

theorem framerTick_of_packet_ends (hState : s.txState = .sendingPacket)
    (hBit : (bitbuf s.txFrame)[s.txCounter]? = some b) (hLast : s.txCounter + 1 = 8 * s.txFrame.length) :
    framerTick s = { s with
      txCounter := 0, txFrame := [], txState := .idle, txDone := s.txDone + 1, lastSym := b, mbox := some b } := by
  rw [framerTick, framerSymbol_of_sendingPacket hState hBit]
  simp only [framerAdvance, hState, if_pos hLast]

end

/-- Settles O43: an equation of `framerTick` for each of the six ways of `framerAdvance_cases`. -/
theorem framerTickOutcomes : Obligations.FramerTickOutcomes := fun _ =>
  ⟨framerTick_of_idle_of_empty, fun _ _ => framerTick_of_idle_of_cons,
    fun _ hState hBit => ⟨framerTick_of_preamble_continues hState hBit, framerTick_of_preamble_ends hState hBit⟩,
    fun _ hState hBit => ⟨framerTick_of_packet_continues hState hBit, framerTick_of_packet_ends hState hBit⟩⟩

end Sys2Proof.Machine
end

section
/-! SUPPORT. Decode on any bytes (R194, R195), and on an encoded frame (R193). -/

namespace Sys2Proof.Machine

/-! ## The verdicts of decode -/

theorem decodeFrame_of_fold_ne {b : List Byte} (c : Config) (h : xorfold b ≠ 0x00#8) :
    decodeFrame c b = .checksumMismatch := if_pos h

/-- Past the fold, each failed check has the one verdict. -/
theorem decodeFrame_of_malformed {c : Config} {b : List Byte} (hFold : xorfold b = 0x00#8)
    (h : b.length < 5 ∨ b.length ≠ 5 + (b.getD 3 0x00#8).toNat
      ∨ textValid c ((b.drop 4).take (b.getD 3 0x00#8).toNat) = false) :
    decodeFrame c b = .deserializeError := by
  unfold decodeFrame
  rw [if_neg (not_not.mpr hFold)]
  split
  · rename_i dest src id len rest
    simp only [List.length_cons, List.getD_cons_succ, List.getD_cons_zero, List.drop_succ_cons, List.drop_zero] at h
    split
    · rfl
    · obtain hShort | hLength | hText := h
      · omega
      · omega
      · rw [hText]; rfl
  · rfl

theorem decodeFrame_of_wellFormed {c : Config} {dest src id len checksum : Byte} {payload : List Byte}
    (hFold : xorfold (dest :: src :: id :: len :: (payload ++ [checksum])) = 0x00#8)
    (hLen : payload.length = len.toNat) (hText : textValid c payload = true) :
    decodeFrame c (dest :: src :: id :: len :: (payload ++ [checksum]))
      = .packet ⟨dest, src, id, len, payload, checksum⟩ := by
  rw [decodeFrame, if_neg (not_not.mpr hFold)]
  simp [← hLen, hText, Nat.add_comm]

/-- A buffer of the declared length is its header, its payload and its checksum, and nothing else. -/
theorem eq_header_payload_checksum {b : List Byte} {dest src id len checksum : Byte}
    (hLength : b.length = 5 + len.toNat) (hDest : b[0]? = some dest) (hSrc : b[1]? = some src) (hId : b[2]? = some id)
    (hLen : b[3]? = some len) (hChecksum : b[4 + len.toNat]? = some checksum) :
    b = dest :: src :: id :: len :: ((b.drop 4).take len.toNat ++ [checksum]) := by
  match b with
  | a0 :: a1 :: a2 :: a3 :: rest =>
    simp only [List.length_cons, Nat.add_comm 4, List.getElem?_cons_succ, List.getElem?_cons_zero,
      Option.some.injEq] at *
    subst hDest hSrc hId hLen
    rw [List.drop_succ_cons, List.drop_succ_cons, List.drop_succ_cons, List.drop_succ_cons, List.drop_zero]
    rw [← Option.toList_some, ← hChecksum, ← List.take_add_one, List.take_of_length_le (by omega)]
  | [] | [_] | [_, _] | [_, _, _] => cases hLen

@[simp] theorem xorfold_encodeFrame (dest src id : Byte) (payload : List Byte) :
    xorfold (encodeFrame dest src id payload) = 0x00#8 := by
  rw [encodeFrame, xorfold_append, xorfold_cons, xorfold_nil, BitVec.xor_zero, BitVec.xor_self]

/-- Settles O45: the fold of the body and of the checksum cancel, and an encoded frame is of the form decode accepts. -/
theorem encodedFramesDecodeBack : Obligations.EncodedFramesDecodeBack := fun c dest src id payload => by
  refine ⟨_, rfl, xorfold_encodeFrame .., fun hShort hText => ?_⟩
  refine decodeFrame_of_wellFormed (payload := payload) (xorfold_encodeFrame dest src id payload) ?_ hText
  rw [BitVec.toNat_ofNat, Nat.mod_eq_of_lt (by omega)]

/-- Settles O46: the first two verdicts are those of the failed checks; past them the buffer is header, payload and
checksum, and decode accepts it. -/
theorem decodeVerdicts : Obligations.DecodeVerdicts := fun c b => by
  refine ⟨decodeFrame_of_fold_ne c, decodeFrame_of_malformed, ?_⟩
  intro hFold hLength hText dest src id checksum hDest hSrc hId hChecksum
  have hLen : b[3]? = some (b.getD 3 0x00#8) := by
    rw [List.getD_eq_getElem?_getD, List.getElem?_eq_getElem (by omega), Option.getD_some]
  have hParts := eq_header_payload_checksum hLength hDest hSrc hId hLen hChecksum
  rw [BitVec.ofNat_toNat, BitVec.setWidth_eq]
  conv_lhs => rw [hParts]
  refine decodeFrame_of_wellFormed (hParts ▸ hFold) ?_ hText
  rw [List.length_take, List.length_drop]
  omega

end Sys2Proof.Machine
end

section
/-! SUPPORT. The words of TX_SEND (R104, R107), and what they do (R200). -/

namespace Sys2Proof.Machine

/-! ## The words of TX_SEND (R104, R107) -/

/-- The sub-format of TX_SEND (R104): opcode, operand, bits marked 0. -/
theorem eq_opcode_dest_low_iff (w : Word) (opc : BitVec 8) (dest : Byte) (low : BitVec 16) :
    w = opc ++ dest ++ low ↔ w.extractLsb' 24 8 = opc ∧ destField w = dest ∧ w.extractLsb' 0 16 = low := by
  have hLow := extractLsb'_eq_append_iff w 0 (opc ++ dest) low
  have hDest := extractLsb'_eq_append_iff w 16 opc dest
  rw [BitVec.extractLsb'_eq_self] at hLow
  exact hLow.trans (by rw [hDest, and_assoc]; rfl)

theorem and_eq_txSend_row_iff (w : Word) :
    w &&& 0xFF00FFFF#32 = 0x02000000#32 ↔ w.extractLsb' 24 8 = 0x02#8 ∧ w.extractLsb' 0 16 = 0#16 := by
  have hRow := selects_iff_opcode_and_field (r := ⟨"TX_SEND", 0xFF00FFFF#32, 0x02000000#32⟩) (opc := 0x02#8)
    (lo := 0) (len := 16) (by decide) rfl rfl w
  rwa [CmdRow.selects, beq_iff_eq, BitVec.toNat_inj] at hRow

theorem decodeCommand_eq_txSend_iff (w : Word) (dest : Byte) :
    decodeCommand w = some (.txSend dest) ↔ w &&& 0xFF00FFFF#32 = 0x02000000#32 ∧ destField w = dest := by
  constructor
  · intro h
    unfold decodeCommand at h
    split_ifs at h
    all_goals cases h
    exact ⟨‹_›, rfl⟩
  · rintro ⟨hRow, rfl⟩
    unfold decodeCommand
    rw [if_neg (and_ne_of_and_eq hRow (by decide)), if_neg (and_ne_of_and_eq hRow (by decide)), if_pos hRow]

theorem decodeCommand_eq_txSend_iff_word (w : Word) (dest : Byte) :
    decodeCommand w = some (.txSend dest) ↔ w = 0x02#8 ++ dest ++ 0x0000#16 := by
  rw [decodeCommand_eq_txSend_iff, and_eq_txSend_row_iff, eq_opcode_dest_low_iff, and_assoc, and_comm (b := _ = dest)]

theorem decodeCommand_txSend_low_ne_zero (dest : Byte) {low : BitVec 16} (h : low ≠ 0#16) :
    decodeCommand (0x02#8 ++ dest ++ low) = none := by
  obtain ⟨w, hw⟩ : ∃ w : Word, w = 0x02#8 ++ dest ++ low := ⟨_, rfl⟩
  obtain ⟨hOpc, -, hLow⟩ := (eq_opcode_dest_low_iff w 0x02#8 dest low).mp hw
  rw [← hw, decodeCommand_eq_none_iff, hOpc, hLow]
  exact .inr (.inl ⟨rfl, h⟩)

/-! ## What TX_SEND does -/

theorem exec_txSend_of_full {s : State} (dest : Byte) (h : s.txq.length = s.cfg.txqDepth) :
    exec (.txSend dest) s = .next { s with err := .queueFull } := by
  obtain ⟨-, hExec⟩ | ⟨hRoom, -⟩ := execTxSend_cases dest s
  · exact hExec
  · exact absurd h hRoom

theorem exec_txSend_of_room {s : State} (dest : Byte) (h : s.txq.length ≠ s.cfg.txqDepth) :
    exec (.txSend dest) s =
      .next { s with
        txq := s.txq ++ [encodeFrame dest s.localId s.frameId s.stage], frameId := s.frameId + 1, stage := [],
        err := .ok } := by
  obtain ⟨hFull, -⟩ | ⟨-, hExec⟩ := execTxSend_cases dest s
  · exact absurd hFull h
  · exact hExec

/-- Settles O11: the words are those the row of R107 selects, the two outcomes are those of `execTxSend_cases`, and the
checksum is the last byte of the encoded frame. -/
theorem txSendOutcomes : Obligations.TxSendOutcomes :=
  ⟨decodeCommand_eq_txSend_iff_word,
    fun dest _ s hLow => exec_wrCmd_of_illegal (decodeCommand_txSend_low_ne_zero dest hLow) s,
    fun _ dest => ⟨exec_txSend_of_full dest, fun hRoom => ⟨_, xorfold_encodeFrame .., exec_txSend_of_room dest hRoom⟩⟩⟩

end Sys2Proof.Machine
end

section
/-! SUPPORT. The default text check reads the table of R196 byte by byte; here it is read by whole characters. -/

namespace Sys2Proof.Machine

open Sys2Proof.Claims

/-- A byte within a range of the table (R196). -/
def InByteRange (r : Nat × Nat) (b : Byte) : Prop := r.1 ≤ b.toNat ∧ b.toNat ≤ r.2

@[simp] theorem utf8From_nil (pending : List (Nat × Nat)) : utf8From pending [] = true ↔ pending = [] := by
  cases pending <;> simp [utf8From]

theorem utf8From_start_cons (b : Byte) (rest : List Byte) :
    utf8From [] (b :: rest) = true ↔ ∃ ranges, utf8Follow b = some ranges ∧ utf8From ranges rest = true := by
  rw [utf8From]
  split <;> simp [*]

theorem utf8From_pending_cons (r : Nat × Nat) (pending : List (Nat × Nat)) (b : Byte) (rest : List Byte) :
    utf8From (r :: pending) (b :: rest) = true ↔ InByteRange r b ∧ utf8From pending rest = true := by
  simp [utf8From, InByteRange]

/-- The pending ranges take the bytes that complete the character; what follows splits on its own. -/
theorem utf8From_iff (pending : List (Nat × Nat)) (p : List Byte) :
    utf8From pending p = true ↔
      ∃ tail rest, p = tail ++ rest ∧ List.Forall₂ InByteRange pending tail ∧ utf8From [] rest = true := by
  induction pending generalizing p with
  | nil => simp
  | cons r pending ih =>
    cases p with
    | nil => simp
    | cons b p =>
      rw [utf8From_pending_cons, ih]
      constructor
      · rintro ⟨hByte, tail, rest, rfl, hTail, hRest⟩
        exact ⟨b :: tail, rest, rfl, .cons hByte hTail, hRest⟩
      · rintro ⟨_, rest, hSplit, hTail, hRest⟩
        cases hTail with
        | cons hByte hTail =>
          cases hSplit
          exact ⟨hByte, _, rest, rfl, hTail, hRest⟩

/-! ## The table (R196) -/

/-- `utf8Follow` in the rows of the table: it answers for E1-EC and for EE-EF, two rows, by one branch. -/
theorem utf8Follow_eq_some_iff (b : Byte) (ranges : List (Nat × Nat)) :
    utf8Follow b = some ranges ↔
      (b.toNat ≤ 0x7F ∧ ranges = [])
      ∨ (0xC2 ≤ b.toNat ∧ b.toNat ≤ 0xDF ∧ ranges = [(0x80, 0xBF)])
      ∨ (b.toNat = 0xE0 ∧ ranges = [(0xA0, 0xBF), (0x80, 0xBF)])
      ∨ (0xE1 ≤ b.toNat ∧ b.toNat ≤ 0xEC ∧ ranges = [(0x80, 0xBF), (0x80, 0xBF)])
      ∨ (b.toNat = 0xED ∧ ranges = [(0x80, 0x9F), (0x80, 0xBF)])
      ∨ (0xEE ≤ b.toNat ∧ b.toNat ≤ 0xEF ∧ ranges = [(0x80, 0xBF), (0x80, 0xBF)])
      ∨ (b.toNat = 0xF0 ∧ ranges = [(0x90, 0xBF), (0x80, 0xBF), (0x80, 0xBF)])
      ∨ (0xF1 ≤ b.toNat ∧ b.toNat ≤ 0xF3 ∧ ranges = [(0x80, 0xBF), (0x80, 0xBF), (0x80, 0xBF)])
      ∨ (b.toNat = 0xF4 ∧ ranges = [(0x80, 0x8F), (0x80, 0xBF), (0x80, 0xBF)]) := by
  unfold utf8Follow
  dsimp only
  split_ifs <;> grind

theorem not_isUtf8Form_nil : ¬IsUtf8Form [] := by
  simp [IsUtf8Form]

/-- The rows of R196 are, one for one, those of `utf8Follow`, each with the bytes in its ranges. -/
theorem isUtf8Form_cons_iff (b : Byte) (tail : List Byte) :
    IsUtf8Form (b :: tail) ↔ ∃ ranges, utf8Follow b = some ranges ∧ List.Forall₂ InByteRange ranges tail := by
  simp only [utf8Follow_eq_some_iff, or_and_right, exists_or, and_assoc, exists_and_left, exists_eq_left]
  unfold IsUtf8Form
  dsimp only
  refine or_congr ?_ (or_congr ?_ (or_congr ?_ (or_congr ?_ (or_congr ?_ (or_congr ?_ (or_congr ?_ (or_congr ?_ ?_)))))))
  all_goals
    simp only [List.forall₂_cons_left_iff, List.forall₂_nil_left_iff, InByteRange, List.cons.injEq]
    grind

/-! ## Splitting into characters -/

/-- A text splits when it is empty, or starts with a character and goes on with a text that splits. -/
theorem utf8From_start_iff (p : List Byte) :
    utf8From [] p = true ↔ p = [] ∨ ∃ form rest, p = form ++ rest ∧ IsUtf8Form form ∧ utf8From [] rest = true := by
  cases p with
  | nil => simp
  | cons b p =>
    simp only [utf8From_start_cons, utf8From_iff (p := p), reduceCtorEq, false_or]
    constructor
    · rintro ⟨ranges, hFollow, tail, rest, rfl, hTail, hRest⟩
      exact ⟨b :: tail, rest, rfl, (isUtf8Form_cons_iff b tail).mpr ⟨ranges, hFollow, hTail⟩, hRest⟩
    · rintro ⟨_ | ⟨_, tail⟩, rest, hSplit, hForm, hRest⟩
      · exact absurd hForm not_isUtf8Form_nil
      · cases hSplit
        obtain ⟨ranges, hFollow, hTail⟩ := (isUtf8Form_cons_iff b tail).mp hForm
        exact ⟨ranges, hFollow, tail, rest, rfl, hTail, hRest⟩

theorem exists_forms_of_utf8From (p : List Byte) (h : utf8From [] p = true) :
    ∃ forms : List (List Byte), (∀ f ∈ forms, IsUtf8Form f) ∧ forms.flatten = p := by
  obtain rfl | ⟨form, rest, rfl, hForm, hRest⟩ := (utf8From_start_iff p).mp h
  · exact ⟨[], by simp⟩
  · have hShorter : rest.length < (form ++ rest).length := by
      have hPos : form ≠ [] := fun hNil => not_isUtf8Form_nil (hNil ▸ hForm)
      simpa using List.length_pos_iff.mpr hPos
    obtain ⟨forms, hForms, rfl⟩ := exists_forms_of_utf8From rest hRest
    exact ⟨form :: forms, List.forall_mem_cons.mpr ⟨hForm, hForms⟩, rfl⟩
termination_by p.length

theorem utf8From_flatten (forms : List (List Byte)) (h : ∀ f ∈ forms, IsUtf8Form f) :
    utf8From [] forms.flatten = true := by
  induction forms with
  | nil => rfl
  | cons form forms ih =>
    obtain ⟨hForm, hForms⟩ := List.forall_mem_cons.mp h
    exact (utf8From_start_iff _).mpr (.inr ⟨form, _, rfl, hForm, ih hForms⟩)

/-- Settles O47: a valid text is a character and a valid text, so by induction a list of characters. -/
theorem textIsWellFormedUtf8 : Obligations.TextIsWellFormedUtf8 := fun c p hRule => by
  have hValid : textValid c p = utf8From [] p := by
    rw [textValid, hRule, utf8Valid]
  rw [hValid]
  exact ⟨exists_forms_of_utf8From p, fun ⟨forms, hForms, hFlatten⟩ => hFlatten ▸ utf8From_flatten forms hForms⟩

end Sys2Proof.Machine
end

section
/-! SUPPORT. The fold of a frame with flipped bits (R197): the fold is additive, and each of its bits is a
column's parity. -/

namespace Sys2Proof.Machine

open Sys2Proof.Claims

theorem xorfold_flipBits {frame flips : List Byte} (h : frame.length = flips.length) :
    xorfold (flipBits frame flips) = xorfold frame ^^^ xorfold flips := by
  induction frame generalizing flips with
  | nil => simp [List.length_eq_zero_iff.mp h.symm, flipBits]
  | cons a frame ih =>
    cases flips with
    | nil => cases h
    | cons b flips =>
      have hTail := ih (Nat.succ.inj h)
      rw [flipBits] at hTail ⊢
      rw [List.zipWith_cons_cons, xorfold_cons, hTail, xorfold_cons, xorfold_cons]
      ac_rfl

theorem xorfold_replicate_zero (n : Nat) : xorfold (List.replicate n 0x00#8) = 0x00#8 := by
  induction n with
  | zero => rfl
  | succ n ih => simp [List.replicate_succ, ih]

theorem xorfold_set_replicate_zero {n j : Nat} (hj : j < n) (mask : Byte) :
    xorfold ((List.replicate n 0x00#8).set j mask) = mask := by
  rw [List.set_eq_take_append_cons_drop, if_pos (by simpa using hj)]
  simp [xorfold_replicate_zero]

/-- Bit `i` of the fold is the parity of column `i`. -/
theorem getLsbD_xorfold (s : List Byte) (i : Nat) :
    (xorfold s).getLsbD i = decide (s.countP (fun b => b.getLsbD i) % 2 = 1) := by
  induction s with
  | nil => simp
  | cons b s ih =>
    rw [xorfold_cons, BitVec.getLsbD_xor, ih, List.countP_cons]
    cases b.getLsbD i <;> grind

theorem countP_xor_mod_two {α : Type} (p q : α → Bool) (l : List α) :
    l.countP (fun x => p x ^^ q x) % 2 = (l.countP p + l.countP q) % 2 := by
  induction l with
  | nil => rfl
  | cons x l ih =>
    simp only [List.countP_cons]
    cases p x <;> cases q x <;> grind

theorem weight_xor_mod_two (a b : Byte) : weight (a ^^^ b) % 2 = (weight a + weight b) % 2 := by
  simp only [weight, BitVec.getLsbD_xor, countP_xor_mod_two]

/-- The fold has as many 1 bits as the whole list, up to an even number. -/
theorem weight_xorfold_mod_two (s : List Byte) : weight (xorfold s) % 2 = (s.map weight).sum % 2 := by
  induction s with
  | nil => rfl
  | cons b s ih => rw [xorfold_cons, weight_xor_mod_two, List.map_cons, List.sum_cons, Nat.add_mod, ih, ← Nat.add_mod]

theorem xorfold_ne_zero_of_odd_weight {s : List Byte} (h : (s.map weight).sum % 2 = 1) : xorfold s ≠ 0x00#8 := by
  intro hZero
  rw [← weight_xorfold_mod_two, hZero] at h
  exact absurd h (by decide)

theorem xorfold_eq_zero_of_even_columns {s : List Byte}
    (h : ∀ i, i < 8 → s.countP (fun b => b.getLsbD i) % 2 = 0) : xorfold s = 0x00#8 :=
  BitVec.eq_of_getLsbD_eq fun i hi => by simp [getLsbD_xorfold, h i hi]

/-- Settles O48: the fold of the flipped frame is that of the frame moved by that of the flips. -/
theorem checksumFindsOddFlips : Obligations.ChecksumFindsOddFlips := fun frame flips hLen => by
  rw [xorfold_flipBits hLen]
  refine ⟨?_, ?_, ?_⟩
  · rintro j i hj - rfl
    rw [xorfold_set_replicate_zero hj]
  · intro c hFold hOdd
    refine if_pos ?_
    rw [xorfold_flipBits hLen, hFold, BitVec.zero_xor]
    exact xorfold_ne_zero_of_odd_weight hOdd
  · intro hEven
    rw [xorfold_eq_zero_of_even_columns hEven, BitVec.xor_zero]

end Sys2Proof.Machine
end

section
/-! SUPPORT. FRAME_ID (R201): which of the agents' steps and of the host's accesses can move it. -/

namespace Sys2Proof.Machine

/-! ## What an RX step leaves alone -/

/-- An RX step writes the capture FIFO, the demodulator's window, and what a bit fed to the synchronizer writes. -/
theorem rxStep_frame (s : State) :
    ∃ t : State, rxStep s = { s with
      capq := t.capq, win := t.win, draws := t.draws, rxState := t.rxState, k := t.k, rxBuf := t.rxBuf, rxCur := t.rxCur,
      rxBitcnt := t.rxBitcnt, rxq := t.rxq, cksErr := t.cksErr, deserErr := t.deserErr, rxqDrop := t.rxqDrop,
      rxOk := t.rxOk, rxLastEvt := t.rxLastEvt } := by
  refine ⟨rxStep s, ?_⟩
  obtain ⟨-, hStep⟩ | ⟨cap, rest, -, -, hStep⟩ | ⟨cap, rest, b, -, -, hStep⟩ := rxStep_cases s
  · rw [hStep]
  · obtain ⟨w, d, hDemod⟩ := demodulate_frame cap { s with capq := rest }
    rw [hStep, hDemod]
  · obtain ⟨w, d, hDemod⟩ := demodulate_frame cap { s with capq := rest }
    obtain ⟨t, hSync⟩ := syncBit_frame b (demodulate cap { s with capq := rest }).2
    rw [hStep, hSync, hDemod]

/-! ## FRAME_ID -/

@[simp] theorem takeEvent_frameId (s : State) : (takeEvent s).frameId = s.frameId := by
  obtain ⟨_, _, h⟩ := takeEvent_frame s
  rw [h]

@[simp] theorem takeEvent_txq (s : State) : (takeEvent s).txq = s.txq := by
  obtain ⟨_, _, h⟩ := takeEvent_frame s
  rw [h]

@[simp] theorem capture_frameId (input : List Word) (s : State) : (capture input s).frameId = s.frameId := by
  obtain ⟨-, -, h⟩ | ⟨-, -, h⟩ | ⟨-, h⟩ := capture_cases input s <;> rw [h]

@[simp] theorem adopt_frameId (s : State) : (adopt s).frameId = s.frameId := by
  rw [adopt_eq]

@[simp] theorem synth_frameId (s : State) : (synth s).frameId = s.frameId := rfl

@[simp] theorem framerTick_frameId (s : State) : (framerTick s).frameId = s.frameId := by
  obtain ⟨_, h⟩ := framerTick_frame s
  rw [h]

@[simp] theorem completeInput_frameId (s : State) (input : List Word) :
    (s.completeInput input).2.frameId = s.frameId := by
  obtain ⟨-, -, _, h⟩ := completeInput_spec s input
  rw [h]

@[simp] theorem audioTurn_frameId (input : List Word) (s : State) : (audioTurn input s).frameId = s.frameId := by
  unfold audioTurn
  split
  · simp [audioStep]
  · rfl

@[simp] theorem syncBit_frameId (b : Bool) (s : State) : (syncBit b s).frameId = s.frameId := by
  obtain ⟨_, h⟩ := syncBit_frame b s
  rw [h]

@[simp] theorem rxStep_frameId (s : State) : (rxStep s).frameId = s.frameId := by
  obtain ⟨_, h⟩ := rxStep_frame s
  rw [h]

/-- No instruction but TX_SEND moves FRAME_ID, a command word being judged by what it decodes to. -/
theorem exec_frameId {i : Instr} {s t : State} (h : exec i s = .next t) (hSend : ∀ dest, i ≠ .txSend dest)
    (hCmd : ∀ v, i ≠ .wrCmd v) : t.frameId = s.frameId := by
  cases i with
  | txSend dest => exact absurd rfl (hSend dest)
  | wrCmd v => exact absurd rfl (hCmd v)
  | start => obtain ⟨-, hExec⟩ | ⟨-, -, d, hExec | hExec⟩ := execStart_cases s <;> cases hExec.symm.trans h <;> rfl
  | rxPop => obtain ⟨-, hExec⟩ | ⟨_, _, -, hExec⟩ := execRxPop_cases s <;> cases hExec.symm.trans h <;> rfl
  | toneRead sym index =>
    obtain ⟨-, hExec⟩ | ⟨-, hExec⟩ := execToneRead_cases sym index s <;> cases hExec.symm.trans h <;> rfl
  | rdRxdata => obtain ⟨-, hExec⟩ | ⟨-, hExec⟩ := execRdRxdata_cases s <;> cases hExec.symm.trans h <;> rfl
  | wrCtrl v => obtain ⟨-, -, hExec⟩ | ⟨-, hExec⟩ := execWrCtrl_cases v s <;> cases hExec.symm.trans h <;> rfl
  | wrTxdata v => obtain ⟨-, hExec⟩ | ⟨-, hExec⟩ := execWrTxdata_cases v s <;> cases hExec.symm.trans h <;> rfl
  | nop | txClear | clrStats | rdReg _ | wrLocalId _ | wrIgnored _ _ | rdReserved _ => cases h; rfl

theorem exec_txSend_frameId {dest : Byte} {s t : State} (h : exec (.txSend dest) s = .next t)
    (hMoved : t.frameId ≠ s.frameId) :
    t.frameId = s.frameId + 1 ∧ t.txq.length = s.txq.length + 1 ∧ t.err = .ok := by
  by_cases hRoom : s.txq.length = s.cfg.txqDepth
  · cases (exec_txSend_of_full dest hRoom).symm.trans h
    exact absurd rfl hMoved
  · cases (exec_txSend_of_room dest hRoom).symm.trans h
    exact ⟨rfl, List.length_append, rfl⟩

/-- A write of CMD that moves FRAME_ID is a TX_SEND. -/
theorem exec_wrCmd_frameId {v : Word} {s t : State} (h : exec (.wrCmd v) s = .next t)
    (hMoved : t.frameId ≠ s.frameId) :
    ∃ dest, decodeCommand v = some (.txSend dest) ∧ exec (.txSend dest) s = .next t := by
  obtain ⟨c, hDecode, hExec⟩ | ⟨-, hExec⟩ := execWrCmd_cases v s
  · replace hExec := hExec.symm.trans h
    cases c with
    | txSend dest => exact ⟨dest, hDecode, hExec⟩
    | nop | start | txClear | rxPop | clrStats | toneRead _ _ =>
      exact absurd (exec_frameId hExec (by simp [Command.toInstr]) (by simp [Command.toInstr])) hMoved
  · cases hExec.symm.trans h
    exact absurd rfl hMoved

/-- A bus transaction is no command of its own. -/
theorem decodeBus_ne_txSend (sel : BitVec 7) (data : Word) (dest : Byte) : decodeBus sel data ≠ .txSend dest := by
  unfold decodeBus
  dsimp only
  split_ifs <;> simp

/-- WR_CMD is the write of address 0x03. -/
theorem eq_of_decodeBus_eq_wrCmd {txn : HostTxn} {v : Word} (hAddr : txn.addr < 64)
    (h : decodeBus txn.selector txn.data = .wrCmd v) : txn.write = true ∧ txn.addr = 0x03 ∧ txn.data = v := by
  obtain ⟨write, addr, data⟩ := txn
  cases write
  · have hRead := (decodeBus_read (BitVec.ofNat 6 addr) data).symm.trans h
    split_ifs at hRead
  · have hWrite := (decodeBus_write (BitVec.ofNat 6 addr) data).symm.trans h
    split_ifs at hWrite with _ hCmd
    cases hWrite
    have hNat := congrArg BitVec.toNat hCmd
    rw [BitVec.toNat_ofNat, Nat.mod_eq_of_lt hAddr] at hNat
    exact ⟨rfl, hNat, rfl⟩

/-- Settles O27: of the agents the host alone writes FRAME_ID, and of its transactions a write of CMD with a
TX_SEND word. -/
theorem onlyTxSendMovesFrameId : Obligations.OnlyTxSendMovesFrameId := fun s t hStep => by
  obtain ⟨txn, hEvent, hAddr, hExec⟩ | ⟨input, hEvent, rfl⟩ | ⟨hEvent, rfl⟩ | ⟨b, hEvent, rfl⟩ | ⟨hEvent, rfl⟩ :=
    step_cases hStep
  · refine ⟨by simp [hEvent], fun _ hMoved => ?_⟩
    rw [← takeEvent_frameId s] at hMoved
    have hCmd : ∃ v, decodeBus txn.selector txn.data = .wrCmd v := by
      by_contra hOther
      exact hMoved (exec_frameId hExec (decodeBus_ne_txSend _ _) (not_exists.mp hOther))
    obtain ⟨v, hCmd⟩ := hCmd
    obtain ⟨hWrite, hAt, rfl⟩ := eq_of_decodeBus_eq_wrCmd hAddr hCmd
    rw [hCmd] at hExec
    obtain ⟨dest, hDecode, hSend⟩ := exec_wrCmd_frameId hExec hMoved
    have hResult := exec_txSend_frameId hSend hMoved
    rw [takeEvent_frameId, takeEvent_txq] at hResult
    exact ⟨txn, dest, hEvent, hWrite, hAt, hDecode, hResult⟩
  all_goals simp [hEvent]

end Sys2Proof.Machine
end

section
/-! SUPPORT. The frame's end (R230, R298): one equation of `judgeFrame` for each answer of decode. -/

namespace Sys2Proof.Machine

section
variable {s : State} {p : Packet}

theorem judgeFrame_of_checksumMismatch (hDecode : decodeFrame s.cfg s.rxBuf = .checksumMismatch) :
    judgeFrame s = { s with cksErr := s.cksErr + 1, rxLastEvt := .checksumMismatch } := by
  rw [judgeFrame, hDecode]

theorem judgeFrame_of_deserializeError (hDecode : decodeFrame s.cfg s.rxBuf = .deserializeError) :
    judgeFrame s = { s with deserErr := s.deserErr + 1, rxLastEvt := .deserializeError } := by
  rw [judgeFrame, hDecode]

theorem judgeFrame_of_packet_of_full (hDecode : decodeFrame s.cfg s.rxBuf = .packet p)
    (hFull : s.rxq.length = s.cfg.rxqDepth) :
    judgeFrame s = { s with rxqDrop := s.rxqDrop + 1, rxLastEvt := .rxqDrop } := by
  rw [judgeFrame, hDecode]
  exact if_pos ((full_iff ..).mpr hFull)

theorem judgeFrame_of_packet_of_room (hDecode : decodeFrame s.cfg s.rxBuf = .packet p)
    (hRoom : s.rxq.length ≠ s.cfg.rxqDepth) :
    judgeFrame s = { s with rxq := s.rxq ++ [p.payload], rxOk := s.rxOk + 1, rxLastEvt := .delivered } := by
  rw [judgeFrame, hDecode]
  exact if_neg (mt (full_iff ..).mp hRoom)

end

/-- A buffer that passes all three checks is a packet with the bytes between header and checksum as its payload. -/
theorem exists_packet_of_checks {c : Config} {b : List Byte} (hFold : xorfold b = 0x00#8)
    (hLength : b.length = 5 + (b.getD 3 0x00#8).toNat)
    (hText : textValid c ((b.drop 4).take (b.getD 3 0x00#8).toNat) = true) :
    ∃ p, decodeFrame c b = .packet p ∧ p.payload = (b.drop 4).take (b.getD 3 0x00#8).toNat := by
  obtain ⟨-, -, hPacket⟩ := decodeVerdicts c b
  have hByte (i : Nat) (hi : i < b.length) : b[i]? = some b[i] := List.getElem?_eq_getElem hi
  exact ⟨_, hPacket hFold hLength hText _ _ _ _ (hByte 0 (by omega)) (hByte 1 (by omega)) (hByte 2 (by omega))
    (hByte _ (by omega)), rfl⟩

/-- Settles O58: the tests of decode in their order, then the room in RXQ, each with its equation of `judgeFrame`. -/
theorem frameDoneOutcomes : Obligations.FrameDoneOutcomes := fun s hLength => by
  refine ⟨fun hFold => ?_, fun hFold hText => ?_, fun hFold hText hFull => ?_, fun hFold hText hRoom => ?_⟩
  · rw [frameDone, judgeFrame_of_checksumMismatch (decodeFrame_of_fold_ne _ hFold)]
  · rw [frameDone, judgeFrame_of_deserializeError (decodeFrame_of_malformed hFold (.inr (.inr hText)))]
  · obtain ⟨p, hDecode, -⟩ := exists_packet_of_checks hFold hLength hText
    rw [frameDone, judgeFrame_of_packet_of_full hDecode hFull]
  · obtain ⟨p, hDecode, hPayload⟩ := exists_packet_of_checks hFold hLength hText
    rw [frameDone, judgeFrame_of_packet_of_room hDecode hRoom, hPayload]

end Sys2Proof.Machine
end

section
/-! SUPPORT. The words of the commands (R107): a word is of a command exactly when it is the command's encoding. With it
what NOP (R256) and TX_CLEAR (R257) do. -/

namespace Sys2Proof.Machine

/-! ## Which words are a command's (R103, R107) -/

theorem encode_txSend (dest : Byte) : (Command.txSend dest).encode = 0x02#8 ++ dest ++ 0x0000#16 :=
  BitVec.append_assoc'.trans (BitVec.cast_eq ..)

theorem encode_toneRead (sym : Bool) (index : BitVec 16) :
    (Command.toneRead sym index).encode = 0x06#8 ++ 0#7 ++ BitVec.ofBool sym ++ index :=
  calc 0x06#8 ++ (0#7 ++ BitVec.ofBool sym ++ index)
      = 0x06#8 ++ (0#7 ++ BitVec.ofBool sym) ++ index := BitVec.append_assoc'.trans (BitVec.cast_eq ..)
    _ = 0x06#8 ++ 0#7 ++ BitVec.ofBool sym ++ index :=
      congrArg (· ++ index) (BitVec.append_assoc'.trans (BitVec.cast_eq ..))

/-- A command with an operand has its own lemma; the row of any other has the whole word as its mask. -/
theorem decodeCommand_eq_some_iff (w : Word) (c : Command) : decodeCommand w = some c ↔ w = c.encode := by
  cases c with
  | txSend dest => rw [decodeCommand_eq_txSend_iff_word, encode_txSend]
  | toneRead sym index => rw [decodeCommand_eq_toneRead_iff_word, encode_toneRead]
  | nop | start | txClear | rxPop | clrStats =>
    refine ⟨fun h => ?_, fun h => h ▸ rfl⟩
    unfold decodeCommand at h
    split_ifs at h
    all_goals cases h
    exact BitVec.and_allOnes.symm.trans ‹_›

/-! ## NOP and TX_CLEAR -/

theorem exec_nop (s : State) : exec .nop s = .next { s with err := .ok } := rfl

theorem exec_txClear (s : State) : exec .txClear s = .next { s with stage := [], err := .ok } := rfl

/-- Settles O9: NOP is its encoding, and 0x00000001 is no command's. -/
theorem nopClearsErr : Obligations.NopClearsErr :=
  ⟨fun w => decodeCommand_eq_some_iff w .nop, fun s => ⟨exec_nop s, exec_wrCmd_of_illegal (by decide) s⟩⟩

/-- Settles O12: TX_CLEAR is its encoding, and writes the stage and ERR alone. -/
theorem txClearEmptiesTheStage : Obligations.TxClearEmptiesTheStage :=
  ⟨fun w => decodeCommand_eq_some_iff w .txClear, exec_txClear⟩

end Sys2Proof.Machine
end

section
/-! SUPPORT. CLR_STATS (R258): the state after it, and what each address reads there. -/

namespace Sys2Proof.Machine

/-- The state after CLR_STATS: the six event counters 0, RX_LAST_EVT and ERR their code 0. -/
def State.clearStats (s : State) : State :=
  { s with
    err := .ok
    cksErr := 0#32
    deserErr := 0#32
    capDrop := 0#32
    rxqDrop := 0#32
    txDone := 0#32
    rxOk := 0#32
    rxLastEvt := .delivered }

theorem exec_clrStats (s : State) : exec .clrStats s = .next s.clearStats := rfl

/-- ERR, the six event counters and RX_LAST_EVT. -/
theorem regRead_clearStats_of_cleared (s : State) {a : BitVec 6}
    (h : a.toNat = 0x04 ∨ (0x14 ≤ a.toNat ∧ a.toNat ≤ 0x1A)) : regRead s.clearStats a = 0#32 := by
  unfold regRead
  generalize a.toNat = addr at h ⊢
  obtain rfl | ⟨hLow, hHigh⟩ := h
  · rfl
  · interval_cases addr <;> rfl

/-- No other register shows a cleared field. -/
theorem regRead_clearStats_of_kept (s : State) {a : BitVec 6}
    (h : ¬(a.toNat = 0x04 ∨ (0x14 ≤ a.toNat ∧ a.toNat ≤ 0x1A))) : regRead s.clearStats a = regRead s a := by
  unfold regRead
  split
  -- The rows of ERR (0x04) and of 0x14 to 0x1A, which `h` excludes.
  case h_5 | h_21 | h_22 | h_23 | h_24 | h_25 | h_26 | h_27 => omega
  all_goals rfl

/-- Settles O14: CLR_STATS is its encoding, and after it the registers read as `regRead_clearStats_of_cleared` and
`regRead_clearStats_of_kept` say. -/
theorem clrStatsZeroesTheCounters : Obligations.ClrStatsZeroesTheCounters :=
  ⟨fun w => decodeCommand_eq_some_iff w .clrStats, fun s => ⟨s.clearStats, exec_clrStats s,
    fun _ => regRead_clearStats_of_cleared s, fun _ => regRead_clearStats_of_kept s, rfl⟩⟩

end Sys2Proof.Machine
end

section
/-! SUPPORT. The host's two byte streams: a write of TXDATA (R253) and a read of RXDATA (R254). -/

namespace Sys2Proof.Machine

/-! ## TXDATA -/

theorem decodeBus_wrTxdata (v : Word) : decodeBus 0b1000111#7 v = .wrTxdata v := decodeBus_write 0x07#6 v

theorem byteField_eq_ofNat_mod (v : Word) : byteField v = BitVec.ofNat 8 (v.toNat % 256) :=
  BitVec.eq_of_toNat_eq (by simp [byteField])

theorem exec_wrTxdata_of_room {s : State} (v : Word) (h : s.stage.length ≠ 255) :
    exec (.wrTxdata v) s = .next { s with stage := s.stage ++ [byteField v], err := .ok } := by
  obtain ⟨hFull, -⟩ | ⟨-, hExec⟩ := execWrTxdata_cases v s
  · exact absurd hFull h
  · exact hExec

theorem exec_wrTxdata_of_full {s : State} (v : Word) (h : s.stage.length = 255) :
    exec (.wrTxdata v) s = .next { s with err := .stageFull } := by
  obtain ⟨-, hExec⟩ | ⟨hRoom, -⟩ := execWrTxdata_cases v s
  · exact hExec
  · exact absurd h hRoom

/-- Settles O17: the two outcomes of `execWrTxdata_cases`, with the byte by `byteField_eq_ofNat_mod`. -/
theorem wrTxdataOutcomes : Obligations.WrTxdataOutcomes := fun _ v =>
  ⟨decodeBus_wrTxdata v, byteField_eq_ofNat_mod v ▸ exec_wrTxdata_of_room v, exec_wrTxdata_of_full v⟩

/-! ## RXDATA -/

theorem decodeBus_rdRxdata (v : Word) : decodeBus 0b0001101#7 v = .rdRxdata := decodeBus_read 0x0D#6 v

section
variable {s : State} {done left : List Byte} {b : Byte}

theorem rxdataView_of_split (hBuf : s.rdBuf = done ++ b :: left) (hPos : s.rdPos = done.length) :
    rxdataView s = BitVec.ofNat 32 b.toNat := by
  simp [rxdataView, rxdataAtEnd, hBuf, hPos]

theorem exec_rdRxdata_of_split (hBuf : s.rdBuf = done ++ b :: left) (hPos : s.rdPos = done.length) :
    exec .rdRxdata s =
      .next { s with rdPos := done.length + 1, err := .ok, out := .read (BitVec.ofNat 32 b.toNat) } := by
  obtain ⟨hEnd, -⟩ | ⟨-, hExec⟩ := execRdRxdata_cases s
  · simp [hBuf, hPos] at hEnd
  · rw [← rxdataView_of_split hBuf hPos, ← hPos]
    exact hExec

theorem exec_rdRxdata_of_end (h : s.rdPos = s.rdBuf.length) :
    exec .rdRxdata s = .next { s with err := .rxEmpty, out := .read 0#32 } := by
  obtain ⟨-, hExec⟩ | ⟨hMore, -⟩ := execRdRxdata_cases s
  · exact hExec
  · exact absurd h hMore

end

/-- Settles O20: the two outcomes of `execRdRxdata_cases`, with the byte by `rxdataView_of_split`. -/
theorem rdRxdataOutcomes : Obligations.RdRxdataOutcomes := fun _ =>
  ⟨decodeBus_rdRxdata, fun _ _ _ => exec_rdRxdata_of_split, exec_rdRxdata_of_end⟩

end Sys2Proof.Machine
end

section
/-! SUPPORT. The round trip of the encoder (R100-R107): a transaction is read back from its 40 bits, a command from its
word. -/

namespace Sys2Proof.Machine

/-- The selector is the 6 address bits with the direction above them (R101). -/
theorem selector_toNat {t : HostTxn} (h : t.addr < 64) : t.selector.toNat = 64 * t.write.toNat + t.addr := by
  rw [HostTxn.selector, BitVec.toNat_append, BitVec.toNat_ofNat, Nat.mod_eq_of_lt h, BitVec.toNat_ofBool,
    ← Nat.shiftLeft_add_eq_or_of_lt h, Nat.shiftLeft_eq]
  omega

theorem txnOfTableWord_bits {t : HostTxn} (h : t.addr < 64) : txnOfTableWord 40 t.bits = t := by
  have hWrite : (t.bits / 64) % 2 = t.write.toNat := by
    have := t.write.toNat_le
    rw [HostTxn.bits, selector_toNat h]
    omega
  have hAddr : t.bits % 64 + 64 * (t.bits / 128 % 2) = t.addr := by
    have := t.write.toNat_le
    rw [HostTxn.bits, selector_toNat h]
    omega
  have hData : t.bits / 256 = t.data.toNat := by
    have := t.selector.isLt
    rw [HostTxn.bits]
    omega
  rw [txnOfTableWord, if_neg (by decide), hWrite, hAddr, hData]
  simp

theorem decodeTableWord_bus (write : Bool) (a : BitVec 6) (v : Word) :
    decodeTableWord 40 (HostTxn.bits ⟨write, a.toNat, v⟩) = some (decodeBus (BitVec.ofBool write ++ a) v) := by
  have hAddr : a.toNat < 64 := a.isLt
  simp [decodeTableWord, txnOfTableWord_bits (t := ⟨write, a.toNat, v⟩) hAddr, decodeTxn, hAddr, HostTxn.selector,
    Except.toOption]

theorem decodeTableWord_command (c : Command) : decodeTableWord 32 c.encode.toNat = some c.toInstr := by
  have hDecode := (decodeCommand_eq_some_iff c.encode c).mpr rfl
  simp [decodeTableWord, decodeCmd, hDecode, Except.toOption]

theorem decodeBus_read_reg {a : BitVec 6} (v : Word) (hRxdata : a ≠ 0x0D#6) (hMapped : a.toNat ≤ 0x1A) :
    decodeBus (0#1 ++ a) v = .rdReg a := by
  rw [decodeBus_read, if_neg hRxdata, if_pos hMapped]

/-- A bus row comes back when the bus decoder reads it from its direction and address. -/
theorem decodeTableWord_of_decodeBus {i : Instr} (write : Bool) (a : BitVec 6) (v : Word)
    (hEncode : encode i = (40, HostTxn.bits ⟨write, a.toNat, v⟩))
    (hDecode : decodeBus (BitVec.ofBool write ++ a) v = i) :
    decodeTableWord (encode i).1 (encode i).2 = some i := by
  rw [hEncode, decodeTableWord_bus, hDecode]

/-- Settles O1: a command by its word, a bus row by its direction and address. -/
theorem decodeInvertsEncode : Obligations.DecodeInvertsEncode := fun i hWf => by
  cases i with
  | nop => exact decodeTableWord_command .nop
  | start => exact decodeTableWord_command .start
  | txSend dest => exact decodeTableWord_command (.txSend dest)
  | txClear => exact decodeTableWord_command .txClear
  | rxPop => exact decodeTableWord_command .rxPop
  | clrStats => exact decodeTableWord_command .clrStats
  | toneRead sym index => exact decodeTableWord_command (.toneRead sym index)
  | rdReg a =>
    simp only [Instr.wellFormed, isReadableReg, Bool.and_eq_true, decide_eq_true_eq, bne_iff_ne] at hWf
    exact decodeTableWord_of_decodeBus false a 0#32 rfl (decodeBus_read_reg _ hWf.2 hWf.1)
  | rdReserved a =>
    exact decodeTableWord_of_decodeBus false a 0#32 rfl (decodeBus_read_reserved _ (of_decide_eq_true hWf))
  | wrIgnored a v =>
    simp only [Instr.wellFormed, isWritableReg, Bool.not_eq_true', Bool.or_eq_false_iff, beq_eq_false_iff_ne] at hWf
    obtain ⟨⟨⟨hCtrl, hCmd⟩, hLocalId⟩, hTxdata⟩ := hWf
    exact decodeTableWord_of_decodeBus true a v rfl (decodeBus_write_ignored v hCtrl hCmd hLocalId hTxdata)
  | rdRxdata => exact decodeTableWord_of_decodeBus false 0x0D#6 0#32 rfl (decodeBus_read _ _)
  | wrCtrl v => exact decodeTableWord_of_decodeBus true 0x02#6 v rfl (decodeBus_write _ _)
  | wrCmd v => exact decodeTableWord_of_decodeBus true 0x03#6 v rfl (decodeBus_write _ _)
  | wrLocalId v => exact decodeTableWord_of_decodeBus true 0x05#6 v rfl (decodeBus_write _ _)
  | wrTxdata v => exact decodeTableWord_of_decodeBus true 0x07#6 v rfl (decodeBus_write _ _)

end Sys2Proof.Machine
end

section
/-! SUPPORT. The invariant is kept: first by each kind of write to the fields it speaks of, then by each agent's step. -/

namespace Sys2Proof.Machine

/-! ## What a well-formed configuration gives (R7) -/

theorem configWf_iff (c : Config) :
    configWf c = true ↔
      1 ≤ c.sampleRate ∧ 1 ≤ c.nbuf ∧ 1 ≤ c.tableLen ∧ 1 ≤ c.preambleLen ∧ 1 ≤ c.winBufs
        ∧ 1 ≤ c.capqDepth ∧ 1 ≤ c.txqDepth ∧ 1 ≤ c.rxqDepth ∧ c.preamble.length = c.preambleLen
        ∧ c.freqA ≠ c.freqB ∧ 0 < c.freqA ∧ 2 * c.freqA < c.sampleRate ∧ 0 < c.freqB ∧ 2 * c.freqB < c.sampleRate
        ∧ c.tableLen ≤ 65536 ∧ c.preambleLen ≤ 2 ^ 32 ∧ 1 ≤ c.maxBytesPerChar ∧ c.tolDen ≠ 0 := by
  simp only [configWf, Bool.and_eq_true, decide_eq_true_eq, beq_iff_eq, bne_iff_ne, and_assoc, Nat.one_le_iff_ne_zero]

section
variable {c : Config} (h : configWf c = true)
include h

theorem nbuf_pos_of_configWf : 1 ≤ c.nbuf := by
  have := (configWf_iff c).mp h
  omega

theorem tableLen_pos_of_configWf : 1 ≤ c.tableLen := by
  have := (configWf_iff c).mp h
  omega

theorem preambleLen_pos_of_configWf : 1 ≤ c.preambleLen := by
  have := (configWf_iff c).mp h
  omega

theorem preamble_length_of_configWf : c.preamble.length = c.preambleLen := by
  have := (configWf_iff c).mp h
  omega

end

/-! ## Reset -/

/-- A block in its reset state meets the invariant, whatever its environment holds. -/
theorem inv_resetBlock {s : State} (h : configWf s.cfg = true) : Inv s.resetBlock where
  config := h
  startOnce := by simp
  unstarted _ := unstarted_resetBlock s
  stageLength := Nat.zero_le _
  txqLength := Nat.zero_le _
  txqFrames := by simp
  framer := ⟨rfl, rfl⟩
  phase := tableLen_pos_of_configWf h
  capqLength := Nat.zero_le _
  capqBuffers := by simp
  window := ⟨0, Nat.zero_le _, by simp⟩
  sync := ⟨preambleLen_pos_of_configWf h, rfl, rfl, rfl⟩
  rxqLength := Nat.zero_le _
  rxqPayloads := by simp
  rdBuf := by simp
  rdPos := Nat.zero_le _

/-! ## Writes of one part of the state -/

section
variable {s : State}

/-- The fields no clause speaks of may be written at will. -/
theorem Inv.write_free {t : State} (h : Inv s)
    (ht : t = { s with
      captureEn := t.captureEn, demodSel := t.demodSel, err := t.err, localId := t.localId, frameId := t.frameId,
      toneData := t.toneData, cksErr := t.cksErr, deserErr := t.deserErr, rxqDrop := t.rxqDrop, rxOk := t.rxOk,
      rxLastEvt := t.rxLastEvt, schedule := t.schedule, audioOk := t.audioOk, draws := t.draws, out := t.out }) :
    Inv t := by
  rw [ht]
  exact { h with unstarted := fun hs => ⟨(h.unstarted hs).framer, (h.unstarted hs).driver, (h.unstarted hs).capture⟩ }

theorem Inv.start_succeeds (h : Inv s) (hFailed : s.initFailed = false) : Inv { s with started := true } :=
  { h with
    startOnce := by simp [hFailed]
    unstarted := fun hs => by cases hs }

theorem Inv.start_fails (h : Inv s) (hStarted : s.started = false) : Inv { s with initFailed := true } :=
  { h with
    startOnce := by simp [hStarted]
    unstarted := fun hs => ⟨(h.unstarted hs).framer, (h.unstarted hs).driver, (h.unstarted hs).capture⟩ }

theorem Inv.write_stage (h : Inv s) {stage : List Byte} (hStage : stage.length ≤ 255) :
    Inv { s with stage := stage } :=
  { h with
    stageLength := hStage
    unstarted := fun hs => ⟨(h.unstarted hs).framer, (h.unstarted hs).driver, (h.unstarted hs).capture⟩ }

theorem Inv.write_txq (h : Inv s) {txq : List (List Byte)} (hLength : txq.length ≤ s.cfg.txqDepth)
    (hFrames : ∀ f ∈ txq, ValidFrame f) : Inv { s with txq := txq } :=
  { h with
    txqLength := hLength
    txqFrames := hFrames
    unstarted := fun hs => ⟨(h.unstarted hs).framer, (h.unstarted hs).driver, (h.unstarted hs).capture⟩ }

theorem Inv.write_rxq (h : Inv s) {rxq : List (List Byte)} (hLength : rxq.length ≤ s.cfg.rxqDepth)
    (hPayloads : ∀ p ∈ rxq, p.length ≤ 255 ∧ textValid s.cfg p = true) : Inv { s with rxq := rxq } :=
  { h with
    rxqLength := hLength
    rxqPayloads := hPayloads
    unstarted := fun hs => ⟨(h.unstarted hs).framer, (h.unstarted hs).driver, (h.unstarted hs).capture⟩ }

theorem Inv.write_rdBuf (h : Inv s) {buf : List Byte} {pos : Nat}
    (hBuf : buf.length ≤ 255 ∧ (buf = [] ∨ textValid s.cfg buf = true)) (hPos : pos ≤ buf.length) :
    Inv { s with rdBuf := buf, rdPos := pos } :=
  { h with
    rdBuf := hBuf
    rdPos := hPos
    unstarted := fun hs => ⟨(h.unstarted hs).framer, (h.unstarted hs).driver, (h.unstarted hs).capture⟩ }

/-- The counters of the transmit path and of the capture may be cleared. -/
theorem Inv.clear_counters (h : Inv s) : Inv { s with txDone := 0#32, capDrop := 0#32 } :=
  { h with
    unstarted := fun hs =>
      have ⟨⟨hTx, hLast, hMbox, _⟩, hDriver, ⟨hCapq, _, hWin⟩⟩ := h.unstarted hs
      ⟨⟨hTx, hLast, hMbox, rfl⟩, hDriver, ⟨hCapq, rfl, hWin⟩⟩ }

theorem Inv.write_sync (h : Inv s) {state : RxState} {k : Nat} {buf : List Byte} {cur : Byte} {bitcnt : Nat}
    (hSync : SyncOk { s with rxState := state, k := k, rxBuf := buf, rxCur := cur, rxBitcnt := bitcnt }) :
    Inv { s with rxState := state, k := k, rxBuf := buf, rxCur := cur, rxBitcnt := bitcnt } :=
  { h with
    sync := hSync
    unstarted := fun hs => ⟨(h.unstarted hs).framer, (h.unstarted hs).driver, (h.unstarted hs).capture⟩ }

end

/-! ## Writes of the AUDIO and RX agents: a started block owes nothing to `Unstarted` -/

section
variable {s : State}

theorem Inv.write_capture (h : Inv s) (hStarted : s.started = true) {capq : List (List Word)} {capDrop : Word}
    (hLength : capq.length ≤ s.cfg.capqDepth) (hBuffers : ∀ b ∈ capq, b.length = s.cfg.nbuf) :
    Inv { s with capq := capq, capDrop := capDrop } :=
  { h with
    capqLength := hLength
    capqBuffers := hBuffers
    unstarted := fun hs => absurd hStarted (ne_true_of_eq_false hs) }

theorem Inv.write_win (h : Inv s) (hStarted : s.started = true) {win : List Word} (hWin : ∃ m ≤ s.cfg.winBufs, win.length = m * s.cfg.nbuf) :
    Inv { s with win := win } :=
  { h with
    window := hWin
    unstarted := fun hs => absurd hStarted (ne_true_of_eq_false hs) }

theorem Inv.write_driver (h : Inv s) (hStarted : s.started = true) {curSym : Bool} {mbox : Option Bool} {phase : Nat} {bufCount : Word}
    (hPhase : phase < s.cfg.tableLen) :
    Inv { s with curSym := curSym, mbox := mbox, phase := phase, bufCount := bufCount } :=
  { h with
    phase := hPhase
    unstarted := fun hs => absurd hStarted (ne_true_of_eq_false hs) }

theorem Inv.write_framer (h : Inv s) (hStarted : s.started = true) {txState : TxState} {counter : Nat} {frame : List Byte} {txDone : Word}
    {lastSym : Bool} {mbox : Option Bool}
    (hFramer : FramerOk { s with txState := txState, txCounter := counter, txFrame := frame }) :
    Inv { s with
      txState := txState, txCounter := counter, txFrame := frame, txDone := txDone, lastSym := lastSym, mbox := mbox } :=
  { h with
    framer := hFramer
    unstarted := fun hs => absurd hStarted (ne_true_of_eq_false hs) }

end

/-! ## The host -/

/-- R181: what TX_SEND queues is a valid frame. -/
theorem validFrame_encodeFrame (dest src id : Byte) {payload : List Byte} (h : payload.length ≤ 255) :
    ValidFrame (encodeFrame dest src id payload) where
  length := by
    rw [encodeFrame_getD_three, encodeFrame_length, BitVec.toNat_ofNat, Nat.mod_eq_of_lt (by omega)]
    omega
  fold := xorfold_encodeFrame ..

/-- Every instruction but a write of CMD keeps the invariant. -/
theorem inv_exec {s t : State} (h : Inv s) {i : Instr} (hCmd : ∀ v, i ≠ .wrCmd v) (hExec : exec i s = .next t) :
    Inv t := by
  cases i with
  | wrCmd v => exact absurd rfl (hCmd v)
  | nop | rdReg _ | wrLocalId _ | rdReserved _ => cases hExec; exact h.write_free rfl
  | wrIgnored _ _ => cases hExec; exact h
  | start =>
    obtain ⟨-, hCase⟩ | ⟨hStarted, hFailed, d, hCase | hCase⟩ := execStart_cases s <;> cases hCase.symm.trans hExec
    · exact h.write_free rfl
    · exact (h.start_succeeds hFailed).write_free rfl
    · exact (h.start_fails hStarted).write_free rfl
  | txSend dest =>
    obtain ⟨-, hCase⟩ | ⟨hRoom, hCase⟩ := execTxSend_cases dest s <;> cases hCase.symm.trans hExec
    · exact h.write_free rfl
    · have hLength := h.txqLength
      have hFrame := validFrame_encodeFrame dest s.localId s.frameId h.stageLength
      refine ((h.write_txq (txq := s.txq ++ [_]) ?_ ?_).write_stage (stage := []) (Nat.zero_le _)).write_free rfl
      · rw [List.length_append, List.length_singleton]
        omega
      · exact List.forall_mem_append.mpr ⟨h.txqFrames, List.forall_mem_singleton.mpr hFrame⟩
  | txClear => cases hExec; exact (h.write_stage (Nat.zero_le _)).write_free rfl
  | rxPop =>
    obtain ⟨-, hCase⟩ | ⟨payload, rest, hQueue, hCase⟩ := execRxPop_cases s <;> cases hCase.symm.trans hExec
    · exact (h.write_rdBuf ⟨Nat.zero_le _, .inl rfl⟩ (Nat.zero_le _)).write_free rfl
    · have hLength := h.rxqLength
      have hPayloads := h.rxqPayloads
      rw [hQueue] at hLength hPayloads
      obtain ⟨⟨hShort, hText⟩, hRest⟩ := List.forall_mem_cons.mp hPayloads
      exact ((h.write_rxq (Nat.le_of_succ_le hLength) hRest).write_rdBuf ⟨hShort, .inr hText⟩
        (Nat.zero_le _)).write_free rfl
  | clrStats => cases hExec; exact h.clear_counters.write_free rfl
  | toneRead sym index =>
    obtain ⟨-, hCase⟩ | ⟨-, hCase⟩ := execToneRead_cases sym index s <;> cases hCase.symm.trans hExec
    all_goals exact h.write_free rfl
  | rdRxdata =>
    obtain ⟨-, hCase⟩ | ⟨hMore, hCase⟩ := execRdRxdata_cases s <;> cases hCase.symm.trans hExec
    · exact h.write_free rfl
    · exact (h.write_rdBuf h.rdBuf (Nat.lt_of_le_of_ne h.rdPos hMore)).write_free rfl
  | wrCtrl v =>
    obtain ⟨-, -, hCase⟩ | ⟨-, hCase⟩ := execWrCtrl_cases v s <;> cases hCase.symm.trans hExec
    all_goals exact h.write_free rfl
  | wrTxdata v =>
    obtain ⟨-, hCase⟩ | ⟨hRoom, hCase⟩ := execWrTxdata_cases v s <;> cases hCase.symm.trans hExec
    · exact h.write_free rfl
    · have hLength := h.stageLength
      refine (h.write_stage (stage := s.stage ++ [byteField v]) ?_).write_free rfl
      rw [List.length_append, List.length_singleton]
      omega

theorem inv_exec_wrCmd {s t : State} (h : Inv s) {v : Word} (hExec : exec (.wrCmd v) s = .next t) : Inv t := by
  obtain ⟨c, -, hCase⟩ | ⟨-, hCase⟩ := execWrCmd_cases v s
  · exact inv_exec h (by cases c <;> simp [Command.toInstr]) (hCase.symm.trans hExec)
  · cases hCase.symm.trans hExec
    exact h.write_free rfl

/-! ## AUDIO -/

section
variable {s : State}

theorem inv_capture (h : Inv s) (hStarted : s.started = true) (input : List Word) : Inv (capture input s) := by
  obtain ⟨-, hRoom, hCase⟩ | ⟨-, -, hCase⟩ | ⟨-, hCase⟩ := capture_cases input s <;> rw [hCase]
  · refine h.write_capture hStarted ?_ ?_
    · rw [List.length_append, List.length_singleton]
      omega
    · exact List.forall_mem_append.mpr ⟨h.capqBuffers, List.forall_mem_singleton.mpr (channel0_length _ _)⟩
  · exact h.write_capture hStarted h.capqLength h.capqBuffers
  · exact h

theorem inv_framerTick (h : Inv s) (hStarted : s.started = true) : Inv (framerTick s) := by
  have hOk := h.framer
  rw [framerTick]
  obtain ⟨hState, -, hCase⟩ | ⟨frame, rest, hState, hQueue, hCase⟩ | ⟨hState, -, hCase⟩ | ⟨hState, hMore, hCase⟩
    | ⟨hState, -, hCase⟩ | ⟨hState, hMore, hCase⟩ := framerAdvance_cases s <;> rw [hCase]
  · exact h.write_framer hStarted hOk
  · have hLength := h.txqLength
    have hFrames := h.txqFrames
    rw [hQueue] at hLength hFrames
    obtain ⟨hFrame, hRest⟩ := List.forall_mem_cons.mp hFrames
    refine (h.write_txq (Nat.le_of_succ_le hLength) hRest).write_framer hStarted ?_
    exact ⟨preambleLen_pos_of_configWf h.config, hFrame⟩
  · simp only [FramerOk, hState] at hOk
    have hLength := hOk.2.length
    refine h.write_framer hStarted ?_
    exact ⟨show 0 < 8 * s.txFrame.length by omega, hOk.2⟩
  · simp only [FramerOk, hState] at hOk
    refine h.write_framer hStarted ?_
    simp only [FramerOk, hState]
    exact ⟨by omega, hOk.2⟩
  · refine h.write_framer hStarted ?_
    exact ⟨rfl, rfl⟩
  · simp only [FramerOk, hState] at hOk
    refine h.write_framer hStarted ?_
    simp only [FramerOk, hState]
    exact ⟨by omega, hOk.2⟩

theorem inv_audioStep (h : Inv s) (hStarted : s.started = true) (input : List Word) : Inv (audioStep input s) := by
  have hCaptured := inv_capture h hStarted input
  have hSame : (capture input s).started = s.started := by
    obtain ⟨-, -, hCase⟩ | ⟨-, -, hCase⟩ | ⟨-, hCase⟩ := capture_cases input s <;> rw [hCase]
  rw [← hSame] at hStarted
  have hPlayed := hCaptured.write_driver hStarted (curSym := (capture input s).mbox.getD (capture input s).curSym)
    (mbox := none) (bufCount := (capture input s).bufCount + 1)
    (synthFrom_phase_lt _ ((capture input s).mbox.getD (capture input s).curSym) (capture input s).cfg.nbuf _
      hCaptured.phase)
  rw [audioStep, adopt_eq, synth_eq]
  exact inv_framerTick (hPlayed.write_free rfl) hStarted

end

theorem inv_audioTurn {s : State} (h : Inv s) (input : List Word) : Inv (audioTurn input s) := by
  unfold audioTurn
  split
  · obtain ⟨-, -, d, hSame⟩ := completeInput_spec s input
    rw [hSame]
    exact inv_audioStep (h.write_free rfl) ‹_› _
  · exact h

/-! ## RX -/

/-- Sliding keeps the window a whole number of buffers, at most WIN_BUFS. -/
theorem inv_slideWindow {s : State} (h : Inv s) (hStarted : s.started = true) {cap : List Word}
    (hCap : cap.length = s.cfg.nbuf) : Inv { s with win := slideWindow s.cfg s.win cap } := by
  obtain ⟨m, hm, hWin⟩ := h.window
  have hNbuf := nbuf_pos_of_configWf h.config
  refine h.write_win hStarted ?_
  obtain ⟨hFits, hCase⟩ | ⟨-, hCase⟩ := slideWindow_cases s.cfg s.win cap <;> rw [hCase]
  · refine ⟨m + 1, ?_, by rw [List.length_append, hWin, hCap, Nat.succ_mul]⟩
    rw [hWin, hCap, ← Nat.succ_mul, Config.winLen] at hFits
    exact Nat.le_of_mul_le_mul_right hFits hNbuf
  · exact ⟨m, hm, by rw [List.length_drop, List.length_append, hWin, hCap, Nat.add_sub_cancel]⟩

theorem inv_demodulate {s : State} (h : Inv s) (hStarted : s.started = true) {cap : List Word}
    (hCap : cap.length = s.cfg.nbuf) : Inv (demodulate cap s).2 := by
  unfold demodulate
  split
  · have hSlid := inv_slideWindow h hStarted hCap
    obtain ⟨-, hCase⟩ | ⟨_, -, -, hCase⟩ | ⟨_, -, -, hCase⟩ := spectral_cases cap s <;> rw [hCase]
    · exact hSlid
    · exact hSlid
    · exact hSlid.write_free rfl
  · exact h

/-- R229: a buffer short of its frame that a byte does not complete is still short of it. -/
theorem receiving_append {buf : List Byte} {x : Byte}
    (h : buf.length < 4 ∨ buf.length < 5 + (buf.getD 3 0x00#8).toNat) (hOpen : frameComplete (buf ++ [x]) = false) :
    (buf ++ [x]).length < 4 ∨ (buf ++ [x]).length < 5 + ((buf ++ [x]).getD 3 0x00#8).toNat := by
  have hNotComplete := mt (frameComplete_iff (buf ++ [x])).mpr (ne_true_of_eq_false hOpen)
  rw [List.length_append, List.length_singleton] at hNotComplete ⊢
  rcases Nat.lt_or_ge buf.length 4 with hHeader | hHeader
  · omega
  · rw [List.getD_append _ _ _ _ (by omega)] at hNotComplete ⊢
    omega

/-- Shifting a bit in doubles the partial byte and adds the bit (R228). -/
theorem shiftIn_toNat_lt {cur : Byte} {n : Nat} (b : Bool) (h : cur.toNat < 2 ^ n) :
    (shiftIn cur b).toNat < 2 ^ (n + 1) := by
  have hBit := b.toNat_lt
  have hLow : (cur.extractLsb' 0 7).toNat ≤ cur.toNat := by
    rw [BitVec.extractLsb'_toNat, Nat.shiftRight_zero]
    exact Nat.mod_le _ _
  rw [shiftIn, BitVec.toNat_append, BitVec.toNat_ofBool, ← Nat.shiftLeft_add_eq_or_of_lt (by simpa using hBit),
    Nat.shiftLeft_eq, pow_succ]
  omega

/-- Back to searching with everything cleared, a frame's verdict pushes at most one payload of valid text into RXQ. -/
theorem inv_frameDone {s : State}
    (h : Inv { s with rxState := .searchingPreamble, k := 0, rxBuf := [], rxCur := 0x00#8, rxBitcnt := 0 }) :
    Inv (frameDone s) := by
  have hLength := h.rxqLength
  rw [frameDone]
  obtain hCase | hCase | ⟨-, hCase⟩ | ⟨payload, hRoom, hShort, hText, hCase⟩ := judgeFrame_cases s <;> rw [hCase]
  · exact h.write_free rfl
  · exact h.write_free rfl
  · exact h.write_free rfl
  · refine (h.write_rxq (rxq := s.rxq ++ [payload]) ?_ ?_).write_free rfl
    · rw [List.length_append, List.length_singleton]
      exact Nat.lt_of_le_of_ne hLength hRoom
    · exact List.forall_mem_append.mpr ⟨h.rxqPayloads, List.forall_mem_singleton.mpr ⟨hShort, hText⟩⟩

theorem inv_assemble {s : State} (h : Inv s) (hState : s.rxState = .receivingPacket) (b : Bool) :
    Inv (assemble b s) := by
  have hOk := h.sync
  simp only [SyncOk, hState] at hOk
  obtain ⟨hk, hBits, hCur, hBuf⟩ := hOk
  obtain ⟨hMore, hCase⟩ | ⟨-, hOpen, hCase⟩ | ⟨-, -, hCase⟩ := assemble_cases b s <;> rw [hCase]
  · refine h.write_sync ?_
    simp only [SyncOk, hState]
    exact ⟨hk, by omega, shiftIn_toNat_lt b hCur, hBuf⟩
  · refine h.write_sync ?_
    simp only [SyncOk, hState]
    exact ⟨hk, Nat.zero_lt_succ _, Nat.zero_lt_one, receiving_append hBuf hOpen⟩
  · refine inv_frameDone (h.write_sync ?_)
    exact ⟨preambleLen_pos_of_configWf h.config, rfl, rfl, rfl⟩

theorem inv_syncBit {s : State} (h : Inv s) (b : Bool) : Inv (syncBit b s) := by
  have hOk := h.sync
  obtain ⟨-, -, hCase⟩ | ⟨hState, hMore, hCase⟩ | ⟨hState, hCase⟩ := syncBit_cases b s <;> rw [hCase]
  · refine h.write_sync ?_
    exact ⟨rfl, Nat.zero_lt_succ _, Nat.zero_lt_one, .inl (by simp)⟩
  · simp only [SyncOk, hState] at hOk
    obtain ⟨hk, hEmpty⟩ := hOk
    have hStep := matchStep_le s.cfg.preamble s.k b
    refine h.write_sync ?_
    simp only [SyncOk, hState]
    exact ⟨by omega, hEmpty⟩
  · exact inv_assemble h hState b

/-- A block that has not started has no capture, so an RX step with one is a started block's. -/
theorem started_of_capq_ne_nil {s : State} (h : Inv s) (hQueue : s.capq ≠ []) : s.started = true := by
  by_contra hNot
  obtain ⟨-, -, hCapq, -⟩ := h.unstarted (Bool.eq_false_iff.mpr hNot)
  exact hQueue hCapq

/-- A started block stays in the invariant as its oldest capture is popped, and that capture is a whole buffer. -/
theorem inv_pop_capq {s : State} (h : Inv s) {cap : List Word} {rest : List (List Word)} (hQueue : s.capq = cap :: rest) :
    s.started = true ∧ cap.length = s.cfg.nbuf ∧ Inv { s with capq := rest } := by
  have hStarted := started_of_capq_ne_nil h (hQueue ▸ List.cons_ne_nil _ _)
  have hLength := h.capqLength
  have hBuffers := h.capqBuffers
  rw [hQueue] at hLength hBuffers
  obtain ⟨hCap, hRest⟩ := List.forall_mem_cons.mp hBuffers
  exact ⟨hStarted, hCap, h.write_capture hStarted (Nat.le_of_succ_le hLength) hRest⟩

theorem inv_rxStep {s : State} (h : Inv s) : Inv (rxStep s) := by
  obtain ⟨-, hCase⟩ | ⟨cap, rest, hQueue, -, hCase⟩ | ⟨cap, rest, b, hQueue, -, hCase⟩ := rxStep_cases s <;> rw [hCase]
  · exact h
  · obtain ⟨hStarted, hCap, hPopped⟩ := inv_pop_capq h hQueue
    exact inv_demodulate hPopped hStarted hCap
  · obtain ⟨hStarted, hCap, hPopped⟩ := inv_pop_capq h hQueue
    exact inv_syncBit (inv_demodulate hPopped hStarted hCap) b

/-! ## Every step -/

theorem inv_takeEvent {s : State} (h : Inv s) : Inv (takeEvent s) := by
  obtain ⟨_, _, hTaken⟩ := takeEvent_frame s
  rw [hTaken]
  exact h.write_free rfl

/-- Settles O35: each agent's step keeps the invariant, and so does a reset. -/
theorem stepsKeepTheInvariant : Obligations.StepsKeepTheInvariant := fun s t h hStep => by
  have hTaken := inv_takeEvent h
  obtain ⟨txn, -, -, hExec⟩ | ⟨input, -, rfl⟩ | ⟨-, rfl⟩ | ⟨b, -, rfl⟩ | ⟨-, rfl⟩ := step_cases hStep
  · by_cases hCmd : ∃ v, decodeBus txn.selector txn.data = .wrCmd v
    · obtain ⟨v, hCmd⟩ := hCmd
      exact inv_exec_wrCmd hTaken (hCmd ▸ hExec)
    · exact inv_exec hTaken (not_exists.mp hCmd) hExec
  · exact inv_audioTurn hTaken input
  · exact inv_rxStep hTaken
  · exact inv_syncBit hTaken b
  · exact inv_resetBlock hTaken.config

end Sys2Proof.Machine
end

section
/-! SUPPORT. Launch and reset: which configurations have a machine (R7), and that its first state meets the invariant. -/

namespace Sys2Proof.Machine

/-- Settles O8: the conditions are those of `configWf`, by `configWf_iff`. -/
theorem illFormedConfigsAreRefused : Obligations.IllFormedConfigsAreRefused := fun c =>
  ⟨fun hOk => if_pos ((configWf_iff c).mpr hOk), fun hBad => if_neg (mt (configWf_iff c).mp hBad)⟩

/-- Whatever the free values, the frequencies of `Config.built` are two and below half the sample rate. -/
theorem configWf_built : configWf Config.built = true := by
  have hA := Nat.mod_lt Config.openFreqA (show 0 < 4999 by decide)
  have hB := Nat.mod_lt Config.openFreqB (show 0 < 4998 by decide)
  have hT := Nat.mod_lt Config.openTableLen (show 0 < 65536 by decide)
  rw [configWf_iff]
  simp only [Config.built, List.length_map, List.length_range, true_and]
  and_intros <;> omega

/-- Settles O34: `State.reset` is what a reset leaves of it. -/
theorem resetMeetsTheInvariant : Obligations.ResetMeetsTheInvariant :=
  inv_resetBlock (s := State.reset) configWf_built

end Sys2Proof.Machine
end

section
/-! SUPPORT. What START (R250), RX_POP (R255) and the register writes of CTRL (R252) and LOCAL_ID (R260) do; and that
every instruction completes (R265). -/

namespace Sys2Proof.Machine

/-- Settles O2: each word is closed, and the decoder computes its row. -/
theorem sampleWordsDecode : Obligations.SampleWordsDecode := by
  unfold Obligations.SampleWordsDecode
  decide

/-! ## Every instruction completes -/

theorem exists_exec_command (c : Command) (s : State) : ∃ t, exec c.toInstr s = .next t := by
  cases c <;> exact ⟨_, rfl⟩

theorem exec_wrCmd_of_command {w : Word} {c : Command} (h : decodeCommand w = some c) (s : State) :
    exec (.wrCmd w) s = exec c.toInstr s := by
  obtain ⟨c', hSome, hExec⟩ | ⟨hNone, -⟩ := execWrCmd_cases w s
  · cases h.symm.trans hSome
    exact hExec
  · cases h.symm.trans hNone

/-- Settles O6: every meaning ends in a next state; a write of CMD in that of its command, or in ILLEGAL_COMMAND. -/
theorem everyAccessCompletes : Obligations.EveryAccessCompletes := fun i s => by
  cases i with
  | wrCmd w =>
    cases h : decodeCommand w with
    | none => exact ⟨_, exec_wrCmd_of_illegal h s⟩
    | some c =>
      obtain ⟨t, hExec⟩ := exists_exec_command c s
      exact ⟨t, (exec_wrCmd_of_command h s).trans hExec⟩
  | _ => exact ⟨_, rfl⟩

/-- Settles O4: the command completes, and the write of its word is the command. -/
theorem cmdWriteRunsItsCommand : Obligations.CmdWriteRunsItsCommand := fun w s =>
  ⟨decodeBus_write 0x03#6 w, fun c hDecode =>
    have ⟨t, hExec⟩ := exists_exec_command c s
    ⟨t, (exec_wrCmd_of_command hDecode s).trans hExec, hExec⟩⟩

/-- Settles O5: the event runs as `step_of_schedule` says, and the decoder answers the instruction. -/
theorem stepRunsDecodedInstruction : Obligations.StepRunsDecodedInstruction := fun s t rest i hSchedule hDecode => by
  rw [step_of_schedule hSchedule, runEvent, hostStep, hDecode]

/-! ## START -/

section
variable {s : State}

theorem exec_start_of_late (h : s.started = true ∨ s.initFailed = true) :
    exec .start s = .next { s with err := .alreadyInitialized } := by
  obtain ⟨-, hExec⟩ | ⟨hStarted, hFailed, -⟩ := execStart_cases s
  · exact hExec
  · simp [hStarted, hFailed] at h

/-- The first START goes by the bit it samples; a fixed AUDIO_OK is that bit, and then no draw is counted. -/
theorem exec_start_of_first (hStarted : s.started = false) (hFailed : s.initFailed = false) :
    ∃ b d, (∀ b', s.audioOk = some b' → b = b' ∧ d = s.draws) ∧
      exec .start s = .next (if b then { s with started := true, err := .ok, draws := d }
        else { s with initFailed := true, err := .hardwareInit, draws := d }) := by
  have hRuns {b : Bool} {t : State} (hSample : s.sampleAudioOk = (b, t)) :
      exec .start s = .next (if b then { t with started := true, err := .ok }
        else { t with initFailed := true, err := .hardwareInit }) := by
    simp only [exec, execStart, hStarted, hFailed, hSample]
    rfl
  obtain ⟨b, hFixed, hSample⟩ | ⟨hFree, hSample⟩ := sampleAudioOk_cases s
  · refine ⟨b, s.draws, ?_, hRuns hSample⟩
    rw [hFixed]
    rintro b' ⟨⟩
    exact ⟨rfl, rfl⟩
  · refine ⟨_, s.draws + 1, ?_, hRuns hSample⟩
    rw [hFree]
    rintro b' ⟨⟩

end

/-- Settles O10: a late START by `exec_start_of_late`, the first one by `exec_start_of_first`. -/
theorem startOutcomes : Obligations.StartOutcomes :=
  ⟨fun w => decodeCommand_eq_some_iff w .start, fun _ => ⟨exec_start_of_late, exec_start_of_first⟩⟩

/-! ## RX_POP -/

theorem exec_rxPop_of_cons {s : State} {payload : List Byte} {rest : List (List Byte)} (h : s.rxq = payload :: rest) :
    exec .rxPop s = .next { s with rxq := rest, rdBuf := payload, rdPos := 0, err := .ok } := by
  simp only [exec, execRxPop, h]
  rfl

theorem exec_rxPop_of_nil {s : State} (h : s.rxq = []) :
    exec .rxPop s = .next { s with rdBuf := [], rdPos := 0, err := .rxEmpty } := by
  simp only [exec, execRxPop, h]
  rfl

/-- Settles O13: RX_POP is its encoding, with an outcome for an empty and one for a non-empty queue. -/
theorem rxPopOutcomes : Obligations.RxPopOutcomes :=
  ⟨fun w => decodeCommand_eq_some_iff w .rxPop, fun _ => ⟨fun _ _ => exec_rxPop_of_cons, exec_rxPop_of_nil⟩⟩

/-! ## CTRL and LOCAL_ID -/

theorem exec_wrCtrl_of_locked {s : State} {v : Word} (hStarted : s.started = true) (hSel : v.getLsbD 1 ≠ s.demodSel) :
    exec (.wrCtrl v) s = .next { s with captureEn := v.getLsbD 0, err := .configLocked } := by
  obtain ⟨-, -, hExec⟩ | ⟨hFree, -⟩ := execWrCtrl_cases v s
  · exact hExec
  · obtain hNot | hSame := hFree
    · cases hNot.symm.trans hStarted
    · exact absurd hSame hSel

theorem exec_wrCtrl_of_free {s : State} {v : Word} (h : s.started = false ∨ v.getLsbD 1 = s.demodSel) :
    exec (.wrCtrl v) s =
      .next { s with captureEn := v.getLsbD 0, demodSel := v.getLsbD 1, err := .ok } := by
  obtain ⟨hStarted, hSel, -⟩ | ⟨-, hExec⟩ := execWrCtrl_cases v s
  · obtain hNot | hSame := h
    · cases hNot.symm.trans hStarted
    · exact absurd hSame hSel
  · exact hExec

/-- Settles O16: the two outcomes of `execWrCtrl_cases`. -/
theorem wrCtrlOutcomes : Obligations.WrCtrlOutcomes := fun _ v =>
  ⟨decodeBus_write 0x02#6 v, exec_wrCtrl_of_locked, exec_wrCtrl_of_free⟩

/-- Settles O18: the byte by `byteField_eq_ofNat_mod`. -/
theorem wrLocalIdTakesTheLowByte : Obligations.WrLocalIdTakesTheLowByte := fun _ v =>
  ⟨decodeBus_write 0x05#6 v, byteField_eq_ofNat_mod v ▸ rfl⟩

end Sys2Proof.Machine
end

section
/-! SUPPORT. What the registers read (R20-R49): reads have no side effect (R264), and each register shows its field. -/

namespace Sys2Proof.Machine

/-- Settles O21: RD_REG writes nothing but what it shows, and no register shows that. -/
theorem readsHaveNoSideEffect : Obligations.ReadsHaveNoSideEffect := fun _ _ hRxdata hMapped =>
  ⟨fun v => decodeBus_read_reg v hRxdata hMapped, rfl, fun _ => rfl⟩

theorem lengthField_toNat {n : Nat} (len : Nat) (h : n ≤ 32) : (lengthField n len).toNat = len % 2 ^ n := by
  rw [lengthField, BitVec.toNat_setWidth, BitVec.toNat_ofNat]
  refine Nat.mod_eq_of_lt ((Nat.mod_lt _ (by positivity)).trans_le ?_)
  exact Nat.pow_le_pow_right (by decide) h

theorem ctrlWord_toNat (s : State) : (ctrlWord s).toNat = s.captureEn.toNat + 2 * s.demodSel.toNat := by
  unfold ctrlWord
  generalize s.captureEn = captureEn
  generalize s.demodSel = demodSel
  revert captureEn demodSel
  decide

theorem setWidth_byte_toNat (b : Byte) : (b.setWidth 32).toNat = b.toNat := by
  rw [BitVec.toNat_setWidth]
  omega

/-- Settles O22: each register is a field, a byte of one, or a code; the codes case by case. -/
theorem registersReadTheirFields : Obligations.RegistersReadTheirFields := fun s => by
  refine ⟨rfl, ctrlWord_toNat s, rfl, ?_, setWidth_byte_toNat _, setWidth_byte_toNat _, rfl,
    lengthField_toNat _ (by decide), lengthField_toNat _ (by decide), rfl, rfl, rfl, rfl, rfl, rfl, rfl, rfl, ?_⟩
  · change s.err.code.setWidth 32 = _
    cases s.err <;> rfl
  · change s.rxLastEvt.code.setWidth 32 = _
    cases s.rxLastEvt <;> rfl

/-! ## STATUS (R22) -/

/-- Bits 11 and up are those of the reserved field. -/
theorem statusWord_getLsbD_reserved (s : State) {i : Nat} (h : 11 ≤ i) : (statusWord s).getLsbD i = false := by
  obtain ⟨j, rfl⟩ := Nat.exists_eq_add_of_le h
  simp only [statusWord, BitVec.getLsbD_append]
  simp (disch := omega) only [if_neg]
  simp

/-- The field TX_STATE is all that lies two bits wide at bit 2. -/
theorem statusWord_txState (s : State) : (statusWord s).extractLsb' 2 2 = s.txState.code := by
  refine BitVec.eq_of_getLsbD_eq fun i hi => ?_
  rw [BitVec.getLsbD_extractLsb']
  simp only [statusWord, BitVec.getLsbD_append]
  interval_cases i <;> simp

theorem txState_code_toNat (x : TxState) :
    x.code.toNat = (match x with | .idle => 0 | .sendingPreamble => 1 | .sendingPacket => 2) := by
  cases x <;> rfl

theorem statusWord_rxState (s : State) : (statusWord s).getLsbD 4 = true ↔ s.rxState = .receivingPacket := by
  have hBit : (statusWord s).getLsbD 4 = s.rxState.code.getLsbD 0 := by
    simp only [statusWord, BitVec.getLsbD_append]
    simp
  rw [hBit]
  cases s.rxState <;> simp [RxState.code]

/-- Settles O23: each single bit by the concatenation, TX_STATE, RX_STATE and the reserved bits by their lemmas. -/
theorem statusBits : Obligations.StatusBits := fun s => by
  refine ⟨statusWord s, rfl, ?_, ?_, (congrArg _ (statusWord_txState s)).trans (txState_code_toNat _),
    statusWord_rxState s, ?_, ?_, ?_, ?_, ?_, ?_, fun _ => statusWord_getLsbD_reserved s⟩
  all_goals simp only [statusWord, BitVec.getLsbD_append]
  all_goals simp [Option.isSome_iff_ne_none]

/-! ## Views of the agents' counters (R29-R39) -/

theorem toNat_ofNat_word {n : Nat} (h : n < 2 ^ 32) : (BitVec.ofNat 32 n).toNat = n := by
  rw [BitVec.toNat_ofNat, Nat.mod_eq_of_lt h]

theorem lengthField_nine_toNat {len : Nat} (h : len ≤ 255) : (lengthField 9 len).toNat = len := by
  rw [lengthField_toNat _ (by decide), Nat.mod_eq_of_lt (by omega)]

theorem validFrame_length_le {f : List Byte} (h : ValidFrame f) : f.length ≤ 260 := by
  have := h.length
  have := (f.getD 3 0x00#8).isLt
  omega

section
variable {s : State} (h : Inv s)
include h

theorem txCounter_lt : s.txCounter < 2 ^ 32 := by
  have hPreamble : s.cfg.preambleLen ≤ 2 ^ 32 := by
    have := (configWf_iff s.cfg).mp h.config
    omega
  have hOk := h.framer
  unfold FramerOk at hOk
  split at hOk
  · omega
  · omega
  · have := validFrame_length_le hOk.2
    omega

theorem phase_lt : s.phase < 2 ^ 32 := by
  have := (configWf_iff s.cfg).mp h.config
  have := h.phase
  omega

theorem k_lt : s.k < 2 ^ 32 := by
  have hPreamble : s.cfg.preambleLen ≤ 2 ^ 32 := by
    have := (configWf_iff s.cfg).mp h.config
    omega
  have hOk := h.sync
  unfold SyncOk at hOk
  split at hOk <;> omega

/-- R229: a frame being received has at most 260 bytes, and a partial byte fewer than 8 bits. -/
theorem rxBuf_length_lt_and_rxBitcnt_lt : s.rxBuf.length < 2 ^ 16 ∧ s.rxBitcnt < 2 ^ 4 := by
  have hOk := h.sync
  unfold SyncOk at hOk
  split at hOk
  · obtain ⟨-, hBuf, -, hBits⟩ := hOk
    simp [hBuf, hBits]
  · have := (s.rxBuf.getD 3 0x00#8).isLt
    omega

end

theorem rxBytesWord_toNat {s : State} (hBuf : s.rxBuf.length < 2 ^ 16) (hBits : s.rxBitcnt < 2 ^ 4) :
    (rxBytesWord s).toNat = s.rxBuf.length + 2 ^ 16 * s.rxBitcnt := by
  have hLow : (BitVec.ofNat 16 s.rxBuf.length).toNat = s.rxBuf.length := by
    rw [BitVec.toNat_ofNat, Nat.mod_eq_of_lt hBuf]
  have hHigh : (0#12 ++ BitVec.ofNat 4 s.rxBitcnt).toNat = s.rxBitcnt := by
    rw [BitVec.toNat_append, BitVec.toNat_ofNat, BitVec.toNat_ofNat, Nat.mod_eq_of_lt hBits]
    simp
  rw [rxBytesWord, BitVec.toNat_append, hHigh, hLow, ← Nat.shiftLeft_add_eq_or_of_lt hBuf, Nat.shiftLeft_eq]
  omega

/-- Settles O24: under the invariant each number fits its field. -/
theorem viewsShowWholeNumbers : Obligations.ViewsShowWholeNumbers := fun _ h =>
  have ⟨hBuf, hBits⟩ := rxBuf_length_lt_and_rxBitcnt_lt h
  ⟨lengthField_nine_toNat h.stageLength, lengthField_nine_toNat h.rdBuf.1,
    lengthField_nine_toNat ((Nat.sub_le _ _).trans h.rdBuf.1), toNat_ofNat_word (txCounter_lt h),
    toNat_ofNat_word (phase_lt h), toNat_ofNat_word (k_lt h), rxBytesWord_toNat hBuf hBits⟩

end Sys2Proof.Machine
end

section
/-! SUPPORT. The AUDIO step (R151): it is a tick of the framer, in a state that differs by what the driver wrote; so what
it plays, and what the framer publishes, each follow from one equation. -/

namespace Sys2Proof.Machine

open Sys2Proof.Claims

theorem capture_frame (input : List Word) (s : State) :
    ∃ capq capDrop, capture input s = { s with capq := capq, capDrop := capDrop } := by
  obtain ⟨-, -, h⟩ | ⟨-, -, h⟩ | ⟨-, h⟩ := capture_cases input s
  · exact ⟨_, s.capDrop, h⟩
  · exact ⟨s.capq, _, h⟩
  · exact ⟨s.capq, s.capDrop, h⟩

/-- The state with what the driver writes in an AUDIO step, the mailbox apart: nothing that a tick of the framer reads. -/
def State.withDriver (s : State) (curSym : Bool) (played : List Word × Nat) (capq : List (List Word)) (capDrop : Word)
    (bufCount : Word) (draws : Nat) : State :=
  { s with
    curSym := curSym
    phase := played.2
    out := .audio played.1
    capq := capq
    capDrop := capDrop
    bufCount := bufCount
    draws := draws }

theorem framerAdvance_withDriver (s : State) (mbox : Option Bool) (curSym : Bool) (played : List Word × Nat)
    (capq : List (List Word)) (capDrop : Word) (bufCount : Word) (draws : Nat) :
    framerAdvance ({ s with mbox := mbox }.withDriver curSym played capq capDrop bufCount draws) =
      { framerAdvance s with mbox := mbox }.withDriver curSym played capq capDrop bufCount draws := by
  obtain ⟨hState, h, hCase⟩ | ⟨_, _, hState, h, hCase⟩ | ⟨hState, h, hCase⟩ | ⟨hState, h, hCase⟩ | ⟨hState, h, hCase⟩
    | ⟨hState, h, hCase⟩ := framerAdvance_cases s <;> rw [hCase]
  all_goals simp [framerAdvance, State.withDriver, hState, h]

/-- A tick does not look at the driver, and it overwrites the mailbox. -/
theorem framerTick_withDriver (s : State) (mbox : Option Bool) (curSym : Bool) (played : List Word × Nat)
    (capq : List (List Word)) (capDrop : Word) (bufCount : Word) (draws : Nat) :
    framerTick ({ s with mbox := mbox }.withDriver curSym played capq capDrop bufCount draws) =
      (framerTick s).withDriver curSym played capq capDrop bufCount draws := by
  rw [framerTick, framerAdvance_withDriver]
  rfl

/-- What an AUDIO step of a started block does, with its input complete and so many draws counted. -/
theorem audioStep_eq (input : List Word) (s : State) (draws : Nat) :
    audioStep input { s with draws := draws } = (framerTick s).withDriver (s.mbox.getD s.curSym)
      (synthFrom s.cfg (s.mbox.getD s.curSym) s.cfg.nbuf s.phase) (capture input s).capq (capture input s).capDrop
      (s.bufCount + 1) draws := by
  have hDraws : capture input { s with draws := draws } = { capture input s with draws := draws } := by
    unfold capture
    split_ifs <;> rfl
  obtain ⟨capq, capDrop, hCapture⟩ := capture_frame input s
  rw [← framerTick_withDriver s none, audioStep, adopt_eq, synth_eq, hDraws, hCapture]
  rfl

/-- Settles O40: the fields by `audioStep_eq`, and the rest by the frame of a tick. -/
theorem audioStepPlaysThenTicks : Obligations.AudioStepPlaysThenTicks := fun s input hStarted hInput => by
  refine ⟨audioStep input s, ?_, ?_⟩
  · rw [runEvent, audioTurn, if_pos hStarted, completeInput_of_le hInput]
  · rw [show audioStep input s = _ from audioStep_eq input s s.draws]
    refine ⟨rfl, rfl, rfl, rfl, rfl, rfl, rfl, rfl, rfl, rfl, rfl, rfl, rfl, ?_⟩
    obtain ⟨t, hTick⟩ := framerTick_frame s
    rw [hTick]
    rfl

/-! ## A turn of AUDIO, whatever its input -/

/-- In a started block a turn is a tick, and the driver has adopted the mailbox's symbol. -/
theorem audioTurn_of_started {s : State} (h : s.started = true) (input : List Word) :
    ∃ played capq capDrop draws, audioTurn input s =
      (framerTick s).withDriver (s.mbox.getD s.curSym) played capq capDrop (s.bufCount + 1) draws := by
  obtain ⟨-, -, d, hInput⟩ := completeInput_spec s input
  rw [audioTurn, if_pos h, hInput, audioStep_eq]
  exact ⟨_, _, _, d, rfl⟩

theorem audioTurn_of_not_started {s : State} (h : s.started = false) (input : List Word) : audioTurn input s = s :=
  if_neg (ne_true_of_eq_false h)

@[simp] theorem audioTurn_started (input : List Word) (s : State) : (audioTurn input s).started = s.started := by
  cases h : s.started
  · rw [audioTurn_of_not_started h, h]
  · obtain ⟨_, _, _, _, hTurn⟩ := audioTurn_of_started h input
    obtain ⟨_, hTick⟩ := framerTick_frame s
    rw [hTurn, hTick]
    exact h

/-- An AUDIO step writes the driver, the framer, the capture FIFO, its counters and what it shows. -/
theorem audioTurn_frame (input : List Word) (s : State) :
    ∃ t : State, audioTurn input s = { s with
      curSym := t.curSym, phase := t.phase, capq := t.capq, capDrop := t.capDrop, mbox := t.mbox, lastSym := t.lastSym,
      txState := t.txState, txCounter := t.txCounter, txFrame := t.txFrame, txq := t.txq, txDone := t.txDone,
      bufCount := t.bufCount, draws := t.draws, out := t.out } := by
  by_cases h : s.started = true
  · obtain ⟨_, _, _, _, hTurn⟩ := audioTurn_of_started h input
    obtain ⟨_, hTick⟩ := framerTick_frame s
    refine ⟨audioTurn input s, ?_⟩
    rw [hTurn, hTick]
    rfl
  · exact ⟨s, audioTurn_of_not_started (Bool.eq_false_iff.mpr h) input⟩

/-- Settles O41: the second step adopts what it finds in the mailbox, the symbol of the first one's tick. -/
theorem publishedSymbolPlaysNextPeriod : Obligations.PublishedSymbolPlaysNextPeriod := fun s input1 input2 hStarted => by
  have hStarted' : (audioTurn input1 s).started = true := by rw [audioTurn_started, hStarted]
  obtain ⟨_, _, _, _, hSecond⟩ := audioTurn_of_started hStarted' input2
  obtain ⟨_, _, _, _, hFirst⟩ := audioTurn_of_started hStarted input1
  rw [hSecond, hFirst]
  rfl

/-! ## Synthesis (R153, R159) -/

/-- Settles O38: sample by sample; the phase after one sample is the start of the rest. -/
theorem synthPlaysTheTable : Obligations.SynthPlaysTheTable := fun c sym n p hp => by
  induction n generalizing p with
  | zero => simp [synthFrom, Nat.mod_eq_of_lt hp]
  | succ n ih =>
    have hShift (j : Nat) : ((p + 1) % c.tableLen + j) % c.tableLen = (p + (j + 1)) % c.tableLen := by
      rw [Nat.mod_add_mod, Nat.add_assoc, Nat.add_comm 1]
    rw [synthFrom, ih _ (Nat.mod_lt _ (by omega))]
    simp only [List.range_succ_eq_map, List.flatMap_cons, List.flatMap_map, hShift, Nat.add_zero, Nat.mod_eq_of_lt hp]
    rfl

end Sys2Proof.Machine
end

section
/-! SUPPORT. A queued frame on the air (R178): where the framer is at each of the `1 + L + 8F` ticks that publish it. -/

namespace Sys2Proof.Machine

open Sys2Proof.Claims

/-- What the ticks of one frame find: the framer before the bit of index `i` of the last symbol, the preamble and the
frame's bits; past the last bit it is Idle, and the frame is counted. -/
inductive FramerAt (c : Config) (frame : List Byte) (rest : List (List Byte)) (last : Bool) (done : Word) :
    Nat → State → Prop where
  | idle {s : State} (block : s.started = true ∧ s.cfg = c) (state : s.txState = .idle) (queue : s.txq = frame :: rest)
      (sym : s.lastSym = last) (count : s.txDone = done) : FramerAt c frame rest last done 0 s
  | preamble {s : State} {j : Nat} (hj : j < c.preambleLen) (block : s.started = true ∧ s.cfg = c)
      (state : s.txState = .sendingPreamble) (counter : s.txCounter = j)
      (data : s.txFrame = frame ∧ s.txq = rest ∧ s.txDone = done) : FramerAt c frame rest last done (1 + j) s
  | packet {s : State} {j : Nat} (hj : j < 8 * frame.length) (block : s.started = true ∧ s.cfg = c)
      (state : s.txState = .sendingPacket) (counter : s.txCounter = j)
      (data : s.txFrame = frame ∧ s.txq = rest ∧ s.txDone = done) :
      FramerAt c frame rest last done (1 + c.preambleLen + j) s
  | sent {s : State} (state : s.txState = .idle) (data : s.txFrame = [] ∧ s.txq = rest ∧ s.txDone = done + 1) :
      FramerAt c frame rest last done (1 + c.preambleLen + 8 * frame.length) s

/-- What goes out for a frame: the last symbol, the preamble, the frame's bits. -/
def airBits (c : Config) (frame : List Byte) (last : Bool) : List Bool := last :: (c.preamble ++ bitbuf frame)

section
variable {c : Config} {frame : List Byte} {rest : List (List Byte)} {last : Bool} {done : Word}
  (hPreamble : c.preamble.length = c.preambleLen) (hPos : 0 < c.preambleLen) (hFrame : 0 < frame.length)
include hPreamble

theorem airBits_length : (airBits c frame last).length = 1 + c.preambleLen + 8 * frame.length := by
  simp only [airBits, List.length_cons, List.length_append, length_bitbuf, hPreamble]
  omega

theorem airBits_preamble {j : Nat} (hj : j < c.preambleLen) : (airBits c frame last)[1 + j]? = c.preamble[j]? := by
  rw [airBits, Nat.add_comm, List.getElem?_cons_succ, List.getElem?_append_left (by omega)]

theorem airBits_packet (j : Nat) : (airBits c frame last)[1 + c.preambleLen + j]? = (bitbuf frame)[j]? := by
  rw [airBits, Nat.add_assoc, Nat.add_comm, List.getElem?_cons_succ, ← hPreamble,
    List.getElem?_append_right (Nat.le_add_right _ _), Nat.add_sub_cancel_left]

include hPos hFrame

/-- One period publishes the bit and goes on to the next. -/
theorem FramerAt.audioTurn {i : Nat} {s : State} (h : FramerAt c frame rest last done i s)
    (hi : i < 1 + c.preambleLen + 8 * frame.length) (input : List Word) :
    (airBits c frame last)[i]? = some (audioTurn input s).lastSym
      ∧ FramerAt c frame rest last done (i + 1) (audioTurn input s) := by
  cases h with
  | idle block state queue sym count =>
    obtain ⟨_, _, _, _, hTurn⟩ := audioTurn_of_started block.1 input
    rw [hTurn, framerTick_of_idle_of_cons state queue]
    exact ⟨congrArg some sym.symm, .preamble (j := 0) hPos block rfl rfl ⟨rfl, rfl, count⟩⟩
  | @preamble _ j hj block state counter data =>
    obtain ⟨_, _, _, _, hTurn⟩ := audioTurn_of_started block.1 input
    obtain ⟨b, hBit⟩ : ∃ b, c.preamble[j]? = some b := ⟨_, List.getElem?_eq_getElem (by omega)⟩
    have hBit' : s.cfg.preamble[s.txCounter]? = some b := by rw [block.2, counter, hBit]
    rw [hTurn, airBits_preamble hPreamble hj, hBit]
    by_cases hLast : j + 1 = c.preambleLen
    · rw [framerTick_of_preamble_ends state hBit' (by rw [block.2, counter, hLast])]
      refine ⟨rfl, ?_⟩
      rw [show 1 + j + 1 = 1 + c.preambleLen + 0 by omega]
      exact .packet (by omega) block rfl rfl data
    · rw [framerTick_of_preamble_continues state hBit' (by rwa [block.2, counter])]
      exact ⟨rfl, .preamble (j := j + 1) (by omega) block state (congrArg (· + 1) counter) data⟩
  | @packet _ j hj block state counter data =>
    obtain ⟨_, _, _, _, hTurn⟩ := audioTurn_of_started block.1 input
    obtain ⟨b, hBit⟩ : ∃ b, (bitbuf frame)[j]? = some b := ⟨_, List.getElem?_eq_getElem (by rwa [length_bitbuf])⟩
    have hBit' : (bitbuf s.txFrame)[s.txCounter]? = some b := by rw [data.1, counter, hBit]
    rw [hTurn, airBits_packet hPreamble, hBit]
    by_cases hLast : j + 1 = 8 * frame.length
    · rw [framerTick_of_packet_ends state hBit' (by rw [data.1, counter, hLast])]
      refine ⟨rfl, ?_⟩
      rw [Nat.add_assoc, hLast]
      exact .sent rfl ⟨rfl, data.2.1, congrArg (· + 1) data.2.2⟩
    · rw [framerTick_of_packet_continues state hBit' (by rwa [data.1, counter])]
      exact ⟨rfl, .packet (j := j + 1) (by omega) block state (congrArg (· + 1) counter) data⟩
  | sent state data => omega

/-- The periods up to the end of the frame publish what is left of it. -/
theorem FramerAt.periods {i : Nat} {s : State} (h : FramerAt c frame rest last done i s) (inputs : List (List Word))
    (hLength : i + inputs.length = 1 + c.preambleLen + 8 * frame.length) :
    published inputs s = (airBits c frame last).drop i
      ∧ FramerAt c frame rest last done (1 + c.preambleLen + 8 * frame.length) (periods inputs s) := by
  induction inputs generalizing i s with
  | nil =>
    obtain rfl : i = 1 + c.preambleLen + 8 * frame.length := hLength
    exact ⟨(List.drop_of_length_le (airBits_length hPreamble).le).symm, h⟩
  | cons input inputs ih =>
    rw [List.length_cons] at hLength
    obtain ⟨hBit, hNext⟩ := h.audioTurn hPreamble hPos hFrame (by omega) input
    obtain ⟨hRest, hEnd⟩ := ih hNext (by omega)
    obtain ⟨hi, hBit⟩ := List.getElem?_eq_some_iff.mp hBit
    rw [published, hRest, ← hBit, List.drop_eq_getElem_cons hi]
    exact ⟨rfl, hEnd⟩

end

theorem FramerAt.sent_of_end {c : Config} {frame : List Byte} {rest : List (List Byte)} {last : Bool} {done : Word}
    {s : State} (h : FramerAt c frame rest last done (1 + c.preambleLen + 8 * frame.length) s) :
    s.txState = .idle ∧ s.txq = rest ∧ s.txFrame = [] ∧ s.txDone = done + 1 := by
  generalize hEnd : 1 + c.preambleLen + 8 * frame.length = n at h
  cases h with
  | sent state data => exact ⟨state, data.2.1, data.1, data.2.2⟩
  | idle | preamble | packet => omega

/-- Settles O44: the block is where a frame starts, and `FramerAt` is kept through its periods. -/
theorem frameIsPublishedWhole : Obligations.FrameIsPublishedWhole := by
  intro s frame rest inputs hInv hStarted hState hQueue hInputs
  have hFrame : 0 < frame.length := by
    have hValid := (hInv.txqFrames frame (hQueue ▸ List.mem_cons_self)).length
    omega
  have hAt : FramerAt s.cfg frame rest s.lastSym s.txDone 0 s := .idle ⟨hStarted, rfl⟩ hState hQueue rfl rfl
  obtain ⟨hBits, hSent⟩ := hAt.periods (preamble_length_of_configWf hInv.config)
    (preambleLen_pos_of_configWf hInv.config) hFrame inputs (by omega)
  exact ⟨hBits, hSent.sent_of_end⟩

end Sys2Proof.Machine
end

section
/-! SUPPORT. The rules of the whole machine: what a command and a host transaction can write, and from it, with the frames
of the agents' steps, what every step keeps. -/

namespace Sys2Proof.Machine

/-! ## What the host can write -/

/-- What each command can write; START only while the block has neither started nor failed. -/
theorem exec_command_effects {c : Command} {s t : State} (h : exec c.toInstr s = .next t) :
    (c = .start ∧ t = { s with started := t.started, initFailed := t.initFailed, err := t.err, draws := t.draws }
        ∧ (s.started = true ∨ s.initFailed = true → t.started = s.started ∧ t.initFailed = s.initFailed))
      ∨ (∃ dest, c = .txSend dest ∧ t = { s with txq := t.txq, frameId := t.frameId, stage := t.stage, err := t.err })
      ∨ (c = .rxPop ∧ t = { s with rxq := t.rxq, rdBuf := t.rdBuf, rdPos := t.rdPos, err := t.err })
      ∨ t = { s with
          stage := t.stage, toneData := t.toneData, err := t.err, cksErr := t.cksErr, deserErr := t.deserErr,
          capDrop := t.capDrop, rxqDrop := t.rxqDrop, txDone := t.txDone, rxOk := t.rxOk, rxLastEvt := t.rxLastEvt } := by
  cases c with
  | nop | txClear | clrStats => cases h; exact .inr (.inr (.inr rfl))
  | start =>
    refine .inl ⟨rfl, ?_⟩
    obtain ⟨-, hCase⟩ | ⟨hStarted, hFailed, d, hCase | hCase⟩ := execStart_cases s <;> cases hCase.symm.trans h
    · exact ⟨rfl, fun _ => ⟨rfl, rfl⟩⟩
    · exact ⟨rfl, by simp [hStarted, hFailed]⟩
    · exact ⟨rfl, by simp [hStarted, hFailed]⟩
  | txSend dest =>
    refine .inr (.inl ⟨dest, rfl, ?_⟩)
    obtain ⟨-, hCase⟩ | ⟨-, hCase⟩ := execTxSend_cases dest s <;> cases hCase.symm.trans h <;> rfl
  | rxPop =>
    refine .inr (.inr (.inl ⟨rfl, ?_⟩))
    obtain ⟨-, hCase⟩ | ⟨_, _, -, hCase⟩ := execRxPop_cases s <;> cases hCase.symm.trans h <;> rfl
  | toneRead sym index =>
    refine .inr (.inr (.inr ?_))
    obtain ⟨-, hCase⟩ | ⟨-, hCase⟩ := execToneRead_cases sym index s <;> cases hCase.symm.trans h <;> rfl

/-- The transactions by what they can write: the four that write ERR (R265), and the others. -/
theorem exec_decodeBus_effects {txn : HostTxn} (hAddr : txn.addr < 64) {s t : State}
    (h : exec (decodeBus txn.selector txn.data) s = .next t) :
    (txn.write = true ∧ txn.addr = 0x02 ∧ (s.started = true → t.demodSel = s.demodSel)
        ∧ t = { s with captureEn := t.captureEn, demodSel := t.demodSel, err := t.err })
      ∨ (txn.write = true ∧ txn.addr = 0x03 ∧ decodeTxn txn = .ok (.wrCmd txn.data)
        ∧ ((∃ c, decodeCommand txn.data = some c ∧ exec c.toInstr s = .next t) ∨ t = { s with err := t.err }))
      ∨ (txn.write = true ∧ txn.addr = 0x07 ∧ t = { s with stage := t.stage, err := t.err })
      ∨ (txn.write = false ∧ txn.addr = 0x0D ∧ t = { s with rdPos := t.rdPos, err := t.err, out := t.out })
      ∨ t = { s with localId := t.localId, out := t.out } := by
  have hSame (k : BitVec 6) (hk : BitVec.ofNat 6 txn.addr = k) : txn.addr = k.toNat := by
    rw [← hk, BitVec.toNat_ofNat, Nat.mod_eq_of_lt hAddr]
  have hTxn : decodeTxn txn = .ok (decodeBus txn.selector txn.data) := if_pos hAddr
  obtain ⟨write, addr, data⟩ := txn
  dsimp only at *
  cases write
  · rw [show HostTxn.selector ⟨false, addr, data⟩ = 0#1 ++ BitVec.ofNat 6 addr from rfl, decodeBus_read] at h
    split_ifs at h with hRxdata
    · refine .inr (.inr (.inr (.inl ⟨rfl, hSame _ hRxdata, ?_⟩)))
      obtain ⟨-, hCase⟩ | ⟨-, hCase⟩ := execRdRxdata_cases s <;> cases hCase.symm.trans h <;> rfl
    · cases h; exact .inr (.inr (.inr (.inr rfl)))
    · cases h; exact .inr (.inr (.inr (.inr rfl)))
  · rw [show HostTxn.selector ⟨true, addr, data⟩ = 1#1 ++ BitVec.ofNat 6 addr from rfl, decodeBus_write] at h hTxn
    split_ifs at h hTxn with hCtrl hCmd hLocalId hTxdata
    · refine .inl ⟨rfl, hSame _ hCtrl, ?_⟩
      obtain ⟨-, -, hCase⟩ | ⟨hFree, hCase⟩ := execWrCtrl_cases data s <;> cases hCase.symm.trans h
      · exact ⟨fun _ => rfl, rfl⟩
      · refine ⟨fun hStarted => ?_, rfl⟩
        obtain hNot | hSel := hFree
        · cases hNot.symm.trans hStarted
        · exact hSel
    · refine .inr (.inl ⟨rfl, hSame _ hCmd, hTxn, ?_⟩)
      obtain ⟨c, hDecode, hCase⟩ | ⟨-, hCase⟩ := execWrCmd_cases data s
      · exact .inl ⟨c, hDecode, hCase.symm.trans h⟩
      · cases hCase.symm.trans h
        exact .inr rfl
    · cases h; exact .inr (.inr (.inr (.inr rfl)))
    · refine .inr (.inr (.inl ⟨rfl, hSame _ hTxdata, ?_⟩))
      obtain ⟨-, hCase⟩ | ⟨-, hCase⟩ := execWrTxdata_cases data s <;> cases hCase.symm.trans h <;> rfl
    · cases h; exact .inr (.inr (.inr (.inr rfl)))

/-- No transaction writes the configuration or BUF_COUNT. -/
theorem exec_decodeBus_keeps {txn : HostTxn} (hAddr : txn.addr < 64) {s t : State}
    (h : exec (decodeBus txn.selector txn.data) s = .next t) : t.cfg = s.cfg ∧ t.bufCount = s.bufCount := by
  obtain ⟨-, -, -, ht⟩ | ⟨-, -, -, ⟨c, -, hCommand⟩ | ht⟩ | ⟨-, -, ht⟩ | ⟨-, -, ht⟩ | ht :=
    exec_decodeBus_effects hAddr h
  case inr.inl.inl =>
    obtain ⟨-, ht, -⟩ | ⟨_, -, ht⟩ | ⟨-, ht⟩ | ht := exec_command_effects hCommand
    all_goals exact ⟨by rw [ht], by rw [ht]⟩
  all_goals exact ⟨by rw [ht], by rw [ht]⟩

/-! ## What taking an event, and an agent's step, leaves alone -/

section
variable (s : State)

@[simp] theorem takeEvent_cfg : (takeEvent s).cfg = s.cfg := by
  obtain ⟨_, _, h⟩ := takeEvent_frame s
  rw [h]

@[simp] theorem takeEvent_err : (takeEvent s).err = s.err := by
  obtain ⟨_, _, h⟩ := takeEvent_frame s
  rw [h]

@[simp] theorem takeEvent_started : (takeEvent s).started = s.started := by
  obtain ⟨_, _, h⟩ := takeEvent_frame s
  rw [h]

@[simp] theorem takeEvent_initFailed : (takeEvent s).initFailed = s.initFailed := by
  obtain ⟨_, _, h⟩ := takeEvent_frame s
  rw [h]

@[simp] theorem takeEvent_demodSel : (takeEvent s).demodSel = s.demodSel := by
  obtain ⟨_, _, h⟩ := takeEvent_frame s
  rw [h]

@[simp] theorem takeEvent_bufCount : (takeEvent s).bufCount = s.bufCount := by
  obtain ⟨_, _, h⟩ := takeEvent_frame s
  rw [h]

@[simp] theorem takeEvent_rxq : (takeEvent s).rxq = s.rxq := by
  obtain ⟨_, _, h⟩ := takeEvent_frame s
  rw [h]

end

/-- An agent's turn that is not the host's: a step of AUDIO or RX, or a bit fed to the synchronizer. -/
inductive AgentStep (s : State) : State → Prop where
  | audio (input : List Word) : AgentStep s (audioTurn input s)
  | rx : AgentStep s (rxStep s)
  | syncBit (b : Bool) : AgentStep s (syncBit b s)

/-- The registers the host owns: no agent writes them (R292). -/
theorem AgentStep.keeps {s t : State} (h : AgentStep s t) :
    t.cfg = s.cfg ∧ t.err = s.err ∧ t.started = s.started ∧ t.initFailed = s.initFailed ∧ t.demodSel = s.demodSel := by
  cases h with
  | audio input =>
    obtain ⟨_, hFrame⟩ := audioTurn_frame input s
    rw [hFrame]
    exact ⟨rfl, rfl, rfl, rfl, rfl⟩
  | rx =>
    obtain ⟨_, hFrame⟩ := rxStep_frame s
    rw [hFrame]
    exact ⟨rfl, rfl, rfl, rfl, rfl⟩
  | syncBit b =>
    obtain ⟨_, hFrame⟩ := syncBit_frame b s
    rw [hFrame]
    exact ⟨rfl, rfl, rfl, rfl, rfl⟩

theorem framerTick_txq_length_le (s : State) : (framerTick s).txq.length ≤ s.txq.length := by
  change (framerAdvance s).txq.length ≤ s.txq.length
  obtain ⟨-, -, h⟩ | ⟨frame, rest, -, hQueue, h⟩ | ⟨-, -, h⟩ | ⟨-, -, h⟩ | ⟨-, -, h⟩ | ⟨-, -, h⟩ :=
    framerAdvance_cases s <;> rw [h]
  rw [hQueue]
  exact Nat.le_succ _

theorem syncBit_rxq_length_le (b : Bool) (s : State) : s.rxq.length ≤ (syncBit b s).rxq.length := by
  obtain ⟨-, -, h⟩ | ⟨-, -, h⟩ | ⟨-, h⟩ := syncBit_cases b s <;> rw [h]
  obtain ⟨-, h⟩ | ⟨-, -, h⟩ | ⟨-, -, h⟩ := assemble_cases b s <;> rw [h]
  rw [frameDone]
  obtain hJudge | hJudge | ⟨-, hJudge⟩ | ⟨_, -, -, -, hJudge⟩ := judgeFrame_cases
    { s with rxBuf := s.rxBuf ++ [shiftIn s.rxCur b], rxCur := 0x00#8, rxBitcnt := 0 } <;> rw [hJudge]
  exact (List.prefix_append _ _).length_le

/-- No agent makes TXQ longer or RXQ shorter (R326). -/
theorem AgentStep.queues {s t : State} (h : AgentStep s t) :
    t.txq.length ≤ s.txq.length ∧ s.rxq.length ≤ t.rxq.length := by
  cases h with
  | audio input =>
    refine ⟨?_, ?_⟩
    · by_cases hStarted : s.started = true
      · obtain ⟨_, _, _, _, hTurn⟩ := audioTurn_of_started hStarted input
        rw [hTurn]
        exact framerTick_txq_length_le s
      · rw [audioTurn_of_not_started (Bool.eq_false_iff.mpr hStarted)]
    · obtain ⟨_, hFrame⟩ := audioTurn_frame input s
      rw [hFrame]
  | rx =>
    refine ⟨?_, ?_⟩
    · obtain ⟨_, hFrame⟩ := rxStep_frame s
      rw [hFrame]
    · obtain ⟨-, hStep⟩ | ⟨cap, rest, -, -, hStep⟩ | ⟨cap, rest, b, -, -, hStep⟩ := rxStep_cases s <;> rw [hStep]
      all_goals obtain ⟨_, _, hDemod⟩ := demodulate_frame cap { s with capq := rest }
      · rw [hDemod]
      · have hFed := syncBit_rxq_length_le b (demodulate cap { s with capq := rest }).2
        rwa [hDemod] at hFed ⊢
  | syncBit b =>
    refine ⟨?_, syncBit_rxq_length_le b s⟩
    obtain ⟨_, hFrame⟩ := syncBit_frame b s
    rw [hFrame]

/-- Every step that completes is the host's, an agent's, or a reset. -/
theorem step_kinds {s t : State} (h : step s = .next t) :
    (∃ txn, nextEvent s = .host txn ∧ txn.addr < 64 ∧ exec (decodeBus txn.selector txn.data) (takeEvent s) = .next t)
      ∨ AgentStep (takeEvent s) t
      ∨ (nextEvent s = .reset ∧ t = (takeEvent s).resetBlock) := by
  obtain hHost | ⟨input, -, rfl⟩ | ⟨-, rfl⟩ | ⟨b, -, rfl⟩ | hReset := step_cases h
  · exact .inl hHost
  · exact .inr (.inl (.audio input))
  · exact .inr (.inl .rx)
  · exact .inr (.inl (.syncBit b))
  · exact .inr (.inr hReset)

/-! ## The statements about every step -/

/-- Settles O25. -/
theorem configurationNeverChanges : Obligations.ConfigurationNeverChanges := fun s t h => by
  obtain ⟨txn, -, hAddr, hExec⟩ | hAgent | ⟨-, rfl⟩ := step_kinds h
  · rw [(exec_decodeBus_keeps hAddr hExec).1, takeEvent_cfg]
  · rw [hAgent.keeps.1, takeEvent_cfg]
  · rw [State.resetBlock_cfg, takeEvent_cfg]

/-- Settles O26: the agents keep ERR, and so do the transactions other than the four listed. -/
theorem onlyListedAccessesWriteErr : Obligations.OnlyListedAccessesWriteErr := fun s t h hReset hErr => by
  rw [← takeEvent_err s] at hErr
  obtain ⟨txn, hEvent, hAddr, hExec⟩ | hAgent | ⟨hEvent, -⟩ := step_kinds h
  · refine ⟨txn, hEvent, ?_⟩
    obtain ⟨hWrite, hAt, -⟩ | ⟨hWrite, hAt, -⟩ | ⟨hWrite, hAt, -⟩ | ⟨hWrite, hAt, -⟩ | ht :=
      exec_decodeBus_effects hAddr hExec
    · exact .inl ⟨hWrite, .inl hAt⟩
    · exact .inl ⟨hWrite, .inr (.inl hAt)⟩
    · exact .inl ⟨hWrite, .inr (.inr hAt)⟩
    · exact .inr ⟨hWrite, hAt⟩
    · exact absurd (by rw [ht]) hErr
  · exact absurd hAgent.keeps.2.1 hErr
  · exact absurd hEvent hReset

/-- A turn of AUDIO counts a period of a started block, and no other. -/
theorem audioTurn_bufCount (input : List Word) (s : State) :
    (audioTurn input s).bufCount = if s.started then s.bufCount + 1 else s.bufCount := by
  split
  · obtain ⟨_, _, _, _, hTurn⟩ := audioTurn_of_started ‹_› input
    rw [hTurn]
    rfl
  · rw [audioTurn_of_not_started (Bool.eq_false_iff.mpr ‹_›)]

/-- Settles O28: BUF_COUNT event by event. -/
theorem bufCountCountsPeriods : Obligations.BufCountCountsPeriods := fun s t h => by
  obtain ⟨txn, hEvent, hAddr, hExec⟩ | ⟨input, hEvent, rfl⟩ | ⟨hEvent, rfl⟩ | ⟨b, hEvent, rfl⟩ | ⟨hEvent, rfl⟩ :=
    step_cases h
  · simp [hEvent, (exec_decodeBus_keeps hAddr hExec).2]
  · simp +contextual [hEvent, audioTurn_bufCount]
  · obtain ⟨_, hFrame⟩ := rxStep_frame (takeEvent s)
    simp [hEvent, hFrame]
  · obtain ⟨_, hFrame⟩ := syncBit_frame b (takeEvent s)
    simp [hEvent, hFrame]
  · simp [hEvent]

/-- A transaction neither stops a block nor retries its START, and a started block keeps its demodulator. -/
theorem exec_decodeBus_started {txn : HostTxn} (hAddr : txn.addr < 64) {s t : State}
    (h : exec (decodeBus txn.selector txn.data) s = .next t) :
    (s.started = true → t.started = true ∧ t.demodSel = s.demodSel)
      ∧ (s.initFailed = true → s.started = false → t.initFailed = true ∧ t.started = false) := by
  have hKept (hStarted : t.started = s.started) (hFailed : t.initFailed = s.initFailed)
      (hSel : s.started = true → t.demodSel = s.demodSel) :
      (s.started = true → t.started = true ∧ t.demodSel = s.demodSel)
        ∧ (s.initFailed = true → s.started = false → t.initFailed = true ∧ t.started = false) :=
    ⟨fun h => ⟨hStarted.trans h, hSel h⟩, fun hf hs => ⟨hFailed.trans hf, hStarted.trans hs⟩⟩
  obtain ⟨-, -, hSel, ht⟩ | ⟨-, -, -, ⟨c, -, hCommand⟩ | ht⟩ | ⟨-, -, ht⟩ | ⟨-, -, ht⟩ | ht :=
    exec_decodeBus_effects hAddr h
  · exact hKept (by rw [ht]) (by rw [ht]) hSel
  · obtain ⟨-, ht, hLate⟩ | ⟨_, -, ht⟩ | ⟨-, ht⟩ | ht := exec_command_effects hCommand
    · have hSel : t.demodSel = s.demodSel := by rw [ht]
      exact ⟨fun hs => ⟨(hLate (.inl hs)).1.trans hs, hSel⟩,
        fun hf hs => ⟨(hLate (.inr hf)).2.trans hf, (hLate (.inr hf)).1.trans hs⟩⟩
    all_goals
      exact hKept (by rw [ht]) (by rw [ht]) fun _ => by rw [ht]
  all_goals
    exact hKept (by rw [ht]) (by rw [ht]) fun _ => by rw [ht]

/-- Settles O29: the agents keep the three fields, and the host by `exec_decodeBus_started`. -/
theorem onlyResetStopsTheBlock : Obligations.OnlyResetStopsTheBlock := fun s t h hReset => by
  rw [← takeEvent_started s, ← takeEvent_initFailed s, ← takeEvent_demodSel s]
  obtain ⟨txn, -, hAddr, hExec⟩ | hAgent | ⟨hEvent, -⟩ := step_kinds h
  · exact exec_decodeBus_started hAddr hExec
  · obtain ⟨-, -, hStarted, hFailed, hSel⟩ := hAgent.keeps
    rw [hStarted, hFailed, hSel]
    exact ⟨fun hs => ⟨hs, rfl⟩, fun hf hs => ⟨hf, hs⟩⟩
  · exact absurd hEvent hReset

/-- A transaction that moves a queue is the write of its owner's command (R326). -/
theorem exec_decodeBus_queues {txn : HostTxn} (hAddr : txn.addr < 64) {s t : State}
    (h : exec (decodeBus txn.selector txn.data) s = .next t) :
    (t.txq ≠ s.txq → decodeTxn txn = .ok (.wrCmd txn.data) ∧ ∃ dest, decodeCommand txn.data = some (.txSend dest))
      ∧ (t.rxq ≠ s.rxq → decodeTxn txn = .ok (.wrCmd txn.data) ∧ decodeCommand txn.data = some .rxPop) := by
  obtain ⟨-, -, -, ht⟩ | ⟨-, -, hTxn, ⟨c, hDecode, hCommand⟩ | ht⟩ | ⟨-, -, ht⟩ | ⟨-, -, ht⟩ | ht :=
    exec_decodeBus_effects hAddr h
  case inr.inl.inl =>
    obtain ⟨-, ht, -⟩ | ⟨dest, rfl, ht⟩ | ⟨rfl, ht⟩ | ht := exec_command_effects hCommand
    · exact ⟨fun hMoved => absurd (by rw [ht]) hMoved, fun hMoved => absurd (by rw [ht]) hMoved⟩
    · exact ⟨fun _ => ⟨hTxn, dest, hDecode⟩, fun hMoved => absurd (by rw [ht]) hMoved⟩
    · exact ⟨fun hMoved => absurd (by rw [ht]) hMoved, fun _ => ⟨hTxn, hDecode⟩⟩
    · exact ⟨fun hMoved => absurd (by rw [ht]) hMoved, fun hMoved => absurd (by rw [ht]) hMoved⟩
  all_goals
    exact ⟨fun hMoved => absurd (by rw [ht]) hMoved, fun hMoved => absurd (by rw [ht]) hMoved⟩

/-- Settles O30: the agents move the queues the other way, and the host by `exec_decodeBus_queues`. -/
theorem queuesMoveOnlyForTheirOwners : Obligations.QueuesMoveOnlyForTheirOwners := fun s t h => by
  rw [← takeEvent_txq s, ← takeEvent_rxq s]
  obtain ⟨txn, hEvent, hAddr, hExec⟩ | hAgent | ⟨hEvent, rfl⟩ := step_kinds h
  · obtain ⟨hTxq, hRxq⟩ := exec_decodeBus_queues hAddr hExec
    refine ⟨fun hGrew => ?_, fun hShrank => ?_⟩
    · obtain ⟨hTxn, dest, hSend⟩ := hTxq fun hSame => absurd hGrew (hSame ▸ Nat.lt_irrefl _)
      exact ⟨txn, dest, hEvent, hTxn, hSend⟩
    · obtain ⟨hTxn, hPop⟩ := hRxq fun hSame => absurd hShrank (hSame ▸ Nat.lt_irrefl _)
      exact .inr ⟨txn, hEvent, hTxn, hPop⟩
  · obtain ⟨hTxq, hRxq⟩ := hAgent.queues
    exact ⟨fun hGrew => absurd hGrew (Nat.not_lt.mpr hTxq), fun hShrank => absurd hShrank (Nat.not_lt.mpr hRxq)⟩
  · exact ⟨fun hGrew => absurd hGrew (Nat.not_lt_zero _), fun _ => .inl hEvent⟩

/-! ## Which steps complete -/

/-- A drawn transaction's address is cut to 6 bits. -/
theorem drawnEvent_addr_lt {n : Nat} {txn : HostTxn} (h : drawnEvent n = .host txn) : txn.addr < 64 := by
  unfold drawnEvent at h
  split at h <;> cases h
  exact Nat.mod_lt _ (by decide)

/-- Settles O7: of the events a wide transaction alone is refused, and no such one is drawn. -/
theorem onlyWideAddressesAreRefused : Obligations.OnlyWideAddressesAreRefused := fun s => by
  cases hEvent : nextEvent s with
  | host txn =>
    have hStep : step s = hostStep txn (takeEvent s) := by rw [step, hEvent, runEvent]
    obtain ⟨-, -, hRun⟩ | ⟨hWide, hRefused⟩ := hostStep_cases txn (takeEvent s)
    · obtain ⟨t, hExec⟩ := everyAccessCompletes (decodeBus txn.selector txn.data) (takeEvent s)
      exact .inl ⟨t, (hStep.trans hRun).trans hExec⟩
    · refine .inr ⟨txn, ?_⟩
      cases hSchedule : s.schedule with
      | nil =>
        simp only [nextEvent, hSchedule] at hEvent
        exact absurd hWide (Nat.not_le.mpr (drawnEvent_addr_lt hEvent))
      | cons e rest =>
        simp only [nextEvent, hSchedule] at hEvent
        exact ⟨rest, by rw [hEvent], hWide, hStep.trans hRefused⟩
  | audio _ | rx | syncBit _ | reset => exact .inl ⟨_, by rw [step, hEvent, runEvent]⟩

end Sys2Proof.Machine
end

section
/-! SUPPORT. The RX step (R221): what it does with its capture under each demodulator, and that no agent looks at the
stage (R90). -/

namespace Sys2Proof.Machine

/-! ## A bit by the synchronizer's state (R227) -/

section
variable {s : State} {b : Bool}

theorem syncBit_of_lock (hState : s.rxState = .searchingPreamble)
    (hLock : matchStep s.cfg.preamble s.k b = s.cfg.preambleLen) :
    syncBit b s = { s with rxState := .receivingPacket, k := 0, rxBuf := [], rxCur := 0x00#8, rxBitcnt := 0 } := by
  simp only [syncBit, hState, if_pos hLock]

theorem syncBit_of_search (hState : s.rxState = .searchingPreamble)
    (hMore : matchStep s.cfg.preamble s.k b ≠ s.cfg.preambleLen) :
    syncBit b s = { s with k := matchStep s.cfg.preamble s.k b } := by
  simp only [syncBit, hState, if_neg hMore]

theorem syncBit_of_receiving (hState : s.rxState = .receivingPacket) : syncBit b s = assemble b s := by
  rw [syncBit, hState]

end

/-! ## The RX step by its demodulator -/

theorem rxStep_of_nil {s : State} (h : s.capq = []) : rxStep s = s := by
  rw [rxStep, h]

/-- Settles O32: a turn that finds its agent disabled passes. -/
theorem disabledAgentsTakeNoStep : Obligations.DisabledAgentsTakeNoStep := fun _ =>
  ⟨fun input hStarted => congrArg _ (audioTurn_of_not_started hStarted input),
    fun hQueue => congrArg _ (rxStep_of_nil hQueue)⟩

/-- Settles O53: by the frame of an RX step. -/
theorem rxStepWritesTheReceiverOnly : Obligations.RxStepWritesTheReceiverOnly := fun s => by
  refine ⟨rxStep s, rfl, ?_⟩
  obtain ⟨_, hFrame⟩ := rxStep_frame s
  rw [hFrame]

section
variable {s : State} {cap : List Word} {rest : List (List Word)} (hQueue : s.capq = cap :: rest)
include hQueue

theorem rxStep_of_threshold (hSel : s.demodSel = false) :
    rxStep s = syncBit (Config.threshDecide s.cfg.threshRule cap) { s with capq := rest } := by
  simp only [rxStep, hQueue, demodulate, hSel]
  rfl

variable (hSel : s.demodSel = true)
include hSel

/-- A window that is not full yet yields no bit. -/
theorem rxStep_of_open_window (hOpen : (slideWindow s.cfg s.win cap).length ≠ s.cfg.winLen) :
    rxStep s = { s with capq := rest, win := slideWindow s.cfg s.win cap } := by
  simp only [rxStep, hQueue, demodulate, hSel, if_true, spectral, if_neg hOpen]

/-- A full window yields the decision's bit, or a drawn one where R225 leaves it open. -/
theorem rxStep_of_full_window (hFull : (slideWindow s.cfg s.win cap).length = s.cfg.winLen) :
    ∃ b d, (∀ v, decideWindow s.cfg (slideWindow s.cfg s.win cap) = .symbol v → b = v ∧ d = s.draws)
      ∧ rxStep s = syncBit b { s with capq := rest, win := slideWindow s.cfg s.win cap, draws := d } := by
  obtain ⟨hOpen, -⟩ | ⟨b, -, hDecision, hSpectral⟩ | ⟨b, -, hDraw, hSpectral⟩ := spectral_cases cap { s with capq := rest }
  · exact absurd hFull hOpen
  · refine ⟨b, s.draws, fun v hv => ⟨?_, rfl⟩, ?_⟩
    · cases hDecision.symm.trans hv
      rfl
    · rw [rxStep, hQueue]
      dsimp only
      rw [demodulate, if_pos hSel, hSpectral]
  · refine ⟨b, s.draws + 1, fun v hv => ?_, ?_⟩
    · cases hDraw.symm.trans hv
    · rw [rxStep, hQueue]
      dsimp only
      rw [demodulate, if_pos hSel, hSpectral]

end

/-- Settles O49. -/
theorem thresholdStepFeedsOneBit : Obligations.ThresholdStepFeedsOneBit := fun _ _ _ hSel hQueue =>
  congrArg _ (rxStep_of_threshold hQueue hSel)

/-- Settles O50: the capture is a whole buffer, so the window grows, fills or slides by one. -/
theorem spectralStepSlidesTheWindow : Obligations.SpectralStepSlidesTheWindow := by
  intro s cap rest hInv hSel hQueue
  have hCap : cap.length = s.cfg.nbuf := (inv_pop_capq hInv hQueue).2.1
  have hNbuf := nbuf_pos_of_configWf hInv.config
  have hGrow (hRoom : s.win.length + s.cfg.nbuf ≤ s.cfg.winBufs * s.cfg.nbuf) :
      slideWindow s.cfg s.win cap = s.win ++ cap :=
    if_neg (by rw [List.length_append, hCap, Config.winLen]; omega)
  refine ⟨fun hOpen => ?_, fun hFills => ?_, fun hFull => ?_⟩
  · have hSlide := hGrow hOpen.le
    rw [runEvent, rxStep_of_open_window hQueue hSel (by rw [hSlide, List.length_append, hCap]; exact hOpen.ne), hSlide]
  · have hSlide := hGrow hFills.le
    obtain ⟨b, d, hBit, hStep⟩ := rxStep_of_full_window hQueue hSel
      (by rw [hSlide, List.length_append, hCap]; exact hFills)
    rw [hSlide] at hBit hStep
    exact ⟨b, d, hBit, congrArg _ hStep⟩
  · have hSlide : slideWindow s.cfg s.win cap = s.win.drop s.cfg.nbuf ++ cap := by
      have hLong : s.cfg.nbuf ≤ s.win.length := by
        have := (configWf_iff s.cfg).mp hInv.config
        rw [hFull]
        exact Nat.le_mul_of_pos_left _ (by omega)
      rw [slideWindow, if_pos (by rw [List.length_append, hCap, Config.winLen]; omega),
        List.drop_append_of_le_length hLong]
    have hLength : (slideWindow s.cfg s.win cap).length = s.cfg.winLen := by
      rw [slideWindow, if_pos (by rw [List.length_append, hCap, Config.winLen]; omega), List.length_drop,
        List.length_append, hCap, Nat.add_sub_cancel, hFull, Config.winLen]
    obtain ⟨b, d, hBit, hStep⟩ := rxStep_of_full_window hQueue hSel hLength
    rw [hSlide] at hBit hStep
    exact ⟨b, d, hBit, congrArg _ hStep⟩

/-! ## The stage is the host's alone (R90): each operation of an agent commutes with a write of it -/

section
variable (s : State) (x : List Byte)

theorem framerTick_stage : framerTick { s with stage := x } = { framerTick s with stage := x } := by
  rw [framerTick, framerTick]
  obtain ⟨hState, h, hCase⟩ | ⟨_, _, hState, h, hCase⟩ | ⟨hState, h, hCase⟩ | ⟨hState, h, hCase⟩ | ⟨hState, h, hCase⟩
    | ⟨hState, h, hCase⟩ := framerAdvance_cases s <;> rw [hCase]
  all_goals simp [framerAdvance, framerSymbol, hState, h]

theorem capture_stage (input : List Word) : capture input { s with stage := x } = { capture input s with stage := x } := by
  unfold capture
  split_ifs <;> rfl

theorem completeInput_stage (input : List Word) :
    State.completeInput { s with stage := x } input =
      ((s.completeInput input).1, { (s.completeInput input).2 with stage := x }) := by
  unfold State.completeInput
  split_ifs <;> rfl

theorem audioStep_stage (input : List Word) :
    audioStep input { s with stage := x } = { audioStep input s with stage := x } := by
  have hOne := audioStep_eq input { s with stage := x } s.draws
  have hOther := audioStep_eq input s s.draws
  rw [framerTick_stage, capture_stage] at hOne
  exact hOne.trans (congrArg (fun t : State => { t with stage := x }) hOther).symm

theorem audioTurn_stage (input : List Word) :
    audioTurn input { s with stage := x } = { audioTurn input s with stage := x } := by
  unfold audioTurn
  rw [completeInput_stage]
  split
  · exact audioStep_stage _ x _
  · rfl

theorem frameDone_stage : frameDone { s with stage := x } = { frameDone s with stage := x } := by
  unfold frameDone judgeFrame
  dsimp only
  cases decodeFrame s.cfg s.rxBuf with
  | packet p => dsimp only; split_ifs <;> rfl
  | checksumMismatch | deserializeError => rfl

theorem assemble_stage (b : Bool) : assemble b { s with stage := x } = { assemble b s with stage := x } := by
  unfold assemble
  dsimp only
  split_ifs
  · exact frameDone_stage { s with rxBuf := s.rxBuf ++ [shiftIn s.rxCur b], rxCur := 0x00#8, rxBitcnt := 0 } x
  · rfl
  · rfl

theorem syncBit_stage (b : Bool) : syncBit b { s with stage := x } = { syncBit b s with stage := x } := by
  obtain ⟨hState, hLock, hCase⟩ | ⟨hState, hMore, hCase⟩ | ⟨hState, hCase⟩ := syncBit_cases b s <;> rw [hCase]
  · exact syncBit_of_lock (s := { s with stage := x }) hState hLock
  · exact syncBit_of_search (s := { s with stage := x }) hState hMore
  · rw [syncBit_of_receiving (s := { s with stage := x }) hState, assemble_stage]

theorem demodulate_stage (cap : List Word) :
    demodulate cap { s with stage := x } = ((demodulate cap s).1, { (demodulate cap s).2 with stage := x }) := by
  unfold demodulate spectral
  dsimp only
  split_ifs
  · cases decideWindow s.cfg (slideWindow s.cfg s.win cap) <;> rfl
  · rfl
  · rfl

theorem rxStep_stage : rxStep { s with stage := x } = { rxStep s with stage := x } := by
  rcases eq_or_ne s.capq [] with hQueue | hQueue
  · rw [rxStep_of_nil hQueue]
    exact rxStep_of_nil (s := { s with stage := x }) hQueue
  · obtain ⟨cap, rest, hQueue⟩ := List.exists_cons_of_ne_nil hQueue
    have hDemod := demodulate_stage { s with capq := rest } x cap
    dsimp only at hDemod
    simp only [rxStep, hQueue, hDemod]
    obtain ⟨bit, t⟩ := demodulate cap { s with capq := rest }
    cases bit with
    | none => rfl
    | some b => exact syncBit_stage t x b

end

/-- Settles O31: the three agents' steps commute with a write of the stage, and their frames leave it out. -/
theorem agentsDoNotSeeTheStage : Obligations.AgentsDoNotSeeTheStage := fun e s x hHost hReset => by
  cases e with
  | host txn => exact absurd rfl (hHost txn)
  | reset => exact absurd rfl hReset
  | audio input =>
    obtain ⟨_, hFrame⟩ := audioTurn_frame input s
    exact ⟨audioTurn input s, rfl, by rw [hFrame], congrArg _ (audioTurn_stage s x input)⟩
  | rx =>
    obtain ⟨_, hFrame⟩ := rxStep_frame s
    exact ⟨rxStep s, rfl, by rw [hFrame], congrArg _ (rxStep_stage s x)⟩
  | syncBit b =>
    obtain ⟨_, hFrame⟩ := syncBit_frame b s
    exact ⟨syncBit b s, rfl, by rw [hFrame], congrArg _ (syncBit_stage s x b)⟩

end Sys2Proof.Machine
end

section
/-! SUPPORT. The preamble detector (R231, R232): the failure-function matcher finds the longest prefix of the pattern
that the bits end with, so the synchronizer locks where the pattern ends for the first time. -/

namespace Sys2Proof.Machine

open Sys2Proof.Claims

/-! ## Prefixes of a pattern that a list of bits ends with -/

/-- A prefix one longer ends the bits one longer when its last bit is the new one. -/
theorem take_succ_suffix_concat_iff {pattern bits : List Bool} {j : Nat} (hj : j < pattern.length) (b : Bool) :
    pattern.take (j + 1) <:+ bits ++ [b] ↔ pattern.take j <:+ bits ∧ pattern.getD j false = b := by
  have hGet : pattern.getD j false = pattern[j] := by simp [hj]
  rw [← List.take_concat_get' pattern j hj, hGet,
    List.suffix_append_inj_of_length_eq (s₁ := [pattern[j]]) (s₂ := [b]) rfl, List.singleton_inj]

theorem isBorder_iff_suffix {pattern : List Bool} {n j : Nat} (hj : j ≤ n) (hn : n ≤ pattern.length) :
    isBorder pattern n j = true ↔ pattern.take j <:+ pattern.take n := by
  rw [isBorder_iff, List.suffix_iff_eq_drop, List.length_take_of_le hn, List.length_take_of_le (hj.trans hn)]

theorem failure_lt (pattern : List Bool) {k : Nat} (hk : 0 < k) : failure pattern (k - 1) < k := by
  have := failure_le pattern (k - 1)
  omega

/-- R231: `FAIL[k-1]` is a prefix that the first `k` bits end with. -/
theorem failure_suffix {pattern : List Bool} {k : Nat} (hk : 0 < k) (hLength : k ≤ pattern.length) :
    pattern.take (failure pattern (k - 1)) <:+ pattern.take k := by
  obtain ⟨-, hBorder, -⟩ := largestBorder_spec pattern k k hk
  have hLt := failure_lt pattern hk
  rw [failure, Nat.sub_add_cancel hk] at hLt ⊢
  obtain hZero | hBorder := hBorder
  · simp [hZero]
  · exact (isBorder_iff_suffix hLt.le hLength).mp hBorder

/-- R231: and it is the longest one shorter than `k`. -/
theorem le_failure {pattern : List Bool} {k j : Nat} (hLength : k ≤ pattern.length) (hj : j < k)
    (h : pattern.take j <:+ pattern.take k) : j ≤ failure pattern (k - 1) := by
  obtain ⟨-, -, hLargest⟩ := largestBorder_spec pattern k k (by omega)
  rw [failure, Nat.sub_add_cancel (by omega)]
  exact hLargest j hj ((isBorder_iff_suffix hj.le hLength).mpr h)

/-- The longest prefix that the first `k` bits end with and that `b` continues, if one does: what falling back finds. -/
structure IsFallBack (pattern : List Bool) (b : Bool) (k r : Nat) : Prop where
  le : r ≤ k
  suffix : pattern.take r <:+ pattern.take k
  stops : pattern.getD r false = b ∨ r = 0
  longest : ∀ j ≤ k, pattern.take j <:+ pattern.take k → pattern.getD j false = b → j ≤ r

theorem fallBack_isFallBack {pattern : List Bool} (b : Bool) (fuel : Nat) {k : Nat} (hFuel : k ≤ fuel)
    (hk : k < pattern.length) : IsFallBack pattern b k (fallBack pattern b fuel k) := by
  induction fuel generalizing k with
  | zero => exact ⟨le_rfl, List.suffix_rfl, .inr (Nat.le_zero.mp hFuel), fun _ hj _ _ => hj⟩
  | succ fuel ih =>
    rw [fallBack]
    split <;> rename_i hStay
    · obtain ⟨hPos, hDiffer⟩ := hStay
      have hLt := failure_lt pattern hPos
      have hShorter := failure_suffix hPos hk.le
      obtain ⟨hLe, hSuffix, hStops, hLongest⟩ := ih (k := failure pattern (k - 1)) (by omega) (by omega)
      refine ⟨by omega, hSuffix.trans hShorter, hStops, fun j hj hBorder hBit => ?_⟩
      have hj : j < k := Nat.lt_of_le_of_ne hj fun hSame => hDiffer (hSame ▸ hBit)
      have hFail := le_failure hk.le hj hBorder
      refine hLongest j hFail ?_ hBit
      refine List.suffix_of_suffix_length_le hBorder hShorter ?_
      rw [List.length_take_of_le (by omega), List.length_take_of_le (by omega)]
      exact hFail
    · refine ⟨le_rfl, List.suffix_rfl, ?_, fun _ hj _ _ => hj⟩
      rcases Nat.eq_zero_or_pos k with hZero | hPos
      · exact .inr hZero
      · exact .inl (by_contra fun hDiffer => hStay ⟨hPos, hDiffer⟩)

/-- Settles O54: what falling back finds, one longer if the bit continues it. -/
theorem matchStepIsTheLongestPrefix : Obligations.MatchStepIsTheLongestPrefix := by
  intro pattern k b hk
  obtain ⟨hLe, hSuffix, hStops, hLongest⟩ := fallBack_isFallBack b k le_rfl hk
  refine ⟨matchStep_le pattern k b, ?_, ?_⟩
  all_goals
    unfold matchStep
    dsimp only
    generalize fallBack pattern b k k = r at *
  · split
    · exact (take_succ_suffix_concat_iff (by omega) b).mpr ⟨hSuffix, ‹_›⟩
    · obtain rfl := hStops.resolve_left ‹_›
      simp
  · rintro (_ | j) hj hEnds
    · exact Nat.zero_le _
    · obtain ⟨hBorder, hBit⟩ := (take_succ_suffix_concat_iff (by omega) b).mp hEnds
      have hjr := hLongest j (by omega) hBorder hBit
      split
      · omega
      · obtain rfl := hStops.resolve_left ‹_›
        obtain rfl : j = 0 := by omega
        exact absurd hBit ‹_›

/-! ## The match index while searching (R232) -/

/-- The longest proper prefix of the pattern that the bits end with. -/
structure IsLongestPrefix (pattern bits : List Bool) (k : Nat) : Prop where
  lt : k < pattern.length
  suffix : pattern.take k <:+ bits
  longest : ∀ j, j < pattern.length → pattern.take j <:+ bits → j ≤ k

/-- The bits that the match index stands for are themselves its longest prefix. -/
theorem isLongestPrefix_take {pattern : List Bool} {k : Nat} (hk : k < pattern.length) :
    IsLongestPrefix pattern (pattern.take k) k where
  lt := hk
  suffix := List.suffix_rfl
  longest j hj h := by
    have hLength := h.length_le
    rwa [List.length_take_of_le hj.le, List.length_take_of_le hk.le] at hLength

section
variable {pattern bits : List Bool} {k : Nat} (h : IsLongestPrefix pattern bits k) (b : Bool)
include h

/-- One bit more: MATCH_STEP is the longest prefix, the whole pattern included. -/
theorem IsLongestPrefix.matchStep_spec :
    pattern.take (matchStep pattern k b) <:+ bits ++ [b]
      ∧ ∀ j, j ≤ pattern.length → pattern.take j <:+ bits ++ [b] → j ≤ matchStep pattern k b := by
  obtain ⟨-, hSuffix, hLongest⟩ := matchStepIsTheLongestPrefix pattern k b h.lt
  refine ⟨hSuffix.trans ((List.suffix_append_inj_of_length_eq rfl).mpr ⟨h.suffix, rfl⟩), ?_⟩
  rintro (_ | j) hj hEnds
  · exact Nat.zero_le _
  · obtain ⟨hShorter, hBit⟩ := (take_succ_suffix_concat_iff hj b).mp hEnds
    have hjk := h.longest j hj hShorter
    refine hLongest (j + 1) (by omega) ((take_succ_suffix_concat_iff hj b).mpr ⟨?_, hBit⟩)
    refine List.suffix_of_suffix_length_le hShorter h.suffix ?_
    rwa [List.length_take_of_le (by omega), List.length_take_of_le h.lt.le]

/-- It is the whole pattern exactly when the pattern has just ended. -/
theorem IsLongestPrefix.matchStep_eq_length_iff : matchStep pattern k b = pattern.length ↔ pattern <:+ bits ++ [b] := by
  obtain ⟨hSuffix, hLongest⟩ := h.matchStep_spec b
  refine ⟨fun hWhole => by rwa [hWhole, List.take_length] at hSuffix, fun hEnds => ?_⟩
  have hGe := hLongest pattern.length le_rfl (by rwa [List.take_length])
  have hLe := matchStep_le pattern k b
  have := h.lt
  omega

theorem IsLongestPrefix.step (hNot : ¬pattern <:+ bits ++ [b]) :
    IsLongestPrefix pattern (bits ++ [b]) (matchStep pattern k b) := by
  obtain ⟨hSuffix, hLongest⟩ := h.matchStep_spec b
  have hLe := matchStep_le pattern k b
  have hNe := mt (h.matchStep_eq_length_iff b).mp hNot
  have := h.lt
  exact ⟨by omega, hSuffix, fun j hj => hLongest j hj.le⟩

end

/-! ## Feeding bits to a searching synchronizer -/

@[simp] theorem feed_nil (s : State) : feed [] s = s := rfl

@[simp] theorem feed_cons (b : Bool) (bits : List Bool) (s : State) : feed (b :: bits) s = feed bits (syncBit b s) := rfl

theorem feed_append (bits more : List Bool) (s : State) : feed (bits ++ more) s = feed more (feed bits s) :=
  List.foldl_append

section
variable {s : State} {seen : List Bool} (hLength : s.cfg.preamble.length = s.cfg.preambleLen)
  (hState : s.rxState = .searchingPreamble) (h : IsLongestPrefix s.cfg.preamble seen s.k)
include hLength hState h

/-- As long as the preamble has not ended, only the match index moves, and it stays the longest prefix. -/
theorem feed_searching (bits : List Bool) (hNot : ∀ q, q <+: bits → ¬s.cfg.preamble <:+ seen ++ q) :
    ∃ j, feed bits s = { s with k := j } ∧ IsLongestPrefix s.cfg.preamble (seen ++ bits) j := by
  induction bits generalizing s seen with
  | nil => exact ⟨s.k, rfl, by rwa [List.append_nil]⟩
  | cons b bits ih =>
    have hNext := hNot [b] (List.prefix_append [b] bits)
    have hBit := syncBit_of_search hState (hLength ▸ mt (h.matchStep_eq_length_iff b).mp hNext)
    obtain ⟨j, hFeed, hLongest⟩ := ih (s := { s with k := matchStep s.cfg.preamble s.k b }) hLength hState
      (h.step b hNext) fun q hq => by
        rw [List.append_assoc]
        exact hNot (b :: q) ((List.prefix_cons_inj b).mpr hq)
    rw [List.append_assoc] at hLongest
    exact ⟨j, by rw [feed_cons, hBit, hFeed], hLongest⟩

/-- The bit that ends the preamble locks. -/
theorem syncBit_of_preamble_ends {b : Bool} (hEnds : s.cfg.preamble <:+ seen ++ [b]) :
    syncBit b s = { s with rxState := .receivingPacket, k := 0, rxBuf := [], rxCur := 0x00#8, rxBitcnt := 0 } :=
  syncBit_of_lock hState (hLength ▸ (h.matchStep_eq_length_iff b).mpr hEnds)

end

/-- A searching state of the invariant, with the bits its match index stands for taken as seen. -/
theorem isLongestPrefix_of_inv {s : State} (hInv : Inv s) (hState : s.rxState = .searchingPreamble) :
    IsLongestPrefix s.cfg.preamble (s.cfg.preamble.take s.k) s.k := by
  have hOk := hInv.sync
  simp only [SyncOk, hState] at hOk
  exact isLongestPrefix_take (preamble_length_of_configWf hInv.config ▸ hOk.1)

/-- Settles O55: by `feed_searching`, each shorter part being a proper prefix of the bits seen. -/
theorem searchTracksTheLongestPrefix : Obligations.SearchTracksTheLongestPrefix := by
  intro s bits hInv hState seen hBefore hEnd
  have hLength := preamble_length_of_configWf hInv.config
  obtain ⟨j, hFeed, hLt, hSuffix, hLongest⟩ := feed_searching hLength hState (isLongestPrefix_of_inv hInv hState) bits
    fun q hq => by
      rcases eq_or_ne q bits with rfl | hShorter
      · exact hEnd
      · exact hBefore _ ((List.prefix_append_right_inj _).mpr hq) (mt List.append_cancel_left hShorter)
  exact ⟨j, hFeed, hLength ▸ hLt, hSuffix, fun j' hj' => hLongest j' (hLength ▸ hj')⟩

/-- Settles O56: up to the last bit by `feed_searching`, and the last bit locks. -/
theorem lockFallsOnThePreamblesEnd : Obligations.LockFallsOnThePreamblesEnd := by
  intro s bits hInv hState hBits seen hBefore hEnds
  have hLength := preamble_length_of_configWf hInv.config
  have hLongest := isLongestPrefix_of_inv hInv hState
  have hNot (q : List Bool) (hq : q <+: bits) (hShorter : q ≠ bits) :
      ¬s.cfg.preamble <:+ s.cfg.preamble.take s.k ++ q :=
    hBefore _ ((List.prefix_append_right_inj _).mpr hq) (mt List.append_cancel_left hShorter)
  have hPart (q : List Bool) (hq : q <+: bits) (hShorter : q ≠ bits) :
      ∃ j, feed q s = { s with k := j } ∧ IsLongestPrefix s.cfg.preamble (s.cfg.preamble.take s.k ++ q) j :=
    feed_searching hLength hState hLongest q fun q' hq' => hNot q' (hq'.trans hq) fun hSame =>
      hShorter (hq.eq_of_length_le (hSame ▸ hq'.length_le))
  refine ⟨fun q hq hShorter => ?_, ?_⟩
  · obtain ⟨j, hFeed, -⟩ := hPart q hq hShorter
    rw [hFeed]
    exact hState
  · obtain ⟨init, b, rfl⟩ : ∃ init b, bits = init ++ [b] := ⟨_, _, (List.dropLast_append_getLast hBits).symm⟩
    obtain ⟨j, hFeed, hLongest⟩ := hPart init (List.prefix_append _ _) (by simp)
    rw [feed_append, hFeed, feed_cons, feed_nil]
    refine syncBit_of_preamble_ends (s := { s with k := j }) hLength hState hLongest ?_
    rwa [List.append_assoc]

end Sys2Proof.Machine
end

section
/-! SUPPORT. A frame received bit by bit (R228-R230, R235), and a payload sent over a lossless channel (R236). -/

namespace Sys2Proof.Machine

open Sys2Proof.Claims

/-! ## Bits into bytes (R228) -/

/-- Fewer bits than a byte only shift in. -/
theorem feed_partial {s : State} (hState : s.rxState = .receivingPacket) (bits : List Bool)
    (hShort : s.rxBitcnt + bits.length < 8) :
    feed bits s = { s with rxCur := bits.foldl shiftIn s.rxCur, rxBitcnt := s.rxBitcnt + bits.length } := by
  induction bits generalizing s with
  | nil => rfl
  | cons b bits ih =>
    rw [List.length_cons] at hShort
    have hBit : syncBit b s = { s with rxCur := shiftIn s.rxCur b, rxBitcnt := s.rxBitcnt + 1 } := by
      rw [syncBit_of_receiving hState, assemble, if_neg (by omega)]
    rw [feed_cons, hBit, ih (s := { s with rxCur := shiftIn s.rxCur b, rxBitcnt := s.rxBitcnt + 1 }) hState (by
      dsimp only
      omega)]
    simp only [List.foldl_cons, List.length_cons, Nat.add_assoc, Nat.add_comm 1]

/-- The bits of a byte, shifted in one by one, are the byte. -/
theorem foldl_shiftIn_byteBits (b : Byte) : (byteBits b).foldl shiftIn 0x00#8 = b := by
  revert b
  decide

/-- At a byte boundary the bits of a byte append it, and end the frame if it is whole then. -/
theorem feed_byteBits {s : State} (hState : s.rxState = .receivingPacket) (hCur : s.rxCur = 0x00#8)
    (hBits : s.rxBitcnt = 0) (b : Byte) :
    feed (byteBits b) s =
      if frameComplete (s.rxBuf ++ [b]) then frameDone { s with rxBuf := s.rxBuf ++ [b] }
      else { s with rxBuf := s.rxBuf ++ [b] } := by
  have hSplit : byteBits b = (byteBits b).take 7 ++ [b.getLsbD 0] := rfl
  have hByte : shiftIn (((byteBits b).take 7).foldl shiftIn 0x00#8) (b.getLsbD 0) = b := by
    conv_rhs => rw [← foldl_shiftIn_byteBits b, hSplit, List.foldl_concat]
  have hSeven : s.rxBitcnt + ((byteBits b).take 7).length = 7 := by
    rw [hBits]
    rfl
  rw [hSplit, feed_append, feed_partial hState _ (by omega), feed_cons, feed_nil, hSeven, hCur]
  rw [syncBit_of_receiving (s := { s with rxCur := ((byteBits b).take 7).foldl shiftIn 0x00#8, rxBitcnt := 7 }) hState,
    assemble, if_pos rfl]
  simp only [hByte, hBits]

/-- Settles O57: byte by byte. -/
theorem bitsAssembleIntoBytes : Obligations.BitsAssembleIntoBytes := by
  intro s bytes hState hCur hBits hOpen
  induction bytes generalizing s with
  | nil => rw [List.append_nil]; rfl
  | cons b bytes ih =>
    have hNotComplete : frameComplete (s.rxBuf ++ [b]) = false := by
      rw [← Bool.not_eq_true, frameComplete_iff]
      rintro ⟨hHeader, hWhole⟩
      exact hOpen 1 (Nat.le_add_left _ _) hHeader hWhole
    rw [bitbuf_cons, feed_append, feed_byteBits hState hCur hBits, hNotComplete]
    refine (ih { s with rxBuf := s.rxBuf ++ [b] } hState hCur hBits fun m hm => ?_).trans ?_
    · have hPart := hOpen (m + 1) (Nat.succ_le_succ hm)
      rw [List.take_succ_cons, List.append_cons] at hPart
      exact hPart
    · rw [List.append_cons s.rxBuf b bytes]

/-! ## A valid frame (R230, R235) -/

section
variable (dest src id : Byte) {payload : List Byte} (hShort : payload.length ≤ 255)
include hShort

theorem encodeFrame_declares : ((encodeFrame dest src id payload).getD 3 0x00#8).toNat = payload.length := by
  rw [encodeFrame_getD_three, BitVec.toNat_ofNat, Nat.mod_eq_of_lt (by omega)]

/-- The payload lies between the header and the checksum. -/
theorem encodeFrame_payload :
    ((encodeFrame dest src id payload).drop 4).take ((encodeFrame dest src id payload).getD 3 0x00#8).toNat = payload := by
  rw [encodeFrame_declares dest src id hShort]
  simp [encodeFrame]

/-- The bits of a valid frame, from the lock on, deliver its payload where RXQ has room. -/
theorem feed_encodeFrame {s : State} (hState : s.rxState = .receivingPacket) (hBuf : s.rxBuf = [])
    (hCur : s.rxCur = 0x00#8) (hBits : s.rxBitcnt = 0) (hText : textValid s.cfg payload = true)
    (hRoom : s.rxq.length ≠ s.cfg.rxqDepth) :
    feed (bitbuf (encodeFrame dest src id payload)) s =
      { s with
        rxState := .searchingPreamble, k := 0, rxBuf := [], rxCur := 0x00#8, rxBitcnt := 0,
        rxq := s.rxq ++ [payload], rxOk := s.rxOk + 1, rxLastEvt := .delivered } := by
  have hDeclared := encodeFrame_declares dest src id hShort
  have hPayload := encodeFrame_payload dest src id hShort
  have hFold := xorfold_encodeFrame dest src id payload
  have hLength := encodeFrame_length dest src id payload
  generalize encodeFrame dest src id payload = frame at *
  obtain ⟨init, checksum, rfl⟩ : ∃ init checksum, frame = init ++ [checksum] :=
    ⟨_, _, (List.dropLast_append_getLast (List.ne_nil_of_length_pos (by omega))).symm⟩
  have hInit : init.length = payload.length + 4 := by simpa using hLength
  have hOpen : feed (bitbuf init) s = { s with rxBuf := s.rxBuf ++ init } := by
    refine bitsAssembleIntoBytes s init hState hCur hBits fun m hm hHeader => ?_
    rw [hBuf, List.nil_append] at hHeader ⊢
    have hByte : ((init.take m).getD 3 0x00#8).toNat = payload.length := by
      have hThree : 3 < m := by
        rw [List.length_take] at hHeader
        omega
      rw [← hDeclared, List.getD_eq_getElem?_getD, List.getD_eq_getElem?_getD, List.getElem?_take_of_lt hThree,
        List.getElem?_append_left (by omega)]
    rw [hByte]
    have := List.length_take_le' m init
    omega
  have hWhole : (init ++ [checksum]).length = 5 + ((init ++ [checksum]).getD 3 0x00#8).toNat := by omega
  have hComplete : frameComplete (init ++ [checksum]) = true := (frameComplete_iff _).mpr ⟨by omega, hWhole⟩
  rw [hBuf, List.nil_append] at hOpen
  rw [bitbuf_append, feed_append, hOpen, bitbuf_cons, bitbuf_nil, List.append_nil,
    feed_byteBits (s := { s with rxBuf := init }) hState hCur hBits, if_pos hComplete]
  obtain ⟨-, -, -, hDelivers⟩ := frameDoneOutcomes { s with rxBuf := init ++ [checksum] } hWhole
  dsimp only at hDelivers
  rw [hPayload] at hDelivers
  exact hDelivers hFold hText hRoom

end

/-- Settles O59: the lock by O56, and the frame from there by `feed_encodeFrame`. -/
theorem preambleThenFrameIsDelivered : Obligations.PreambleThenFrameIsDelivered := by
  intro s noise dest src id payload hInv hState hShort hText hRoom hBefore
  have hPreamble : s.cfg.preamble ≠ [] := List.ne_nil_of_length_pos (by
    rw [preamble_length_of_configWf hInv.config]
    exact preambleLen_pos_of_configWf hInv.config)
  rw [List.append_assoc] at hBefore
  obtain ⟨-, hLock⟩ := lockFallsOnThePreamblesEnd s (noise ++ s.cfg.preamble) hInv hState
    (List.append_ne_nil_of_right_ne_nil _ hPreamble) hBefore
    (List.suffix_append_of_suffix (List.suffix_append _ _))
  rw [feed_append (noise ++ s.cfg.preamble), hLock]
  exact ⟨rfl, feed_encodeFrame dest src id hShort rfl rfl rfl rfl hText hRoom.ne⟩

/-! ## One payload from block to block (R236) -/

/-- Settles O60: the sender publishes its last symbol, the preamble and the frame (O44), and the receiver takes the symbol
as noise (O59). -/
theorem sentPayloadIsDelivered : Obligations.SentPayloadIsDelivered := by
  intro tx rx queued dest inputs hTx hRx hCfg hStarted hIdle hEmpty hSend hInputs hState hRoom hText hBefore
  have hQueued : Inv queued := inv_exec hTx (by simp) hSend
  have hDepth : tx.txq.length ≠ tx.cfg.txqDepth := by
    rw [hEmpty]
    exact (txqDepth_ne_zero_of_configWf hTx.config).symm
  obtain ⟨hQueue, hSame⟩ : queued.txq = [encodeFrame dest tx.localId tx.frameId tx.stage]
      ∧ (queued.cfg = tx.cfg ∧ queued.started = tx.started ∧ queued.txState = tx.txState
        ∧ queued.lastSym = tx.lastSym) := by
    cases (exec_txSend_of_room dest hDepth).symm.trans hSend
    exact ⟨by rw [hEmpty, List.nil_append], rfl, rfl, rfl, rfl⟩
  obtain ⟨hSameCfg, hSameStarted, hSameState, hSameSym⟩ := hSame
  obtain ⟨hPublished, -⟩ := frameIsPublishedWhole queued _ [] inputs hQueued (hSameStarted.trans hStarted)
    (hSameState.trans hIdle) hQueue (by rw [encodeFrame_length, hSameCfg, hInputs])
  obtain ⟨-, hDelivered⟩ := preambleThenFrameIsDelivered rx [tx.lastSym] dest tx.localId tx.frameId tx.stage hRx hState
    hTx.stageLength (hCfg ▸ hText) hRoom hBefore
  have hStream : published inputs queued = [tx.lastSym] ++ rx.cfg.preamble
      ++ bitbuf (encodeFrame dest tx.localId tx.frameId tx.stage) := by
    rw [hPublished, hSameSym, hSameCfg, hCfg]
    rfl
  rw [hStream, hDelivered]
  exact ⟨rfl, rfl⟩

end Sys2Proof.Machine
end

section
/-! SUPPORT. The spectral decision's lists of integers as polynomials (log entry 12): their values at the `N`-th roots of
unity, and that `vanishesAtRoot` recognises a value of 0. -/

namespace Sys2Proof.Machine

open Polynomial

/-! ## Values of a list of coefficients -/

/-- The polynomial with these coefficients, that of `X^0` first. -/
noncomputable def listPoly : List ℤ → ℤ[X]
  | [] => 0
  | c :: p => C c + X * listPoly p

/-- Its value at a complex number. -/
noncomputable def valueAt (z : ℂ) (p : List ℤ) : ℂ := aeval z (listPoly p)

section
variable (z : ℂ)

@[simp] theorem valueAt_nil : valueAt z [] = 0 := map_zero _

@[simp] theorem valueAt_cons (c : ℤ) (p : List ℤ) : valueAt z (c :: p) = c + z * valueAt z p := by
  simp [valueAt, listPoly]

@[simp] theorem valueAt_append (p q : List ℤ) : valueAt z (p ++ q) = valueAt z p + z ^ p.length * valueAt z q := by
  induction p with
  | nil => simp
  | cons c p ih =>
    rw [List.cons_append, valueAt_cons, valueAt_cons, ih, List.length_cons, pow_succ]
    ring

theorem valueAt_zipWith_linear (a b : ℤ) {p q : List ℤ} (h : p.length = q.length) :
    valueAt z (List.zipWith (fun x y => a * x + b * y) p q) = a * valueAt z p + b * valueAt z q := by
  induction p generalizing q with
  | nil => simp [List.length_eq_zero_iff.mp h.symm]
  | cons c p ih =>
    cases q with
    | nil => cases h
    | cons d q =>
      rw [List.zipWith_cons_cons, valueAt_cons, ih (Nat.succ.inj h), valueAt_cons, valueAt_cons]
      push_cast
      ring

theorem valueAt_map_range (g : ℕ → ℤ) (n : ℕ) :
    valueAt z ((List.range n).map g) = ∑ k ∈ Finset.range n, (g k : ℂ) * z ^ k := by
  induction n with
  | zero => simp
  | succ n ih =>
    rw [List.range_succ, List.map_append, valueAt_append, ih, Finset.sum_range_succ, List.length_map, List.length_range]
    simp [mul_comm]

/-- The reversed list is the value at the inverse, up to a power. -/
theorem valueAt_reverse {w : ℂ} (h : z * w = 1) (p : List ℤ) :
    z * valueAt z p.reverse = z ^ p.length * valueAt w p := by
  induction p with
  | nil => simp
  | cons c p ih =>
    rw [List.reverse_cons, valueAt_append, List.length_reverse, mul_add, ih, valueAt_cons, valueAt_cons, valueAt_nil,
      List.length_cons, pow_succ]
    linear_combination (-(z ^ p.length * valueAt w p)) * h

end

/-! ## The polynomial with all coefficients of `k` and `N - k` added -/

@[simp] theorem symmetrized_length (p : List ℤ) : (symmetrized p).length = p.length := by
  cases p <;> simp [symmetrized]

/-- At a root of unity: the value there and the one at its inverse. -/
theorem valueAt_symmetrized {p : List ℤ} {z w : ℂ} (hz : z ^ p.length = 1) (h : z * w = 1) :
    valueAt z (symmetrized p) = valueAt z p + valueAt w p := by
  cases p with
  | nil => simp [symmetrized]
  | cons c p =>
    have hSum := valueAt_zipWith_linear z 1 1 (p := c :: p) (q := c :: p.reverse) (by simp)
    simp only [one_mul, Int.cast_one] at hSum
    have hTail : z ^ p.length = w := by
      rw [List.length_cons, pow_succ] at hz
      linear_combination w * hz - z ^ p.length * h
    have hReverse := valueAt_reverse z h p
    rw [hTail] at hReverse
    rw [symmetrized, List.take_succ_cons, List.take_zero, List.drop_succ_cons, List.drop_zero, List.singleton_append,
      hSum, valueAt_cons z c p.reverse, hReverse, ← valueAt_cons]

/-! ## The test for 0 -/

theorem rotateBy_length (m : ℕ) (p : List ℤ) : (rotateBy m p).length = p.length := by
  rw [rotateBy, List.length_append, List.length_drop, List.length_take]
  omega

@[simp] theorem timesRootFactor_length (m : ℕ) (p : List ℤ) : (timesRootFactor m p).length = p.length := by
  rw [timesRootFactor, List.length_zipWith, rotateBy_length, Nat.min_self]

theorem valueAt_timesRootFactor {p : List ℤ} {z : ℂ} (hz : z ^ p.length = 1) {m : ℕ} (hm : m ≤ p.length) :
    z ^ m * valueAt z (timesRootFactor m p) = (1 - z ^ m) * valueAt z p := by
  have hDifference := valueAt_zipWith_linear z 1 (-1) (p := rotateBy m p) (q := p) (rotateBy_length m p)
  have hSame : (fun x y : ℤ => 1 * x + -1 * y) = (· - ·) := by
    funext x y
    ring
  have hSplit : valueAt z p = valueAt z (p.take m) + z ^ m * valueAt z (p.drop m) := by
    conv_lhs => rw [← List.take_append_drop m p, valueAt_append, List.length_take_of_le hm]
  have hTurn : z ^ m * z ^ (p.length - m) = 1 := by rw [← pow_add, Nat.add_sub_cancel' hm, hz]
  rw [hSame] at hDifference
  rw [timesRootFactor, hDifference, rotateBy, valueAt_append, List.length_drop, hSplit]
  push_cast
  linear_combination valueAt z (p.take m) * hTurn

theorem timesRootFactors_length (ms : List ℕ) (p : List ℤ) :
    (ms.foldl (fun q m => timesRootFactor m q) p).length = p.length := by
  induction ms generalizing p with
  | nil => rfl
  | cons m ms ih => rw [List.foldl_cons, ih, timesRootFactor_length]

/-- The product with the factors vanishes where the polynomial or one of the factors does. -/
theorem valueAt_timesRootFactors_eq_zero_iff {z : ℂ} (hz0 : z ≠ 0) (ms : List ℕ) {p : List ℤ}
    (hz : z ^ p.length = 1) (hms : ∀ m ∈ ms, m ≤ p.length) :
    valueAt z (ms.foldl (fun q m => timesRootFactor m q) p) = 0 ↔ valueAt z p = 0 ∨ ∃ m ∈ ms, z ^ m = 1 := by
  induction ms generalizing p with
  | nil => simp
  | cons m ms ih =>
    obtain ⟨hm, hms⟩ := List.forall_mem_cons.mp hms
    have hStep : valueAt z (timesRootFactor m p) = 0 ↔ valueAt z p = 0 ∨ z ^ m = 1 := by
      rw [← mul_right_inj' (pow_ne_zero m hz0), mul_zero, valueAt_timesRootFactor hz hm, mul_eq_zero, sub_eq_zero,
        eq_comm (a := (1 : ℂ)), or_comm]
    rw [List.foldl_cons, ih (by rwa [timesRootFactor_length]) (by rwa [timesRootFactor_length]), hStep, or_assoc,
      List.exists_mem_cons_iff]

theorem coeff_listPoly (p : List ℤ) (i : ℕ) : (listPoly p).coeff i = p.getD i 0 := by
  induction p generalizing i with
  | nil => simp [listPoly]
  | cons c p ih =>
    cases i with
    | zero => simp [listPoly]
    | succ i => rw [listPoly, coeff_add, coeff_C_succ, coeff_X_mul, zero_add, ih, List.getD_cons_succ]

theorem degree_listPoly_lt (p : List ℤ) : (listPoly p).degree < p.length := by
  rw [degree_lt_iff_coeff_zero]
  intro i hi
  rw [coeff_listPoly, List.getD_eq_default _ _ hi]

theorem listPoly_eq_zero_iff (p : List ℤ) : listPoly p = 0 ↔ ∀ c ∈ p, c = 0 := by
  constructor
  · intro h c hc
    obtain ⟨i, hi, rfl⟩ := List.getElem_of_mem hc
    rw [← List.getD_eq_getElem p 0 hi, ← coeff_listPoly, h, coeff_zero]
  · intro h
    refine Polynomial.ext fun i => ?_
    rw [coeff_listPoly, coeff_zero]
    rcases Nat.lt_or_ge i p.length with hi | hi
    · rw [List.getD_eq_getElem p 0 hi]
      exact h _ (List.getElem_mem hi)
    · exact List.getD_eq_default _ _ hi

/-- A list of `N` coefficients is 0 when its value is 0 at all `N`-th roots of unity. -/
theorem all_zero_iff {p : List ℤ} {ζ : ℂ} (hζ : IsPrimitiveRoot ζ p.length) (hN : 0 < p.length) :
    p.all (· == 0) = true ↔ ∀ z : ℂ, z ^ p.length = 1 → valueAt z p = 0 := by
  simp only [List.all_eq_true, beq_iff_eq]
  rw [← listPoly_eq_zero_iff]
  refine ⟨fun h z _ => by rw [valueAt, h, map_zero], fun h => ?_⟩
  have hComplex : (listPoly p).map (Int.castRingHom ℂ) = 0 := by
    refine eq_zero_of_degree_lt_of_eval_finset_eq_zero (nthRootsFinset p.length (1 : ℂ)) ?_ fun z hz => ?_
    · rw [hζ.card_nthRootsFinset]
      exact degree_map_le.trans_lt (degree_listPoly_lt p)
    · rw [eval_map, ← algebraMap_int_eq, ← aeval_def]
      exact h z ((mem_nthRootsFinset hN _).mp hz)
  exact (Polynomial.map_eq_zero_iff (RingHom.injective_int _)).mp hComplex

theorem mem_properIndices {N m : ℕ} (hN : 0 < N) : m ∈ properIndices N ↔ m ∣ N ∧ m < N := by
  simp only [properIndices, List.mem_map, List.mem_filter, List.mem_range, Bool.and_eq_true, decide_eq_true_eq,
    beq_iff_eq]
  constructor
  · rintro ⟨q, ⟨-, hq, hDvd⟩, rfl⟩
    exact ⟨Nat.div_dvd_of_dvd (Nat.dvd_of_mod_eq_zero hDvd), Nat.div_lt_self hN hq⟩
  · rintro ⟨⟨q, rfl⟩, hLt⟩
    have hm : 0 < m := Nat.pos_of_ne_zero (left_ne_zero_of_mul hN.ne')
    have hq : 0 < q := Nat.pos_of_ne_zero (right_ne_zero_of_mul hN.ne')
    refine ⟨q, ⟨Nat.lt_succ_of_le (Nat.le_mul_of_pos_left q hm), ?_, Nat.mul_mod_left m q⟩, Nat.mul_div_cancel m hq⟩
    by_contra hOne
    obtain rfl : q = 1 := by omega
    omega

/-- Conjugate roots: a list that vanishes at one primitive root vanishes at all of them. -/
theorem valueAt_eq_zero_of_isPrimitiveRoot {N : ℕ} {ζ z : ℂ} (hN : 0 < N) (hζ : IsPrimitiveRoot ζ N)
    (hz : IsPrimitiveRoot z N) {p : List ℤ} (h : valueAt ζ p = 0) : valueAt z p = 0 := by
  have hDvd := minpoly.isIntegrallyClosed_dvd (hζ.isIntegral hN) h
  rw [← cyclotomic_eq_minpoly hζ hN, cyclotomic_eq_minpoly hz hN] at hDvd
  exact aeval_eq_zero_of_dvd_aeval_eq_zero hDvd (minpoly.aeval ℤ z)

/-- The test is right: the factors vanish at the roots of a smaller order, and at no primitive root. -/
theorem vanishesAtRoot_iff {p : List ℤ} {ζ : ℂ} (hζ : IsPrimitiveRoot ζ p.length) (hN : 0 < p.length) :
    vanishesAtRoot p.length p = true ↔ valueAt ζ p = 0 := by
  have hLength := timesRootFactors_length (properIndices p.length) p
  have hProduct {z : ℂ} (hz : z ^ p.length = 1) := valueAt_timesRootFactors_eq_zero_iff
    (ne_zero_pow hN.ne' (hz ▸ one_ne_zero)) (properIndices p.length) hz fun m hm => ((mem_properIndices hN).mp hm).2.le
  rw [vanishesAtRoot, all_zero_iff (by rwa [hLength]) (by rwa [hLength]), hLength]
  constructor
  · intro h
    refine ((hProduct hζ.pow_eq_one).mp (h ζ hζ.pow_eq_one)).resolve_right ?_
    rintro ⟨m, hm, hOne⟩
    obtain ⟨hDvd, hLt⟩ := (mem_properIndices hN).mp hm
    exact absurd (hζ.dvd_of_pow_eq_one m hOne) (Nat.not_dvd_of_pos_of_lt (Nat.pos_of_dvd_of_pos hDvd hN) hLt)
  · intro h z hz
    refine (hProduct hz).mpr ?_
    have hDvd := orderOf_dvd_of_pow_eq_one hz
    rcases (Nat.le_of_dvd hN hDvd).lt_or_eq with hSmaller | hWhole
    · exact .inr ⟨orderOf z, (mem_properIndices hN).mpr ⟨hDvd, hSmaller⟩, pow_orderOf_eq_one z⟩
    · exact .inl (valueAt_eq_zero_of_isPrimitiveRoot hN hζ (hWhole ▸ IsPrimitiveRoot.orderOf z) h)

end Sys2Proof.Machine
end

section
/-! SUPPORT. A separation bound (log entry 12): a value at a root of unity that is not 0 is not near 0, since its
conjugates, none of them large, have a whole number as their product. -/

namespace Sys2Proof.Machine

open Polynomial IntermediateField

theorem gen_pow_eq_one {N : ℕ} {ζ : ℂ} (hζ : ζ ^ N = 1) : AdjoinSimple.gen ℚ ζ ^ N = 1 :=
  Subtype.ext (by simpa using hζ)

section
variable {N : ℕ} (hN : 0 < N) {ζ : ℂ} (hζ : ζ ^ N = 1)
include hN hζ

theorem isIntegral_root (R : Type) [CommRing R] [Algebra R ℂ] : IsIntegral R ζ :=
  ⟨X ^ N - 1, monic_X_pow_sub_C 1 hN.ne', by simp [hζ]⟩

variable [FiniteDimensional ℚ ℚ⟮ζ⟯]

/-- The field of the root has at most `N` embeddings. -/
theorem card_embeddings_le : Fintype.card (ℚ⟮ζ⟯ →ₐ[ℚ] ℂ) ≤ N := by
  rw [AlgHom.card, adjoin.finrank (isIntegral_root hN hζ ℚ)]
  have hDvd : minpoly ℚ ζ ∣ X ^ N - 1 := minpoly.dvd ℚ ζ (by simp [hζ])
  have hDegree := natDegree_le_of_dvd hDvd (X_pow_sub_C_ne_zero hN 1)
  rwa [← C_1, natDegree_X_pow_sub_C] at hDegree

/-- The product of the conjugates of a value is a whole number other than 0. -/
theorem one_le_prod_conjugates {q : List ℤ} (h : valueAt ζ q ≠ 0) :
    1 ≤ ∏ σ : ℚ⟮ζ⟯ →ₐ[ℚ] ℂ, ‖valueAt (σ (AdjoinSimple.gen ℚ ζ)) q‖ := by
  obtain ⟨α, hα⟩ : ∃ α : ℚ⟮ζ⟯, α = aeval (AdjoinSimple.gen ℚ ζ) (listPoly q) := ⟨_, rfl⟩
  have hImage (σ : ℚ⟮ζ⟯ →ₐ[ℚ] ℂ) : valueAt (σ (AdjoinSimple.gen ℚ ζ)) q = σ α := by
    rw [hα, valueAt]
    exact aeval_algHom_apply (σ.restrictScalars ℤ) _ _
  have hValue : valueAt ζ q = algebraMap ℚ⟮ζ⟯ ℂ α := hImage (val ℚ⟮ζ⟯)
  have hNe : α ≠ 0 := by
    rintro hZero
    rw [hValue, hZero, map_zero] at h
    exact h rfl
  have hIntegral : IsIntegral ℤ α := by
    have hGen : IsIntegral ℤ (AdjoinSimple.gen ℚ ζ) :=
      ⟨X ^ N - 1, monic_X_pow_sub_C 1 hN.ne', by simp [gen_pow_eq_one hζ]⟩
    rw [hα]
    exact adjoin_le_integralClosure hGen (aeval_mem_adjoin_singleton ℤ _)
  obtain ⟨n, hn⟩ := IsIntegrallyClosed.isIntegral_iff.mp (Algebra.isIntegral_norm ℚ hIntegral)
  have hn0 : n ≠ 0 := by
    rintro rfl
    rw [map_zero] at hn
    exact hNe (Algebra.norm_eq_zero_iff.mp hn.symm)
  have hProd : ∏ σ : ℚ⟮ζ⟯ →ₐ[ℚ] ℂ, ‖valueAt (σ (AdjoinSimple.gen ℚ ζ)) q‖ = |(n : ℝ)| := by
    simp only [hImage]
    rw [← norm_prod, ← Algebra.norm_eq_prod_embeddings ℚ ℂ α, ← hn]
    simp
  rw [hProd]
  exact_mod_cast Int.one_le_abs hn0

end

/-- If no value at an `N`-th root of unity is larger than `B`, a value that is not 0 is at least `B^-N`. -/
theorem one_le_norm_valueAt_mul_pow {N : ℕ} (hN : 0 < N) {ζ : ℂ} (hζ : ζ ^ N = 1) {q : List ℤ} {B : ℝ} (hB : 1 ≤ B)
    (hBound : ∀ z : ℂ, z ^ N = 1 → ‖valueAt z q‖ ≤ B) (h : valueAt ζ q ≠ 0) : 1 ≤ ‖valueAt ζ q‖ * B ^ N := by
  classical
  have hFinite : FiniteDimensional ℚ ℚ⟮ζ⟯ := adjoin.finiteDimensional (isIntegral_root hN hζ ℚ)
  have hProd := one_le_prod_conjugates hN hζ h
  have hCard := card_embeddings_le hN hζ
  have hRoot (σ : ℚ⟮ζ⟯ →ₐ[ℚ] ℂ) : σ (AdjoinSimple.gen ℚ ζ) ^ N = 1 := by
    rw [← map_pow, gen_pow_eq_one hζ, map_one]
  have hSplit := Finset.mul_prod_erase Finset.univ (fun σ : ℚ⟮ζ⟯ →ₐ[ℚ] ℂ => ‖valueAt (σ (AdjoinSimple.gen ℚ ζ)) q‖)
    (Finset.mem_univ (val ℚ⟮ζ⟯))
  rw [← hSplit] at hProd
  refine hProd.trans (mul_le_mul le_rfl ?_ (Finset.prod_nonneg fun _ _ => norm_nonneg _) (norm_nonneg _))
  calc ∏ σ ∈ Finset.univ.erase (val ℚ⟮ζ⟯), ‖valueAt (σ (AdjoinSimple.gen ℚ ζ)) q‖
      ≤ ∏ _σ ∈ Finset.univ.erase (val ℚ⟮ζ⟯), B :=
        Finset.prod_le_prod (fun _ _ => norm_nonneg _) fun σ _ => hBound _ (hRoot σ)
    _ = B ^ (Finset.univ.erase (val ℚ⟮ζ⟯)).card := Finset.prod_const B
    _ ≤ B ^ N := pow_le_pow_right₀ hB ((Finset.card_le_univ _).trans hCard)

end Sys2Proof.Machine
end

section
/-! SUPPORT. The sign of an integer combination of cosines: the bounds of `boundsAt` hold, and the refinements of
`signFrom` are enough by the separation bound, so `cosineSign` answers the sign (log entry 12). -/

namespace Sys2Proof.Machine

open Real ComplexConjugate

theorem valueAt_conj (z : ℂ) (p : List ℤ) : valueAt (conj z) p = conj (valueAt z p) := by
  induction p with
  | nil => simp
  | cons c p ih => simp [ih]

/-! ## Sizes -/

/-- The sum of the coefficients' sizes, as `doublingsEnough` takes it. -/
def coeffSize (p : List ℤ) : ℕ := p.foldl (fun a c => a + c.natAbs) 0

theorem coeffSize_eq_sum (p : List ℤ) : coeffSize p = (p.map Int.natAbs).sum := by
  rw [coeffSize, List.sum_eq_foldl, List.foldl_map]

theorem coeffSize_cons (c : ℤ) (p : List ℤ) : coeffSize (c :: p) = c.natAbs + coeffSize p := by
  simp [coeffSize_eq_sum]

theorem norm_valueAt_le {z : ℂ} (hz : ‖z‖ = 1) (p : List ℤ) : ‖valueAt z p‖ ≤ coeffSize p := by
  induction p with
  | nil => simp [coeffSize]
  | cons c p ih =>
    rw [valueAt_cons, coeffSize_cons]
    calc ‖(c : ℂ) + z * valueAt z p‖ ≤ ‖(c : ℂ)‖ + ‖z * valueAt z p‖ := norm_add_le _ _
      _ = |(c : ℝ)| + ‖valueAt z p‖ := by rw [norm_mul, hz, one_mul, Complex.norm_intCast]
      _ ≤ ((c.natAbs + coeffSize p : ℕ) : ℝ) := by
        push_cast
        rw [Nat.cast_natAbs, Int.cast_abs]
        linarith

/-! ## The combination of cosines (R224) -/

/-- `exp (2 π i / N)`. -/
noncomputable def unitRoot (N : ℕ) : ℂ := Complex.exp (2 * π * Complex.I / N)

theorem isPrimitiveRoot_unitRoot {N : ℕ} (hN : 0 < N) : IsPrimitiveRoot (unitRoot N) N :=
  Complex.isPrimitiveRoot_exp N hN.ne'

theorem unitRoot_pow (N k : ℕ) : unitRoot N ^ k = Complex.exp ((2 * π * k / N : ℝ) * Complex.I) := by
  rw [unitRoot, ← Complex.exp_nat_mul]
  congr 1
  push_cast
  ring

theorem re_unitRoot_pow (N k : ℕ) : (unitRoot N ^ k).re = cos (2 * π * k / N) := by
  rw [unitRoot_pow, Complex.exp_ofReal_mul_I_re]

/-- `∑ c_k cos (2 π k / N)`: the number whose sign `cosineSign` computes. -/
noncomputable def cosineSum (N : ℕ) (p : List ℤ) : ℝ := (valueAt (unitRoot N) p).re

/-- The sum from the coefficient of index `k` on. -/
theorem re_pow_mul_valueAt_cons (N k : ℕ) (c : ℤ) (p : List ℤ) :
    (unitRoot N ^ k * valueAt (unitRoot N) (c :: p)).re =
      c * cos (2 * π * k / N) + (unitRoot N ^ (k + 1) * valueAt (unitRoot N) p).re := by
  rw [valueAt_cons, mul_add, Complex.add_re, ← mul_assoc, ← pow_succ, mul_comm _ (c : ℂ), ← Complex.ofReal_intCast,
    Complex.re_ofReal_mul, re_unitRoot_pow]

/-! ## Bounds -/

/-- One coefficient's part in `boundsAt`. -/
def boundsStep (prec N : ℕ) (acc : ℤ × ℤ) (ck : ℤ × ℕ) : ℤ × ℤ :=
  if ck.1 = 0 then acc
  else
    let m := floorCos prec N (min ck.2 (N - ck.2))
    if 0 < ck.1 then (acc.1 + ck.1 * m, acc.2 + ck.1 * (m + 1))
    else (acc.1 + ck.1 * (m + 1), acc.2 + ck.1 * m)

theorem boundsAt_eq_foldl (prec N : ℕ) (p : List ℤ) : boundsAt prec N p = p.zipIdx.foldl (boundsStep prec N) (0, 0) := rfl

/-- The bounds are taken at the index's mirror image below `N / 2`, which has the same cosine. -/
theorem cos_mirror {N k : ℕ} (hk : k ≤ N) (hN : 0 < N) : cos (2 * π * (min k (N - k) : ℕ) / N) = cos (2 * π * k / N) := by
  rcases min_choice k (N - k) with h | h <;> rw [h]
  have hNr : (N : ℝ) ≠ 0 := by exact_mod_cast hN.ne'
  rw [Nat.cast_sub hk, ← cos_two_pi_sub]
  congr 1
  field_simp
  ring

/-- What a list of bounds is: around a number, and as far apart as the sizes allow. -/
structure BoundsOf (prec : ℕ) (acc b : ℤ × ℤ) (x : ℝ) (size : ℕ) : Prop where
  low : (b.1 : ℝ) ≤ acc.1 + 2 ^ prec * x
  high : acc.2 + 2 ^ prec * x ≤ (b.2 : ℝ)
  width : b.2 - b.1 = acc.2 - acc.1 + size

theorem boundsStep_spec {prec N k : ℕ} (hN : 0 < N) (hk : k ≤ N) (acc : ℤ × ℤ) (c : ℤ) :
    BoundsOf prec acc (boundsStep prec N acc (c, k)) (c * cos (2 * π * k / N)) c.natAbs := by
  have ha : 2 * min k (N - k) ≤ N := by omega
  obtain ⟨hLow, hHigh⟩ := floorCos_spec prec N (min k (N - k)) hN ha
  rw [cos_mirror hk hN] at hLow hHigh
  unfold boundsStep
  dsimp only
  generalize floorCos prec N (min k (N - k)) = m at *
  generalize cos (2 * π * k / N) = x at *
  split_ifs with hZero hPos
  · subst hZero
    exact ⟨by simp, by simp, by simp⟩
  · have hc : (0 : ℝ) < c := by exact_mod_cast hPos
    refine ⟨?_, ?_, ?_⟩
    · push_cast
      nlinarith
    · push_cast
      nlinarith
    · dsimp only
      rw [Int.natCast_natAbs, abs_of_pos hPos]
      ring
  · have hNeg : c < 0 := by omega
    have hc : (c : ℝ) < 0 := by exact_mod_cast hNeg
    refine ⟨?_, ?_, ?_⟩
    · push_cast
      nlinarith
    · push_cast
      nlinarith
    · dsimp only
      rw [Int.natCast_natAbs, abs_of_neg hNeg]
      ring

theorem boundsOf_foldl {prec N : ℕ} (hN : 0 < N) (p : List ℤ) (k : ℕ) (hk : k + p.length ≤ N) (acc : ℤ × ℤ) :
    BoundsOf prec acc ((p.zipIdx k).foldl (boundsStep prec N) acc) (unitRoot N ^ k * valueAt (unitRoot N) p).re
      (coeffSize p) := by
  induction p generalizing k acc with
  | nil => exact ⟨by simp, by simp, by simp [coeffSize]⟩
  | cons c p ih =>
    rw [List.length_cons] at hk
    obtain ⟨hLow, hHigh, hWidth⟩ := boundsStep_spec (prec := prec) hN (show k ≤ N by omega) acc c
    obtain ⟨hLow', hHigh', hWidth'⟩ := ih (k + 1) (by omega) (boundsStep prec N acc (c, k))
    rw [List.zipIdx_cons, List.foldl_cons, re_pow_mul_valueAt_cons, coeffSize_cons]
    refine ⟨by linarith, by linarith, ?_⟩
    push_cast at hWidth ⊢
    omega

theorem boundsAt_spec {N : ℕ} (hN : 0 < N) {p : List ℤ} (hp : p.length ≤ N) (prec : ℕ) :
    BoundsOf prec (0, 0) (boundsAt prec N p) (cosineSum N p) (coeffSize p) := by
  have h := boundsOf_foldl (prec := prec) hN p 0 (by omega) (0, 0)
  rwa [pow_zero, one_mul, ← boundsAt_eq_foldl] at h

/-! ## The sign -/

/-- A sign that is an answer is that of the number. -/
def Sign.IsSignOf (x : ℝ) : Sign → Prop
  | .positive => 0 < x
  | .zero => x = 0
  | .negative => x < 0
  | .unresolved => False

section
variable {N : ℕ} (hN : 0 < N) {p : List ℤ} (hp : p.length ≤ N)
include hN hp

/-- Some precision among those tried tells the number from 0, so an answer is found. -/
theorem signFrom_isSignOf {fuel prec : ℕ}
    (h : ∃ j < fuel, (coeffSize p : ℝ) < 2 ^ (2 ^ j * prec) * |cosineSum N p|) :
    (signFrom N p fuel prec).IsSignOf (cosineSum N p) := by
  induction fuel generalizing prec with
  | zero => obtain ⟨j, hj, -⟩ := h; omega
  | succ fuel ih =>
    obtain ⟨hLow, hHigh, hWidth⟩ := boundsAt_spec hN hp prec
    have hWidth' : ((boundsAt prec N p).2 : ℝ) - (boundsAt prec N p).1 = coeffSize p := by
      have : (boundsAt prec N p).2 - (boundsAt prec N p).1 = coeffSize p := by simpa using hWidth
      exact_mod_cast this
    simp only [Int.cast_zero, zero_add] at hLow hHigh
    have hScale : (0 : ℝ) < 2 ^ prec := by positivity
    rw [signFrom]
    split_ifs with hPos hNeg
    · have hPos' : (0 : ℝ) < (boundsAt prec N p).1 := by exact_mod_cast hPos
      exact pos_of_mul_pos_right (hPos'.trans_le hLow) hScale.le
    · have hNeg' : ((boundsAt prec N p).2 : ℝ) < 0 := by exact_mod_cast hNeg
      exact neg_of_mul_neg_right (hHigh.trans_lt hNeg') hScale.le
    · refine ih ?_
      obtain ⟨j, hj, hFar⟩ := h
      rcases j with _ | j
      · exfalso
        have hPos' : ((boundsAt prec N p).1 : ℝ) ≤ 0 := by exact_mod_cast not_lt.mp hPos
        have hNeg' : (0 : ℝ) ≤ (boundsAt prec N p).2 := by exact_mod_cast not_lt.mp hNeg
        rw [pow_zero, one_mul, ← abs_of_pos hScale, ← abs_mul, lt_abs] at hFar
        rcases hFar with hFar | hFar <;> linarith
      · refine ⟨j, by omega, ?_⟩
        rwa [show 2 ^ j * (2 * prec) = 2 ^ (j + 1) * prec by rw [pow_succ]; ring]

end

/-- Twice the sum is the value of the symmetrized coefficients: at a root and its conjugate together. -/
theorem valueAt_unitRoot_symmetrized {p : List ℤ} (hN : 0 < p.length) :
    valueAt (unitRoot p.length) (symmetrized p) = (2 * cosineSum p.length p : ℝ) := by
  have hRoot := isPrimitiveRoot_unitRoot hN
  have hNorm : ‖unitRoot p.length‖ = 1 := hRoot.norm'_eq_one hN.ne'
  have hConj : unitRoot p.length * conj (unitRoot p.length) = 1 := by
    rw [Complex.mul_conj, Complex.normSq_eq_norm_sq, hNorm]
    norm_num
  rw [valueAt_symmetrized hRoot.pow_eq_one hConj, valueAt_conj, Complex.add_conj, cosineSum]

/-- A sum that is not 0 is at least `B^-N / 2`, where `B` is twice the sum of the coefficients' sizes. -/
theorem cosineSum_separated {p : List ℤ} (hN : 0 < p.length) (h : cosineSum p.length p ≠ 0) :
    1 ≤ 2 * |cosineSum p.length p| * (2 * coeffSize p : ℝ) ^ p.length := by
  have hRoot := isPrimitiveRoot_unitRoot hN
  have hValue := valueAt_unitRoot_symmetrized hN
  have hSize : 1 ≤ (2 * coeffSize p : ℝ) := by
    have hLarge := norm_valueAt_le (hRoot.norm'_eq_one hN.ne') p
    have hPos : 0 < (coeffSize p : ℝ) := (abs_pos.mpr h).trans_le ((Complex.abs_re_le_norm _).trans hLarge)
    have hOne : (1 : ℝ) ≤ coeffSize p := by exact_mod_cast hPos
    linarith
  have hBound (z : ℂ) (hz : z ^ p.length = 1) : ‖valueAt z (symmetrized p)‖ ≤ 2 * coeffSize p := by
    have hz0 : z ≠ 0 := ne_zero_pow hN.ne' (hz ▸ one_ne_zero)
    have hNorm : ‖z‖ = 1 := Complex.norm_eq_one_of_pow_eq_one hz hN.ne'
    rw [valueAt_symmetrized hz (mul_inv_cancel₀ hz0), two_mul]
    exact (norm_add_le _ _).trans (add_le_add (norm_valueAt_le hNorm p)
      (norm_valueAt_le (by rw [norm_inv, hNorm, inv_one]) p))
  have hNe : valueAt (unitRoot p.length) (symmetrized p) ≠ 0 := by
    rw [hValue]
    exact_mod_cast mul_ne_zero two_ne_zero h
  have hFar := one_le_norm_valueAt_mul_pow hN hRoot.pow_eq_one hSize hBound hNe
  rwa [hValue, Complex.norm_real, Real.norm_eq_abs, abs_mul, abs_two] at hFar

/-- So the last precision tried tells the sum from 0. -/
theorem doublingsEnough_spec {p : List ℤ} (hN : 0 < p.length) (h : cosineSum p.length p ≠ 0) :
    ∃ j < doublingsEnough p.length p, (coeffSize p : ℝ) < 2 ^ (2 ^ j * 32) * |cosineSum p.length p| := by
  have hSep := cosineSum_separated hN h
  obtain ⟨S, hS⟩ : ∃ S, S = coeffSize p := ⟨_, rfl⟩
  obtain ⟨M, hM⟩ : ∃ M, M = (p.length + 2) * (Nat.log2 S + 3) := ⟨_, rfl⟩
  refine ⟨Nat.log2 M, ?_, ?_⟩
  · rw [doublingsEnough, show p.foldl (fun a c => a + c.natAbs) 0 = coeffSize p from rfl, ← hS, ← hM]
    exact Nat.lt_succ_self _
  rw [← hS] at hSep ⊢
  have hPrec : (Nat.log2 S + 2) * (p.length + 1) < 2 ^ Nat.log2 M * 32 := by
    have hLog : M < 2 ^ Nat.log2 M * 2 := by
      rw [← pow_succ]
      exact Nat.lt_log2_self
    have hMul : (Nat.log2 S + 2) * (p.length + 1) ≤ M := by
      rw [hM, mul_comm]
      exact Nat.mul_le_mul (by omega) (by omega)
    omega
  have hPow : (2 * S) ^ (p.length + 1) < 2 ^ (2 ^ Nat.log2 M * 32) := by
    have hBase : 2 * S ≤ 2 ^ (Nat.log2 S + 2) := by
      have : S < 2 ^ (Nat.log2 S + 1) := Nat.lt_log2_self
      rw [pow_succ]
      omega
    calc (2 * S) ^ (p.length + 1) ≤ (2 ^ (Nat.log2 S + 2)) ^ (p.length + 1) := Nat.pow_le_pow_left hBase _
      _ = 2 ^ ((Nat.log2 S + 2) * (p.length + 1)) := (pow_mul ..).symm
      _ < 2 ^ (2 ^ Nat.log2 M * 32) := Nat.pow_lt_pow_right (by decide) hPrec
  have hPow' : (2 * S : ℝ) ^ (p.length + 1) < 2 ^ (2 ^ Nat.log2 M * 32) := by exact_mod_cast hPow
  have hAbs : 0 < |cosineSum p.length p| := abs_pos.mpr h
  calc (S : ℝ) ≤ S * (2 * |cosineSum p.length p| * (2 * S) ^ p.length) := le_mul_of_one_le_right (Nat.cast_nonneg S) hSep
    _ = (2 * S) ^ (p.length + 1) * |cosineSum p.length p| := by rw [pow_succ]; ring
    _ < 2 ^ (2 ^ Nat.log2 M * 32) * |cosineSum p.length p| := mul_lt_mul_of_pos_right hPow' hAbs

/-- The sign is always found, and it is right. -/
theorem cosineSign_isSignOf {p : List ℤ} (hN : 0 < p.length) :
    (cosineSign p.length p).IsSignOf (cosineSum p.length p) := by
  have hZero : vanishesAtRoot p.length (symmetrized p) = true ↔ cosineSum p.length p = 0 := by
    have hLength := symmetrized_length p
    have hTest := vanishesAtRoot_iff (p := symmetrized p) (by rw [hLength]; exact isPrimitiveRoot_unitRoot hN)
      (by rwa [hLength])
    rw [hLength, valueAt_unitRoot_symmetrized hN] at hTest
    simpa using hTest
  unfold cosineSign
  split_ifs with hTest
  · exact hZero.mp hTest
  · exact signFrom_isSignOf hN le_rfl (doublingsEnough_spec hN (mt hZero.mpr hTest))

end Sys2Proof.Machine
end

section
/-! SUPPORT. The energies of R224 as values at a root of unity: the lags of a window, the coefficients `energyCoeffs` takes
from them, and the samples' binary32 values in their common unit. -/

namespace Sys2Proof.Machine

open Real ComplexConjugate Sys2Proof.Claims

/-! ## Lags -/

theorem lagProduct_eq_sum (x : List ℤ) (d : ℕ) : lagProduct x d = (List.zipWith (· * ·) x (x.drop d)).sum := by
  rw [lagProduct, List.sum_eq_foldl]

theorem lagProduct_cons_zero (a : ℤ) (x : List ℤ) : lagProduct (a :: x) 0 = a * a + lagProduct x 0 := by
  simp [lagProduct_eq_sum]

theorem lagProduct_cons_succ (a : ℤ) (x : List ℤ) (d : ℕ) :
    lagProduct (a :: x) (d + 1) = a * x.getD d 0 + lagProduct x (d + 1) := by
  rw [lagProduct_eq_sum, lagProduct_eq_sum, List.drop_succ_cons]
  rcases Nat.lt_or_ge d x.length with hd | hd
  · rw [List.drop_eq_getElem_cons hd, List.zipWith_cons_cons, List.sum_cons, List.getD_eq_getElem x 0 hd]
  · rw [List.drop_of_length_le hd, List.drop_of_length_le (by omega), List.getD_eq_default x 0 hd]
    simp

theorem valueAt_eq_sum_getD (z : ℂ) {x : List ℤ} {n : ℕ} (h : x.length ≤ n) :
    valueAt z x = ∑ d ∈ Finset.range n, (x.getD d 0 : ℂ) * z ^ d := by
  induction x generalizing n with
  | nil => simp
  | cons a x ih =>
    obtain ⟨n, rfl⟩ : ∃ m, n = m + 1 := ⟨n - 1, by rw [List.length_cons] at h; omega⟩
    rw [Finset.sum_range_succ', valueAt_cons, ih (by simpa using h), Finset.mul_sum, add_comm]
    simp [pow_succ', mul_left_comm]

/-- The squared absolute value in terms of the products of shifted copies. -/
theorem normSq_valueAt {z : ℂ} (hz : Complex.normSq z = 1) {x : List ℤ} {n : ℕ} (h : x.length ≤ n + 1) :
    Complex.normSq (valueAt z x) =
      lagProduct x 0 + 2 * (∑ d ∈ Finset.range n, (lagProduct x (d + 1) : ℂ) * z ^ (d + 1)).re := by
  induction x with
  | nil => simp [lagProduct]
  | cons a x ih =>
    rw [List.length_cons, Nat.succ_le_succ_iff] at h
    have hSum : ∑ d ∈ Finset.range n, (lagProduct (a :: x) (d + 1) : ℂ) * z ^ (d + 1) =
        a * (z * valueAt z x) + ∑ d ∈ Finset.range n, (lagProduct x (d + 1) : ℂ) * z ^ (d + 1) := by
      rw [valueAt_eq_sum_getD z h, Finset.mul_sum, Finset.mul_sum, ← Finset.sum_add_distrib]
      refine Finset.sum_congr rfl fun d _ => ?_
      rw [lagProduct_cons_succ, pow_succ]
      push_cast
      ring
    rw [valueAt_cons, Complex.normSq_add, map_mul, hz, ih (by omega), hSum, lagProduct_cons_zero, Complex.add_re,
      ← Complex.ofReal_intCast, Complex.normSq_ofReal, Complex.re_ofReal_mul, Complex.re_ofReal_mul, Complex.conj_re]
    push_cast
    ring

theorem normSq_valueAt_eq_re_lags {z : ℂ} (hz : Complex.normSq z = 1) (x : List ℤ) :
    Complex.normSq (valueAt z x) = (valueAt z (lags x)).re := by
  rw [lags, valueAt_map_range]
  rcases hLength : x.length with _ | n
  · simp [List.length_eq_zero_iff.mp hLength]
  · have hTail : ∑ k ∈ Finset.range n,
        ((if k + 1 = 0 then lagProduct x 0 else 2 * lagProduct x (k + 1) : ℤ) : ℂ) * z ^ (k + 1) =
          (2 : ℝ) * ∑ k ∈ Finset.range n, (lagProduct x (k + 1) : ℂ) * z ^ (k + 1) := by
      rw [Finset.mul_sum]
      refine Finset.sum_congr rfl fun k _ => ?_
      rw [if_neg k.succ_ne_zero]
      push_cast
      ring
    rw [normSq_valueAt hz hLength.le, Finset.sum_range_succ', hTail, if_pos rfl, Complex.add_re, Complex.re_ofReal_mul,
      pow_zero, mul_one, Complex.intCast_re, add_comm]

/-! ## Coefficients by index modulo `N` -/

@[simp] theorem energyCoeffs_length (N f : ℕ) (r : List ℤ) : (energyCoeffs N f r).length = N := by
  simp [energyCoeffs]

/-- One lag's part in the coefficient of index `k`. -/
def energyStep (N f k : ℕ) (acc : ℤ) (rd : ℤ × ℕ) : ℤ := if f * rd.2 % N = k then acc + rd.1 else acc

section
variable {N f : ℕ} (hN : 0 < N) {ζ : ℂ} (hζ : ζ ^ N = 1)
include hN hζ

theorem sum_energyStep (acc : ℕ → ℤ) (c : ℤ) (s : ℕ) :
    ∑ k ∈ Finset.range N, (energyStep N f k (acc k) (c, s) : ℂ) * ζ ^ k =
      ∑ k ∈ Finset.range N, (acc k : ℂ) * ζ ^ k + (ζ ^ f) ^ s * c := by
  have hSplit (k : ℕ) : (energyStep N f k (acc k) (c, s) : ℂ) * ζ ^ k =
      (acc k : ℂ) * ζ ^ k + if f * s % N = k then (c : ℂ) * ζ ^ k else 0 := by
    unfold energyStep
    split_ifs
    · push_cast
      ring
    · ring
  have hIndex : ζ ^ (f * s % N) = (ζ ^ f) ^ s := by rw [← pow_eq_pow_mod _ hζ, pow_mul]
  rw [Finset.sum_congr rfl fun k _ => hSplit k, Finset.sum_add_distrib, Finset.sum_ite_eq,
    if_pos (Finset.mem_range.mpr (Nat.mod_lt _ hN)), hIndex, mul_comm (c : ℂ)]

theorem sum_foldl_energyStep (r : List ℤ) (s : ℕ) (acc : ℕ → ℤ) :
    ∑ k ∈ Finset.range N, (((r.zipIdx s).foldl (energyStep N f k) (acc k) : ℤ) : ℂ) * ζ ^ k =
      ∑ k ∈ Finset.range N, (acc k : ℂ) * ζ ^ k + (ζ ^ f) ^ s * valueAt (ζ ^ f) r := by
  induction r generalizing s acc with
  | nil => simp
  | cons c r ih =>
    simp only [List.zipIdx_cons, List.foldl_cons]
    rw [ih (s + 1) fun k => energyStep N f k (acc k) (c, s), sum_energyStep hN hζ, valueAt_cons, pow_succ]
    ring

theorem valueAt_energyCoeffs (r : List ℤ) : valueAt ζ (energyCoeffs N f r) = valueAt (ζ ^ f) r := by
  have h := sum_foldl_energyStep (f := f) hN hζ r 0 fun _ => 0
  simp only [Int.cast_zero, zero_mul, Finset.sum_const_zero, zero_add, pow_zero, one_mul] at h
  exact (valueAt_map_range ..).trans h

end

theorem normSq_unitRoot_pow (N k : ℕ) : Complex.normSq (unitRoot N ^ k) = 1 := by
  rw [unitRoot_pow, Complex.normSq_eq_norm_sq, Complex.norm_exp_ofReal_mul_I, one_pow]

/-- The sum over the coefficients is the squared absolute value of the window's value at the tone's root. -/
theorem cosineSum_energyCoeffs {N : ℕ} (hN : 0 < N) (f : ℕ) (x : List ℤ) :
    cosineSum N (energyCoeffs N f (lags x)) = Complex.normSq (valueAt (unitRoot N ^ f) x) := by
  rw [cosineSum, valueAt_energyCoeffs hN (isPrimitiveRoot_unitRoot hN).pow_eq_one,
    normSq_valueAt_eq_re_lags (normSq_unitRoot_pow N f)]

theorem marginCoeffs_length (num den : ℕ) {ea eb : List ℤ} (h : ea.length = eb.length) :
    (marginCoeffs num den ea eb).length = ea.length := by
  rw [marginCoeffs, List.length_zipWith, h, Nat.min_self]

theorem cosineSum_marginCoeffs (N num den : ℕ) {ea eb : List ℤ} (h : ea.length = eb.length) :
    cosineSum N (marginCoeffs num den ea eb) =
      ((den : ℝ) - num) * cosineSum N ea - ((den : ℝ) + num) * cosineSum N eb := by
  have hLinear := valueAt_zipWith_linear (unitRoot N) ((den : ℤ) - num) (-((den : ℤ) + num)) h
  have hSame : marginCoeffs num den ea eb =
      List.zipWith (fun a b => ((den : ℤ) - num) * a + -((den : ℤ) + num) * b) ea eb := by
    simp only [marginCoeffs, neg_mul, sub_eq_add_neg]
  rw [cosineSum, hSame, hLinear, Complex.add_re, ← Complex.ofReal_intCast, ← Complex.ofReal_intCast,
    Complex.re_ofReal_mul, Complex.re_ofReal_mul, cosineSum, cosineSum]
  push_cast
  ring

/-! ## Samples -/

theorem isFiniteF32_iff (w : Word) : IsFiniteF32 w ↔ f32Finite w = true := by
  have hExp : (w.extractLsb' 23 8).toNat = f32Exp w.toNat := by
    rw [BitVec.extractLsb'_toNat, Nat.shiftRight_eq_div_pow, f32Exp]
  rw [IsFiniteF32, f32Finite, bne_iff_ne, ← hExp, ne_eq, ne_eq, ← BitVec.toNat_inj]
  rfl

theorem f32Scaled_cast (w : Word) : (f32Scaled w : ℝ) = f32Unit * f32Real w := by
  rw [f32Real_eq, f32Value, f32Scaled]
  have hUnit := f32Unit_pos.ne'
  split <;> · push_cast; field_simp

theorem valueAt_map_eq_sum (z : ℂ) (g : Word → ℤ) (x : List Word) :
    valueAt z (x.map g) = ∑ n : Fin x.length, (g x[n] : ℂ) * z ^ (n : ℕ) := by
  induction x with
  | nil => simp
  | cons w x ih =>
    rw [List.map_cons, valueAt_cons, ih, Finset.mul_sum]
    refine Eq.trans ?_ (Fin.sum_univ_succ _).symm
    simp [pow_succ', mul_left_comm]

theorem unitRoot_pow_eq (N k : ℕ) : unitRoot N ^ k = ⟨cos (2 * π * k / N), sin (2 * π * k / N)⟩ := by
  rw [unitRoot_pow]
  exact Complex.ext (Complex.exp_ofReal_mul_I_re _) (Complex.exp_ofReal_mul_I_im _)

/-- R224: the tone's two sums are the real and the imaginary part of the window's value at the tone's root. -/
theorem valueAt_samples (c : Config) (sym : Bool) (x : List Word) :
    valueAt (unitRoot c.sampleRate ^ c.freq sym) (x.map f32Scaled) =
      ⟨f32Unit * toneCos c sym x, f32Unit * toneSin c sym x⟩ := by
  have hTerm (n : Fin x.length) : (f32Scaled x[n] : ℂ) * (unitRoot c.sampleRate ^ c.freq sym) ^ (n : ℕ) =
      ⟨f32Unit * (f32Real x[n] * cos (2 * π * c.freq sym * n / c.sampleRate)),
        f32Unit * (f32Real x[n] * sin (2 * π * c.freq sym * n / c.sampleRate))⟩ := by
    rw [← pow_mul, unitRoot_pow_eq, ← Complex.ofReal_intCast, f32Scaled_cast, Nat.cast_mul, ← mul_assoc (2 * π)]
    refine Complex.ext ?_ ?_
    · rw [Complex.re_ofReal_mul, mul_assoc]
    · rw [Complex.im_ofReal_mul, mul_assoc]
  rw [valueAt_map_eq_sum, Finset.sum_congr rfl fun n _ => hTerm n]
  refine Complex.ext ?_ ?_
  · rw [Complex.re_sum, toneCos, Finset.mul_sum]
  · rw [Complex.im_sum, toneSin, Finset.mul_sum]

theorem normSq_valueAt_samples (c : Config) (sym : Bool) (x : List Word) :
    Complex.normSq (valueAt (unitRoot c.sampleRate ^ c.freq sym) (x.map f32Scaled)) =
      (f32Unit : ℝ) ^ 2 * energy c sym x := by
  rw [valueAt_samples, Complex.normSq_mk, energy]
  ring

/-- Angles are the same in fractions of `R / g`. -/
theorem unitRoot_div_pow_div {R f g : ℕ} (hg : 0 < g) (hR : g ∣ R) (hf : g ∣ f) :
    unitRoot (R / g) ^ (f / g) = unitRoot R ^ f := by
  obtain ⟨R, rfl⟩ := hR
  obtain ⟨f, rfl⟩ := hf
  have hg' : (g : ℝ) ≠ 0 := by exact_mod_cast hg.ne'
  rw [Nat.mul_div_cancel_left _ hg, Nat.mul_div_cancel_left _ hg, unitRoot_pow, unitRoot_pow]
  congr 3
  push_cast
  rw [mul_left_comm, mul_div_mul_left _ _ hg']

end Sys2Proof.Machine
end

section
/-! SUPPORT. The spectral decision (R225): each of its two signs is that of a margin between the energies, so it is made
where the rule fixes it, and right where it is made. -/

namespace Sys2Proof.Machine

open Sys2Proof.Claims

/-! ## The two margins -/

/-- `g`: angles are counted in fractions of `sampleRate / g`. -/
def angleGcd (c : Config) : ℕ := Nat.gcd (Nat.gcd c.freqA c.freqB) c.sampleRate

/-- The energy coefficients that `decideWindow` takes for a symbol. -/
def toneCoeffs (c : Config) (x : List Word) (sym : Bool) : List ℤ :=
  energyCoeffs (c.sampleRate / angleGcd c) (c.freq sym / angleGcd c) (lags (x.map f32Scaled))

/-- The sign that `decideWindow` takes for a symbol. -/
def marginSign (c : Config) (x : List Word) (sym : Bool) : Sign :=
  cosineSign (c.sampleRate / angleGcd c) (marginCoeffs c.tolNum c.tolDen (toneCoeffs c x sym) (toneCoeffs c x !sym))

/-- By how much, scaled to whole numbers, a symbol's energy exceeds the other's beyond the tolerance. -/
noncomputable def margin (c : Config) (x : List Word) (sym : Bool) : ℝ :=
  ((c.tolDen : ℝ) - c.tolNum) * energy c sym x - ((c.tolDen : ℝ) + c.tolNum) * energy c (!sym) x

theorem Sign.IsSignOf.of_mul {a x : ℝ} (ha : 0 < a) {s : Sign} (h : s.IsSignOf (a * x)) : s.IsSignOf x :=
  match s, h with
  | .positive, h => (mul_pos_iff_of_pos_left ha).mp h
  | .zero, h => (mul_eq_zero.mp h).resolve_left ha.ne'
  | .negative, h => neg_of_mul_neg_right h ha.le

theorem Sign.IsSignOf.eq_positive_iff {x : ℝ} {s : Sign} (h : s.IsSignOf x) : s = .positive ↔ 0 < x :=
  match s, h with
  | .positive, h => iff_of_true rfl h
  | .zero, h => iff_of_false nofun (Eq.not_gt h)
  | .negative, h => iff_of_false nofun (lt_asymm h)

theorem Sign.IsSignOf.eq_zero_iff {x : ℝ} {s : Sign} (h : s.IsSignOf x) : s = .zero ↔ x = 0 :=
  match s, h with
  | .positive, h => iff_of_false nofun (ne_of_gt h)
  | .zero, h => iff_of_true rfl h
  | .negative, h => iff_of_false nofun (ne_of_lt h)

theorem Sign.IsSignOf.ne_unresolved {x : ℝ} {s : Sign} (h : s.IsSignOf x) : s ≠ .unresolved := by
  rintro rfl
  exact h

theorem energy_nonneg (c : Config) (sym : Bool) (x : List Word) : 0 ≤ energy c sym x := by
  rw [energy]
  positivity

/-- What R7 gives here. -/
structure DecisionConfig (c : Config) : Prop where
  freqA_pos : 0 < c.freqA
  rate_pos : 0 < c.sampleRate
  tolDen_pos : 0 < c.tolDen

theorem decisionConfig_of_configWf {c : Config} (h : configWf c = true) : DecisionConfig c := by
  simp only [configWf, Bool.and_eq_true, decide_eq_true_eq] at h
  exact ⟨by omega, by omega, by omega⟩

section
variable {c : Config} (hc : DecisionConfig c) (x : List Word) (sym : Bool)
include hc

theorem angleGcd_spec : 0 < angleGcd c ∧ angleGcd c ∣ c.sampleRate ∧ angleGcd c ∣ c.freq sym := by
  refine ⟨Nat.gcd_pos_of_pos_right _ hc.rate_pos, Nat.gcd_dvd_right _ _, (Nat.gcd_dvd_left _ _).trans ?_⟩
  cases sym
  · exact Nat.gcd_dvd_left _ _
  · exact Nat.gcd_dvd_right _ _

theorem angleCount_pos : 0 < c.sampleRate / angleGcd c := by
  obtain ⟨hPos, hDvd, -⟩ := angleGcd_spec hc false
  exact Nat.div_pos (Nat.le_of_dvd hc.rate_pos hDvd) hPos

theorem cosineSum_toneCoeffs :
    cosineSum (c.sampleRate / angleGcd c) (toneCoeffs c x sym) = (f32Unit : ℝ) ^ 2 * energy c sym x := by
  obtain ⟨hPos, hRate, hFreq⟩ := angleGcd_spec hc sym
  rw [toneCoeffs, cosineSum_energyCoeffs (angleCount_pos hc), unitRoot_div_pow_div hPos hRate hFreq,
    normSq_valueAt_samples]

theorem marginSign_isSignOf : (marginSign c x sym).IsSignOf (margin c x sym) := by
  have hLength : (toneCoeffs c x sym).length = (toneCoeffs c x !sym).length := by
    rw [toneCoeffs, toneCoeffs, energyCoeffs_length, energyCoeffs_length]
  obtain ⟨p, hp⟩ : ∃ p, p = marginCoeffs c.tolNum c.tolDen (toneCoeffs c x sym) (toneCoeffs c x !sym) := ⟨_, rfl⟩
  have hCount : p.length = c.sampleRate / angleGcd c := by
    rw [hp, marginCoeffs_length _ _ hLength, toneCoeffs, energyCoeffs_length]
  have hValue : cosineSum p.length p = (f32Unit : ℝ) ^ 2 * margin c x sym := by
    rw [hCount, hp, cosineSum_marginCoeffs _ _ _ hLength, cosineSum_toneCoeffs hc, cosineSum_toneCoeffs hc, margin]
    ring
  have hSign := cosineSign_isSignOf (p := p) (hCount ▸ angleCount_pos hc)
  rw [hValue, hCount, hp] at hSign
  exact hSign.of_mul (pow_pos f32Unit_pos 2)

/-- A margin is positive exactly when the energies differ by more than the tolerance. -/
theorem margin_pos_iff :
    0 < margin c x sym ↔
      tolerance c * (energy c false x + energy c true x) < energy c sym x - energy c (!sym) x := by
  have hDen : (0 : ℝ) < c.tolDen := by exact_mod_cast hc.tolDen_pos
  have hSum : energy c false x + energy c true x = energy c sym x + energy c (!sym) x := by
    cases sym
    · rfl
    · exact add_comm _ _
  rw [hSum, tolerance, margin, div_mul_eq_mul_div, div_lt_iff₀ hDen]
  constructor <;> intro h <;> linarith

theorem tolerance_eq_zero_iff : tolerance c = 0 ↔ c.tolNum = 0 := by
  have hDen : (c.tolDen : ℝ) ≠ 0 := by exact_mod_cast hc.tolDen_pos.ne'
  rw [tolerance, div_eq_zero_iff, or_iff_left hDen, Nat.cast_eq_zero]

omit hc in
theorem tolerance_nonneg : 0 ≤ tolerance c := by
  rw [tolerance]
  positivity

theorem margin_eq_zero_iff (h : c.tolNum = 0) : margin c x sym = 0 ↔ energy c sym x = energy c (!sym) x := by
  have hDen : (c.tolDen : ℝ) ≠ 0 := by exact_mod_cast hc.tolDen_pos.ne'
  rw [margin, h, Nat.cast_zero, sub_zero, add_zero, ← mul_sub, mul_eq_zero, or_iff_right hDen, sub_eq_zero]

/-- Not both symbols dominate. -/
theorem margin_nonpos_of_pos (h : 0 < margin c x sym) : ¬0 < margin c x !sym := by
  rw [margin_pos_iff hc] at h ⊢
  have hSum : 0 ≤ tolerance c * (energy c false x + energy c true x) :=
    mul_nonneg tolerance_nonneg (add_nonneg (energy_nonneg ..) (energy_nonneg ..))
  rw [Bool.not_not]
  linarith

end

/-! ## The decision -/

theorem decideWindow_of_not_finite {c : Config} {x : List Word} (h : ∃ w ∈ x, ¬IsFiniteF32 w) :
    decideWindow c x = .draw := by
  obtain ⟨w, hw, hFinite⟩ := h
  rw [decideWindow, if_neg]
  intro hAll
  exact hFinite ((isFiniteF32_iff w).mpr (List.all_eq_true.mp hAll w hw))

/-- How the two signs decide. -/
def decisionOf (tieTo0 : Prop) [Decidable tieTo0] (m1 m0 : Sign) : Decision :=
  match m1 with
  | .positive => .symbol true
  | .unresolved => .draw
  | m1 =>
    match m0 with
    | .positive => .symbol false
    | .unresolved => .draw
    | _ => if tieTo0 ∧ m1 = .zero then .symbol false else .draw

theorem decisionOf_eq_true_iff {tieTo0 : Prop} [Decidable tieTo0] {m1 m0 : Sign} :
    decisionOf tieTo0 m1 m0 = .symbol true ↔ m1 = .positive := by
  cases m1 with
  | positive => simp [decisionOf]
  | unresolved => simp [decisionOf]
  | zero | negative => cases m0 <;> simp [decisionOf, ite_eq_iff]

theorem decisionOf_eq_false_iff {tieTo0 : Prop} [Decidable tieTo0] {m1 m0 : Sign} (h1 : m1 ≠ .unresolved)
    (h0 : m0 ≠ .unresolved) :
    decisionOf tieTo0 m1 m0 = .symbol false ↔ m1 ≠ .positive ∧ (m0 = .positive ∨ tieTo0 ∧ m1 = .zero) := by
  cases m1 with
  | positive => simp [decisionOf]
  | unresolved => exact absurd rfl h1
  | zero | negative => cases m0 <;> simp [decisionOf] at h0 ⊢

theorem decideWindow_of_finite {c : Config} {x : List Word} (h : ∀ w ∈ x, IsFiniteF32 w) :
    decideWindow c x = decisionOf (c.tolNum = 0) (marginSign c x true) (marginSign c x false) := by
  have hAll : x.all f32Finite = true := List.all_eq_true.mpr fun w hw => (isFiniteF32_iff w).mp (h w hw)
  rw [decideWindow, if_pos hAll]
  rfl

section
variable {c : Config} (hc : DecisionConfig c) {x : List Word} (h : ∀ w ∈ x, IsFiniteF32 w)
include hc h

theorem decideWindow_eq_true_iff : decideWindow c x = .symbol true ↔ 0 < margin c x true := by
  rw [decideWindow_of_finite h, decisionOf_eq_true_iff, (marginSign_isSignOf hc x true).eq_positive_iff]

theorem decideWindow_eq_false_iff :
    decideWindow c x = .symbol false ↔ 0 < margin c x false ∨ tolerance c = 0 ∧ energy c false x = energy c true x := by
  have hSign1 := marginSign_isSignOf hc x true
  have hSign0 := marginSign_isSignOf hc x false
  rw [decideWindow_of_finite h, decisionOf_eq_false_iff hSign1.ne_unresolved hSign0.ne_unresolved, ne_eq,
    hSign1.eq_positive_iff, hSign0.eq_positive_iff, hSign1.eq_zero_iff, tolerance_eq_zero_iff hc]
  constructor
  · rintro ⟨-, hDominates | ⟨hTol, hTie⟩⟩
    · exact .inl hDominates
    · exact .inr ⟨hTol, ((margin_eq_zero_iff hc x true hTol).mp hTie).symm⟩
  · rintro (hDominates | ⟨hTol, hTie⟩)
    · exact ⟨margin_nonpos_of_pos hc x false hDominates, .inl hDominates⟩
    · have hZero := (margin_eq_zero_iff hc x true hTol).mpr hTie.symm
      exact ⟨hZero.not_gt, .inr ⟨hTol, hZero⟩⟩

end

/-- Settles O51: each sign decided on is that of a margin between the real energies. -/
theorem spectralDecisionIsRight : Obligations.SpectralDecisionIsRight := by
  intro c x hWf
  have hc := decisionConfig_of_configWf hWf
  refine ⟨fun hFinite => ⟨fun hTrue => ?_, fun hFalse => ?_⟩, decideWindow_of_not_finite⟩
  · exact (margin_pos_iff hc x true).mp ((decideWindow_eq_true_iff hc hFinite).mp hTrue)
  · exact ((decideWindow_eq_false_iff hc hFinite).mp hFalse).imp_left (margin_pos_iff hc x false).mp

/-- Settles O52: the refinements suffice, by the separation of a margin that is not 0 from 0, and an exact tie is
recognised. -/
theorem spectralDecisionIsMade : Obligations.SpectralDecisionIsMade := by
  intro c x hWf hFinite
  have hc := decisionConfig_of_configWf hWf
  refine ⟨fun hTrue => ?_, fun hFalse => ?_, fun hTol hTie => ?_⟩
  · exact (decideWindow_eq_true_iff hc hFinite).mpr ((margin_pos_iff hc x true).mpr hTrue)
  · exact (decideWindow_eq_false_iff hc hFinite).mpr (.inl ((margin_pos_iff hc x false).mpr hFalse))
  · exact (decideWindow_eq_false_iff hc hFinite).mpr (.inr ⟨hTol, hTie⟩)

end Sys2Proof.Machine
end
